-- ==== Sys2Proof/Word.lean ====
section
/-! DEFINITION. The word types of the engine and the field slices of a 64-bit command word (spec 00_scope R10). -/

namespace Sys2Proof

/-- A byte, which is also an element of GF(2^8): bit `i` is the coefficient of `x^i` (00_scope R10, 40_field R120). -/
abbrev Byte := BitVec 8

/-- A 64-bit register, command word or buffer handle (10_state R22, 30_encoding R90). -/
abbrev Word := BitVec 64

/-- `zext_64` of a number that fits 64 bits (00_scope R10). -/
abbrev Word.ofNat (n : Nat) : Word := BitVec.ofNat 64 n

end Sys2Proof
end

