-- ==== Sys2Proof/Config.lean ====
section
/-! DEFINITION. The parameters of the engine: those the spec fixes (constants), those it leaves open (the record
`Config`, an argument of the model), the backend table, and the one free value. -/

namespace Sys2Proof

/-- `NBK`, the number of backends (00_scope R7). -/
abbrev nbk : Nat := 3

/-- `WMAX`, the widest lane in bytes (00_scope R7). -/
abbrev wmax : Nat := 64

/-- `NV`, the number of lane registers of a context (00_scope R7). -/
abbrev nv : Nat := 16

/-- `MAXCOLS`, the entries of a column array (00_scope R6, 10_state R35). -/
abbrev maxCols : Nat := 258

/-- `NDATA_MAX`, the most data columns of a map (00_scope R6). -/
abbrev ndataMax : Nat := 255

/-- Register numbers run from 0 to 511 (10_state R31, R46). -/
abbrev regCount : Nat := 512

/-- The open parameters (00_scope R7), an argument of the model.
Log 1: it stands in State because `exec` takes nothing else, and no step writes it. -/
structure Config where
  /-- `SECTOR`, the sector size in bytes. -/
  sector   : Nat
  /-- `MEM_LIMIT`, the number of implemented bytes of buffer memory. -/
  memLimit : Nat
  /-- `NCTX`, the number of contexts. -/
  nctx     : Nat
  /-- `CI`, bit `i` = backend `i` is compiled in; bit 0 counts as 1 whatever it holds. -/
  ci       : BitVec 3
deriving DecidableEq, Repr

/-- The constraints the spec puts on the open parameters (00_scope R7, 92 "Open parameters, collected"). -/
def Config.wf (c : Config) : Bool :=
  decide (0 < c.sector) && decide (c.sector % wmax = 0) && decide (0 < c.memLimit) && decide (c.memLimit ≤ 2 ^ 64)
    && decide (1 ≤ c.nctx)

/-- The instance `State.reset` takes: the parameters of the test vectors (95_test_vectors, head; 70_reset R341
"one fixed machine takes CI = FEAT = 0b111"). DESIGN CHOICE, log 1. -/
def Config.vectors : Config := { sector := 64, memLimit := 0x20000, nctx := 2, ci := 0b111#3 }

/-- The probe inputs `FEAT` that `State.reset` samples (70_reset R341). DESIGN CHOICE, log 1 and log 20. -/
def Config.vectorsFeat : BitVec 3 := 0b111#3

/-- The multiply form of a backend (00_scope R8, 40_field R127). -/
inductive Form where
  | log
  | antilog
deriving DecidableEq, Repr

/-- The fields of a backend descriptor that the rules read (10_state R41). The ten function slots are the same functions
for every backend (45_dispatch R286, R288) and stand in Machine/Generation.lean and Machine/Reconstruction.lean. -/
structure Backend where
  name  : List Char
  width : Nat
  form  : Form
deriving DecidableEq, Repr

/-- `BKD`, the backend table (00_scope R8, 10_state R41). Log 18. -/
def Config.backends : List Backend :=
  [ { name := ['s', 'c', 'a', 'l', 'a', 'r'], width := 8,  form := .log },
    { name := ['a', 'v', 'x', '2'],           width := 32, form := .antilog },
    { name := ['a', 'v', 'x', '5', '1', '2'], width := 64, form := .antilog } ]

/-- THE FREE VALUE: the byte of buffer memory at an address that nothing has written, unspecified at power-on
(20_memory R61, 93 U7 "any value"). No body: nothing can evaluate it. Log 2. -/
opaque Config.powerOnByte : Nat → Byte

end Sys2Proof
end

