-- ==== Sys2Proof/Syntax.lean ====
section
/-! DEFINITION. The 34 commands of the opcode map (30_encoding R95), one constructor per row, operands named as in the
table. A field is an unsigned number (R94: it decodes whatever its value, and the command's own rule checks the range). -/

namespace Sys2Proof

inductive Instr where
  -- 42_map
  | nop
  | mapOpen (cols parity : Nat)
  | colSet (c : Nat)
  | colGet (c : Nat)
  | mapCommit
  | mapClose
  -- 45_dispatch
  | bkSet
  | bkAuto
  | bkGet
  | bkEnum (i : Nat)
  -- 40_field
  | gfMul (a b : Nat)
  | gfExp2 (a e : Nat)
  | gfFixexp (bk e : Nat)
  | gfPow2 (k : Nat)
  | gfLog2 (a : Nat)
  -- 41_lane
  | laneWidth (bk : Nat)
  | laneLoad (bk vd : Nat)
  | laneStore (bk vs : Nat)
  | laneXor (bk vd vs1 vs2 : Nat)
  | laneMul2 (bk vd vs : Nat)
  | laneMul4 (bk vd vs : Nat)
  | laneMulc (bk vd vs e : Nat)
  -- 43_generation
  | gen
  | genP
  | genPQ
  | genPQR
  -- 44_reconstruction
  | recList (nt t0 t1 t2 : Nat)
  | recP (x : Nat)
  | recQ (x : Nat)
  | recR (x : Nat)
  | recPQ (x y : Nat)
  | recPR (x y : Nat)
  | recQR (x y : Nat)
  | recPQR (x y z : Nat)
deriving DecidableEq, Repr

end Sys2Proof
end

