-- ==== Sys2Proof/WellFormed.lean ====
section
/-! DEFINITION. When a command can be written down as a word: every operand fits the field that holds it (30_encoding R91). -/

namespace Sys2Proof

/-- The operand fits a 16-bit field `f0`, `f1` or `f2` (30_encoding R91). -/
def fitsField (n : Nat) : Bool := decide (n < 2 ^ 16)

/-- The operand fits the 8-bit modifier `m` (30_encoding R91). -/
def fitsMod (n : Nat) : Bool := decide (n < 2 ^ 8)

/-- Every operand of the command fits its field. -/
def Instr.wf : Instr → Bool
  | .nop => true
  | .mapOpen cols parity => fitsField cols && fitsField parity
  | .colSet c => fitsField c
  | .colGet c => fitsField c
  | .mapCommit => true
  | .mapClose => true
  | .bkSet => true
  | .bkAuto => true
  | .bkGet => true
  | .bkEnum i => fitsField i
  | .gfMul a b => fitsField a && fitsField b
  | .gfExp2 a e => fitsField a && fitsField e
  | .gfFixexp bk e => fitsMod bk && fitsField e
  | .gfPow2 k => fitsField k
  | .gfLog2 a => fitsField a
  | .laneWidth bk => fitsMod bk
  | .laneLoad bk vd => fitsMod bk && fitsField vd
  | .laneStore bk vs => fitsMod bk && fitsField vs
  | .laneXor bk vd vs1 vs2 => fitsMod bk && fitsField vd && fitsField vs1 && fitsField vs2
  | .laneMul2 bk vd vs => fitsMod bk && fitsField vd && fitsField vs
  | .laneMul4 bk vd vs => fitsMod bk && fitsField vd && fitsField vs
  | .laneMulc bk vd vs e => fitsMod bk && fitsField vd && fitsField vs && fitsField e
  | .gen => true
  | .genP => true
  | .genPQ => true
  | .genPQR => true
  | .recList nt t0 t1 t2 => fitsMod nt && fitsField t0 && fitsField t1 && fitsField t2
  | .recP x => fitsField x
  | .recQ x => fitsField x
  | .recR x => fitsField x
  | .recPQ x y => fitsField x && fitsField y
  | .recPR x y => fitsField x && fitsField y
  | .recQR x y => fitsField x && fitsField y
  | .recPQR x y z => fitsField x && fitsField y && fitsField z

end Sys2Proof
end

