-- ==== Sys2Proof/Decode.lean ====
section
/-! DEFINITION. The decoder of a 64-bit command word, total on all 2^64 words, and the encoder beside it, both written
from the tables of 30_encoding (R91 fields, R92 formats, R95 opcode map). -/

namespace Sys2Proof

/-! ### The fields of a command word (30_encoding R91) -/

/-- `op = w[63:56]`. -/
def opField (w : Word) : Nat := (w.extractLsb' 56 8).toNat

/-- `m = w[55:48]`. -/
def mField (w : Word) : Nat := (w.extractLsb' 48 8).toNat

/-- `f2 = w[47:32]`. -/
def f2Field (w : Word) : Nat := (w.extractLsb' 32 16).toNat

/-- `f1 = w[31:16]`. -/
def f1Field (w : Word) : Nat := (w.extractLsb' 16 16).toNat

/-- `f0 = w[15:0]`. -/
def f0Field (w : Word) : Nat := (w.extractLsb' 0 16).toNat

/-! ### The formats (30_encoding R92): every field a format does not use must be 0 -/

/-- Format `Z`: no field is used. -/
def fmtZ (w : Word) (i : Instr) : Option Instr :=
  if mField w = 0 ∧ f2Field w = 0 ∧ f1Field w = 0 ∧ f0Field w = 0 then some i else none

/-- Format `F1`: `f0`. -/
def fmtF1 (w : Word) (k : Nat → Instr) : Option Instr :=
  if mField w = 0 ∧ f2Field w = 0 ∧ f1Field w = 0 then some (k (f0Field w)) else none

/-- Format `F2`: `f0`, `f1`. -/
def fmtF2 (w : Word) (k : Nat → Nat → Instr) : Option Instr :=
  if mField w = 0 ∧ f2Field w = 0 then some (k (f0Field w) (f1Field w)) else none

/-- Format `F3`: `f0`, `f1`, `f2`. -/
def fmtF3 (w : Word) (k : Nat → Nat → Nat → Instr) : Option Instr :=
  if mField w = 0 then some (k (f0Field w) (f1Field w) (f2Field w)) else none

/-- Format `B0`: `m`. -/
def fmtB0 (w : Word) (k : Nat → Instr) : Option Instr :=
  if f2Field w = 0 ∧ f1Field w = 0 ∧ f0Field w = 0 then some (k (mField w)) else none

/-- Format `B1`: `m`, `f0`. -/
def fmtB1 (w : Word) (k : Nat → Nat → Instr) : Option Instr :=
  if f2Field w = 0 ∧ f1Field w = 0 then some (k (mField w) (f0Field w)) else none

/-- Format `B2`: `m`, `f0`, `f1`. -/
def fmtB2 (w : Word) (k : Nat → Nat → Nat → Instr) : Option Instr :=
  if f2Field w = 0 then some (k (mField w) (f0Field w) (f1Field w)) else none

/-- Format `B3`: `m`, `f0`, `f1`, `f2`. -/
def fmtB3 (w : Word) (k : Nat → Nat → Nat → Nat → Instr) : Option Instr :=
  some (k (mField w) (f0Field w) (f1Field w) (f2Field w))

/-- Format `T`: `m`, `f0`, `f1`, `f2`; the fields beyond the count are checked by the command (44_reconstruction R262). -/
def fmtT (w : Word) (k : Nat → Nat → Nat → Nat → Instr) : Option Instr :=
  some (k (mField w) (f0Field w) (f1Field w) (f2Field w))

/-! ### Decoding (30_encoding R93, R95, R98) -/

/-- The command a word stands for; `none` is an illegal command (R98). It reads nothing but the word (R93). -/
def decode (w : Word) : Option Instr :=
  match opField w with
  | 0x00 => fmtZ  w .nop
  | 0x01 => fmtF2 w .mapOpen
  | 0x02 => fmtF1 w .colSet
  | 0x03 => fmtF1 w .colGet
  | 0x04 => fmtZ  w .mapCommit
  | 0x05 => fmtZ  w .mapClose
  | 0x10 => fmtZ  w .bkSet
  | 0x11 => fmtZ  w .bkAuto
  | 0x12 => fmtZ  w .bkGet
  | 0x13 => fmtF1 w .bkEnum
  | 0x20 => fmtF2 w .gfMul
  | 0x21 => fmtF2 w .gfExp2
  | 0x22 => fmtB1 w .gfFixexp
  | 0x23 => fmtF1 w .gfPow2
  | 0x24 => fmtF1 w .gfLog2
  | 0x30 => fmtB0 w .laneWidth
  | 0x31 => fmtB1 w .laneLoad
  | 0x32 => fmtB1 w .laneStore
  | 0x33 => fmtB3 w .laneXor
  | 0x34 => fmtB2 w .laneMul2
  | 0x35 => fmtB2 w .laneMul4
  | 0x36 => fmtB3 w .laneMulc
  | 0x40 => fmtZ  w .gen
  | 0x41 => fmtZ  w .genP
  | 0x42 => fmtZ  w .genPQ
  | 0x43 => fmtZ  w .genPQR
  | 0x50 => fmtT  w .recList
  | 0x51 => fmtF1 w .recP
  | 0x52 => fmtF1 w .recQ
  | 0x53 => fmtF1 w .recR
  | 0x54 => fmtF2 w .recPQ
  | 0x55 => fmtF2 w .recPR
  | 0x56 => fmtF2 w .recQR
  | 0x57 => fmtF3 w .recPQR
  | _ => none

/-! ### Encoding -/

/-- `w = op ++ m ++ f2 ++ f1 ++ f0` (30_encoding R91). -/
def wordOf (op m f2 f1 f0 : Nat) : Word :=
  Word.ofNat (op * 2 ^ 56 + m * 2 ^ 48 + f2 * 2 ^ 32 + f1 * 2 ^ 16 + f0)

/-- The word of a command (30_encoding R91, R95). -/
def encode : Instr → Word
  | .nop => wordOf 0x00 0 0 0 0
  | .mapOpen cols parity => wordOf 0x01 0 0 parity cols
  | .colSet c => wordOf 0x02 0 0 0 c
  | .colGet c => wordOf 0x03 0 0 0 c
  | .mapCommit => wordOf 0x04 0 0 0 0
  | .mapClose => wordOf 0x05 0 0 0 0
  | .bkSet => wordOf 0x10 0 0 0 0
  | .bkAuto => wordOf 0x11 0 0 0 0
  | .bkGet => wordOf 0x12 0 0 0 0
  | .bkEnum i => wordOf 0x13 0 0 0 i
  | .gfMul a b => wordOf 0x20 0 0 b a
  | .gfExp2 a e => wordOf 0x21 0 0 e a
  | .gfFixexp bk e => wordOf 0x22 bk 0 0 e
  | .gfPow2 k => wordOf 0x23 0 0 0 k
  | .gfLog2 a => wordOf 0x24 0 0 0 a
  | .laneWidth bk => wordOf 0x30 bk 0 0 0
  | .laneLoad bk vd => wordOf 0x31 bk 0 0 vd
  | .laneStore bk vs => wordOf 0x32 bk 0 0 vs
  | .laneXor bk vd vs1 vs2 => wordOf 0x33 bk vs2 vs1 vd
  | .laneMul2 bk vd vs => wordOf 0x34 bk 0 vs vd
  | .laneMul4 bk vd vs => wordOf 0x35 bk 0 vs vd
  | .laneMulc bk vd vs e => wordOf 0x36 bk e vs vd
  | .gen => wordOf 0x40 0 0 0 0
  | .genP => wordOf 0x41 0 0 0 0
  | .genPQ => wordOf 0x42 0 0 0 0
  | .genPQR => wordOf 0x43 0 0 0 0
  | .recList nt t0 t1 t2 => wordOf 0x50 nt t2 t1 t0
  | .recP x => wordOf 0x51 0 0 0 x
  | .recQ x => wordOf 0x52 0 0 0 x
  | .recR x => wordOf 0x53 0 0 0 x
  | .recPQ x y => wordOf 0x54 0 0 y x
  | .recPR x y => wordOf 0x55 0 0 y x
  | .recQR x y => wordOf 0x56 0 0 y x
  | .recPQR x y z => wordOf 0x57 0 z y x

/-- The name of a command in the opcode map (30_encoding R95). -/
def Instr.mnemonic : Instr → String
  | .nop => "NOP"
  | .mapOpen _ _ => "MAP_OPEN"
  | .colSet _ => "COL_SET"
  | .colGet _ => "COL_GET"
  | .mapCommit => "MAP_COMMIT"
  | .mapClose => "MAP_CLOSE"
  | .bkSet => "BK_SET"
  | .bkAuto => "BK_AUTO"
  | .bkGet => "BK_GET"
  | .bkEnum _ => "BK_ENUM"
  | .gfMul _ _ => "GF_MUL"
  | .gfExp2 _ _ => "GF_EXP2"
  | .gfFixexp _ _ => "GF_FIXEXP"
  | .gfPow2 _ => "GF_POW2"
  | .gfLog2 _ => "GF_LOG2"
  | .laneWidth _ => "LANE_WIDTH"
  | .laneLoad _ _ => "LANE_LOAD"
  | .laneStore _ _ => "LANE_STORE"
  | .laneXor _ _ _ _ => "LANE_XOR"
  | .laneMul2 _ _ _ => "LANE_MUL2"
  | .laneMul4 _ _ _ => "LANE_MUL4"
  | .laneMulc _ _ _ _ => "LANE_MULC"
  | .gen => "GEN"
  | .genP => "GEN_P"
  | .genPQ => "GEN_PQ"
  | .genPQR => "GEN_PQR"
  | .recList _ _ _ _ => "REC"
  | .recP _ => "REC_P"
  | .recQ _ => "REC_Q"
  | .recR _ => "REC_R"
  | .recPQ _ _ => "REC_PQ"
  | .recPR _ _ => "REC_PR"
  | .recQR _ _ => "REC_QR"
  | .recPQR _ _ _ => "REC_PQR"

/-! ### The opcode map as masks (30_encoding R92, R93, R95; spec/opcode_table.json) -/

/-- One row of the opcode map: a word `w` is the row's command exactly when `w & mask = match` (30_encoding R93). -/
structure OpRow where
  mnemonic : String
  pattern  : Word
  mask     : Word
deriving DecidableEq, Repr

/-- `w & mask = match` (30_encoding R93). -/
def OpRow.accepts (r : OpRow) (w : Word) : Bool := w &&& r.mask == r.pattern

def opRowsMapDispatch : List OpRow :=
  [ ⟨"NOP",        0x0000000000000000, 0xFFFFFFFFFFFFFFFF⟩,
    ⟨"MAP_OPEN",   0x0100000000000000, 0xFFFFFFFF00000000⟩,
    ⟨"COL_SET",    0x0200000000000000, 0xFFFFFFFFFFFF0000⟩,
    ⟨"COL_GET",    0x0300000000000000, 0xFFFFFFFFFFFF0000⟩,
    ⟨"MAP_COMMIT", 0x0400000000000000, 0xFFFFFFFFFFFFFFFF⟩,
    ⟨"MAP_CLOSE",  0x0500000000000000, 0xFFFFFFFFFFFFFFFF⟩,
    ⟨"BK_SET",     0x1000000000000000, 0xFFFFFFFFFFFFFFFF⟩,
    ⟨"BK_AUTO",    0x1100000000000000, 0xFFFFFFFFFFFFFFFF⟩,
    ⟨"BK_GET",     0x1200000000000000, 0xFFFFFFFFFFFFFFFF⟩,
    ⟨"BK_ENUM",    0x1300000000000000, 0xFFFFFFFFFFFF0000⟩ ]

def opRowsFieldLane : List OpRow :=
  [ ⟨"GF_MUL",     0x2000000000000000, 0xFFFFFFFF00000000⟩,
    ⟨"GF_EXP2",    0x2100000000000000, 0xFFFFFFFF00000000⟩,
    ⟨"GF_FIXEXP",  0x2200000000000000, 0xFF00FFFFFFFF0000⟩,
    ⟨"GF_POW2",    0x2300000000000000, 0xFFFFFFFFFFFF0000⟩,
    ⟨"GF_LOG2",    0x2400000000000000, 0xFFFFFFFFFFFF0000⟩,
    ⟨"LANE_WIDTH", 0x3000000000000000, 0xFF00FFFFFFFFFFFF⟩,
    ⟨"LANE_LOAD",  0x3100000000000000, 0xFF00FFFFFFFF0000⟩,
    ⟨"LANE_STORE", 0x3200000000000000, 0xFF00FFFFFFFF0000⟩,
    ⟨"LANE_XOR",   0x3300000000000000, 0xFF00000000000000⟩,
    ⟨"LANE_MUL2",  0x3400000000000000, 0xFF00FFFF00000000⟩,
    ⟨"LANE_MUL4",  0x3500000000000000, 0xFF00FFFF00000000⟩,
    ⟨"LANE_MULC",  0x3600000000000000, 0xFF00000000000000⟩ ]

def opRowsCompute : List OpRow :=
  [ ⟨"GEN",        0x4000000000000000, 0xFFFFFFFFFFFFFFFF⟩,
    ⟨"GEN_P",      0x4100000000000000, 0xFFFFFFFFFFFFFFFF⟩,
    ⟨"GEN_PQ",     0x4200000000000000, 0xFFFFFFFFFFFFFFFF⟩,
    ⟨"GEN_PQR",    0x4300000000000000, 0xFFFFFFFFFFFFFFFF⟩,
    ⟨"REC",        0x5000000000000000, 0xFF00000000000000⟩,
    ⟨"REC_P",      0x5100000000000000, 0xFFFFFFFFFFFF0000⟩,
    ⟨"REC_Q",      0x5200000000000000, 0xFFFFFFFFFFFF0000⟩,
    ⟨"REC_R",      0x5300000000000000, 0xFFFFFFFFFFFF0000⟩,
    ⟨"REC_PQ",     0x5400000000000000, 0xFFFFFFFF00000000⟩,
    ⟨"REC_PR",     0x5500000000000000, 0xFFFFFFFF00000000⟩,
    ⟨"REC_QR",     0x5600000000000000, 0xFFFFFFFF00000000⟩,
    ⟨"REC_PQR",    0x5700000000000000, 0xFFFF000000000000⟩ ]

/-- The 34 rows of the opcode map with the masks of their formats (30_encoding R92, R95). The decoder does not read it:
it is the manual's second statement of what is legal, against which the decoder is stated. -/
def opcodeMap : List OpRow := opRowsMapDispatch ++ opRowsFieldLane ++ opRowsCompute

/-! ### The host's entry to the decoder -/

/-- The command the decoder reads from an opcode-table word of `nbits` bits; the bits above `nbits` are 0.
A command is one 64-bit value written to `CMD` and not stored in memory, so there is no byte order to lay out
(30_encoding R90, 20_memory R79; log 17). -/
def decodeTableWord (nbits w : Nat) : Option Instr := decode (Word.ofNat (w % 2 ^ nbits))

end Sys2Proof
end

