-- ==== Sys2Proof/Machine/ByteOrder.lean ====
section
/-! DEFINITION. The byte order of a register: little-endian, byte `k` in bits `[8k+7:8k]` (20_memory R65). -/

namespace Sys2Proof.Machine

/-- The byte at offset `k` of a register's 8-byte slot: bits `[8k+7:8k]` (20_memory R65). -/
def regByte (v : Word) (k : Nat) : Byte := v.extractLsb' (8 * k) 8

/-- The 8 bytes of a register's slot, lowest offset first (20_memory R65). -/
def regBytes (v : Word) : List Byte := (List.range 8).map (regByte v)

/-- The register whose slot holds the given bytes, lowest offset first, and 0 beyond them (20_memory R65). -/
def regOfBytes (bytes : List Byte) : Word := bytes.foldr (fun b acc => (acc <<< 8) ||| b.setWidth 64) 0

end Sys2Proof.Machine
end

