-- ==== Sys2Proof/Machine/Registry.lean ====
section
/-! DEFINITION. The backend registry: names in registers, what is compiled in, what is available, the best available
backend (45_dispatch R280 to R284, 70_reset R341). -/

namespace Sys2Proof.Machine

/-- `BKD[b]` (10_state R41). Only ids below `NBK` are ever looked up by a command that has passed its checks. -/
def bkd (b : Nat) : Backend := Config.backends.getD b { name := [], width := 0, form := .log }

/-- `pack(name)`: the characters are the bytes of the register, the first in bits [7:0] (45_dispatch R281,
20_memory R65). -/
def pack (name : List Char) : Word := regOfBytes (name.map fun ch => BitVec.ofNat 8 ch.toNat)

/-- `CI[b] = 1`; backend 0 is always compiled in (00_scope R7, 45_dispatch R280). -/
def compiledIn (ci : BitVec 3) (b : Nat) : Bool := decide (b < nbk) && (b == 0 || ci.getLsbD b)

/-- `AVAIL[i] = CI[i] and FEAT[i]`, with `CI[0] = FEAT[0] = 1` whatever the input (10_state R33, 70_reset R341). -/
def availMask (ci feat : BitVec 3) : BitVec 3 := (ci ||| 1#3) &&& (feat ||| 1#3)

/-- `b < NBK and AVAIL[b] = 1`: backend `b` is in the registered list (45_dispatch R280). -/
def registered (avail : BitVec 3) (b : Nat) : Bool := decide (b < nbk) && avail.getLsbD b

/-- `best()`: the largest id `b < NBK` with `AVAIL[b] = 1` (45_dispatch R284). Backend 0 is always registered (R280). -/
def best (avail : BitVec 3) : Nat := ((List.range nbk).filter (registered avail)).getLastD 0

/-- The backend whose packed name is `name` and which is compiled in, if there is one (45_dispatch R283). -/
def findByName (ci : BitVec 3) (name : Word) : Option Nat :=
  (List.range nbk).find? fun b => pack (bkd b).name == name && compiledIn ci b

end Sys2Proof.Machine
end

