-- ==== Sys2Proof/Machine/State.lean ====
section
/-! DEFINITION. The state of the engine as plain data (10_state R20), its values after reset (R45), the host operations
(30_encoding R110, 70_reset R340), and the reasons a step can stop. -/

namespace Sys2Proof.Machine

/-! ### Why a step stops (none of these is the hardware's own fault, which is a next state: 60_exceptions R320) -/

/-- The machine stops because an address does not exist. -/
inductive Fault where
  /-- Raised by a host read or write of buffer memory at an address that is not below `MEM_LIMIT` (20_memory R61).
  Safe: the run ends. Log 9. -/
  | hostAddress
  /-- Raised by a compute command on a map with a buffer that does not lie inside `[0, MEM_LIMIT)` (20_memory R62, R63).
  No reachable state has such a map (R70). Safe: the run ends. Log 8. -/
  | bufferOutsideMemory
deriving DecidableEq, Repr

/-- The spec gives no meaning. -/
inductive Refusal where
  /-- Raised by `exec` for a command without a meaning yet. Safe: the run ends. -/
  | notModelled (mnemonic : String)
  /-- Raised by a register access with a register number above 511 or a context number `>= NCTX`, "outside the block ...
  (a model refuses it)" (10_state R46). Safe: the run ends. -/
  | outsideBlock
  /-- Raised by a compute command that has passed its checks on a map with two overlapping column buffers, "A model must
  refuse such a map" (20_memory R72). Safe: the run ends. Log 6. -/
  | overlappingColumns
  /-- Raised by a compute command that has passed its checks on a map one of whose buffers overlaps a buffer of another
  context's valid map, "When the duty is broken ... the model refuses" (20_memory R72, R75). Safe: the run ends. Log 7. -/
  | overlapsOtherMap
deriving DecidableEq, Repr

/-! ### The column map (10_state section 6) -/

/-- One entry of the column array (10_state R35), with the hidden set flag (R36). -/
structure Col where
  dev    : Word
  devoff : Word
  base   : Word
  size   : Word
  set    : Bool
deriving DecidableEq, Repr

/-- `MAP` of a context: header fields (10_state R34), bookkeeping fields (R37), cached backend (R38), columns (R35). -/
structure ColMap where
  cols          : BitVec 16
  parity        : BitVec 2
  psize         : Word
  backend       : BitVec 8
  ioffset       : Word
  skipstart     : Word
  bigcols       : Word
  asize         : Word
  missingdata   : BitVec 2
  missingparity : BitVec 2
  col           : Vector Col 258
deriving DecidableEq, Repr

/-! ### A context (10_state R20) -/

/-- A lane register: `WMAX = 64` bytes, byte `k` at index `k` (10_state R39). -/
abbrev Lane := Vector Byte 64

/-- One engine context. -/
structure Context where
  a0      : Word
  a1      : Word
  a2      : Word
  a3      : Word
  res     : Word
  fault   : Bool
  mapopen : Bool
  mapv    : Bool
  vguard  : Bool
  fcode   : Word
  finfo   : Word
  map     : ColMap
  v       : Vector Lane 16
deriving DecidableEq, Repr

/-- The 13 causes of the hardware's own fault (60_exceptions R301), in the order of their codes. -/
inductive Cause where
  | illegal | state | parityRange | colsRange | colidx | size | align | parityWidth | targets | backend | range
  | incomplete | addr
deriving DecidableEq, Repr

/-! ### The host's side -/

/-- One operation of the host or the platform (00_scope R9, 30_encoding R110, 20_memory R61, 70_reset R340). -/
inductive HostOp where
  /-- `RegWrite(ctx, num, value)` (10_state R31, R46). -/
  | regWrite (ctx num : Nat) (value : Word)
  /-- `RegRead(ctx, num)` (10_state R31, R46). -/
  | regRead (ctx num : Nat)
  /-- The host stores bytes to buffer memory (20_memory R61, R74). -/
  | memWrite (addr : Nat) (bytes : List Byte)
  /-- The host reads one byte of buffer memory (20_memory R61). -/
  | memRead (addr : Nat)
  /-- The global reset, with the probe inputs `FEAT` it samples (70_reset R340, R341; log 20). -/
  | reset (feat : BitVec 3)
deriving DecidableEq, Repr

/-- Buffer memory: (address, byte) pairs, addresses strictly rising. An address that is not listed has not been written
and holds the free value (20_memory R61; log 2). -/
abbrev Memory := List Host.Cell

/-- The whole machine: global state, contexts, buffer memory (10_state R20), and beside them the model's own fields. -/
structure State where
  /-- The model's own: the open parameters (00_scope R7; log 1). -/
  cfg      : Config
  /-- `AVAIL` (10_state R33). -/
  avail    : BitVec 3
  /-- `BSEL` (10_state R32). -/
  bsel     : BitVec 8
  /-- The contexts, number `x` at place `x` (60_exceptions R335). -/
  ctxs     : List Context
  /-- Buffer memory (20_memory R61). -/
  mem      : Memory
  /-- The model's own: the host operations still to be performed, the next one first (30_encoding R110; log 3). -/
  pending  : List HostOp
  /-- The model's own: the context the host addresses (10_state R44; log 4). -/
  cur      : Nat
  /-- The model's own: what the host's last read returned (10_state R46; log 5). -/
  readBack : Option Word
deriving DecidableEq, Repr

/-! ### Reset values (10_state R45) -/

def Col.reset : Col := { dev := 0, devoff := 0, base := 0, size := 0, set := false }

def ColMap.reset : ColMap :=
  { cols := 0, parity := 0, psize := 0, backend := 0, ioffset := 0, skipstart := 0, bigcols := 0, asize := 0,
    missingdata := 0, missingparity := 0, col := Vector.replicate 258 Col.reset }

/-- 64 zero bytes. -/
def Lane.zero : Lane := Vector.replicate 64 0

def Context.reset : Context :=
  { a0 := 0, a1 := 0, a2 := 0, a3 := 0, res := 0, fault := false, mapopen := false, mapv := false, vguard := false,
    fcode := 0, finfo := 0, map := ColMap.reset, v := Vector.replicate 16 Lane.zero }

/-- The state right after a reset with parameters `c`, probe inputs `feat` and buffer memory `m` (10_state R45,
70_reset R340, R341). -/
def State.resetOf (c : Config) (feat : BitVec 3) (m : Memory) : State :=
  { cfg := c, avail := availMask c.ci feat, bsel := BitVec.ofNat 8 (best (availMask c.ci feat)),
    ctxs := List.replicate c.nctx Context.reset, mem := m, pending := [], cur := 0, readBack := none }

/-- The machine right after reset, for the parameters of log 1, nothing written to buffer memory (log 2), no host operation
pending (log 3). -/
def State.reset : State := State.resetOf Config.vectors Config.vectorsFeat []

end Sys2Proof.Machine
end

