-- ==== Sys2Proof/Machine/Flags.lean ====
section
/-! DEFINITION. The flags of a context: the `STATUS` register and the three map states (10_state R25 to R30, 42_map R180).
There are no arithmetic condition codes (10_state R25). -/

namespace Sys2Proof.Machine

/-- `STATUS`: bit 0 `FAULT`, bit 1 `MAPOPEN`, bit 2 `MAPV`, bit 3 `VGUARD`, the rest 0 (10_state R25). -/
def Context.status (c : Context) : Word :=
  Word.ofNat (c.fault.toNat + 2 * c.mapopen.toNat + 4 * c.mapv.toNat + 8 * c.vguard.toNat)

/-- Map state `NONE` (42_map R180). -/
def Context.mapNone (c : Context) : Bool := !c.mapopen && !c.mapv

/-- Map state `OPEN` (42_map R180). -/
def Context.mapIsOpen (c : Context) : Bool := c.mapopen && !c.mapv

/-- Map state `VALID` (42_map R180). With both flags set, which no reachable state has (10_state R28), the map is in none
of the three states (log 16). -/
def Context.mapValid (c : Context) : Bool := !c.mapopen && c.mapv

end Sys2Proof.Machine
end

