-- ==== Sys2Proof/Machine/Ops.lean ====
section
/-! DEFINITION. The named operations over memory, contexts, maps and lanes; taking a fault; how every command is issued;
the premise every compute command makes on its buffers. -/

namespace Sys2Proof.Machine

/-- What a command or a step answers. -/
abbrev Result := Host.Outcome State Fault Refusal

/-! ### Buffer memory (20_memory R61 to R63) -/

/-- `Mem[a]`: what was last written there, else the free value (20_memory R61; log 2). -/
def Memory.read (m : Memory) (a : Nat) : Byte := (m.lookup a).getD (Config.powerOnByte a)

/-- The bytes at `a`, `a + 1`, .. , `n` of them, from cells whose addresses rise and are not below `a`. -/
def Memory.readFrom : Memory → Nat → Nat → List Byte
  | _, _, 0 => []
  | [], a, n + 1 => Config.powerOnByte a :: Memory.readFrom [] (a + 1) n
  | c :: m, a, n + 1 =>
    if c.1 = a then c.2 :: Memory.readFrom m (a + 1) n else Config.powerOnByte a :: Memory.readFrom (c :: m) (a + 1) n

/-- `MemRead(addr, n)`: element `k` is the byte at `addr + k` (20_memory R62), read in one pass over the canonical form. -/
def Memory.readBytes (m : Memory) (addr n : Nat) : List Byte :=
  Memory.readFrom (m.dropWhile fun c => c.1 < addr) addr n

/-- The cells of `bytes` laid out from `addr` on. -/
def cellsAt (addr : Nat) (bytes : List Byte) : Memory := (bytes.zipIdx addr).map fun p => (p.2, p.1)

/-- `MemWrite(addr, n, b)`: element `k` of `bytes` goes to `addr + k`, nothing else changes (20_memory R63). -/
def Memory.write (m : Memory) (addr : Nat) (bytes : List Byte) : Memory :=
  m.filter (fun c => c.1 < addr) ++ cellsAt addr bytes ++ m.filter (fun c => addr + bytes.length ≤ c.1)

/-- The canonical form: addresses strictly rising. An unlisted address has no written value, so no entry can equal what
an unlisted address holds (log 2). -/
def Memory.wf (m : Memory) : Bool := decide (m.Pairwise fun x y => x.1 < y.1)

/-- Every listed address is implemented (20_memory R61). -/
def Memory.below (m : Memory) (limit : Nat) : Bool := m.all fun c => c.1 < limit

/-! ### Contexts (60_exceptions R335) -/

/-- The context the host addresses. -/
def State.here (s : State) : Context := s.ctxs.getD s.cur Context.reset

/-- The state with the addressed context replaced. -/
def State.put (s : State) (c : Context) : State := { s with ctxs := s.ctxs.set s.cur c }

/-- `RES <- v` (10_state R23). -/
def State.setRes (s : State) (v : Word) : State := s.put { s.here with res := v }

/-- `zext_64` of a byte (00_scope R10). -/
def zext (b : Byte) : Word := b.setWidth 64

/-! ### Faults (60_exceptions) -/

/-- The cause code written to `FCODE` (60_exceptions R301). -/
def Cause.code : Cause → Nat
  | .illegal => 1
  | .state => 2
  | .parityRange => 3
  | .colsRange => 4
  | .colidx => 5
  | .size => 6
  | .align => 7
  | .parityWidth => 8
  | .targets => 9
  | .backend => 10
  | .range => 11
  | .incomplete => 12
  | .addr => 13

/-- Fault entry (60_exceptions R320): `FAULT`, `FCODE`, `FINFO` of the addressed context, nothing else. There is no saved
address, no vector and no mode; and there is no return from a fault (R323): only the global reset, `State.blockReset`, leaves the
faulted state. -/
def State.takeFault (s : State) (e : Cause) (info : Word) : State :=
  s.put { s.here with fault := true, fcode := Word.ofNat e.code, finfo := info }

/-- The global reset, with the probe inputs `feat` sampled once (70_reset R340, R341, 10_state R45): the only event that
clears `FAULT` (60_exceptions R323). Buffer memory is not touched (R343). -/
def State.blockReset (s : State) (feat : BitVec 3) : State :=
  { s with
    avail := availMask s.cfg.ci feat
    bsel := BitVec.ofNat 8 (best (availMask s.cfg.ci feat))
    ctxs := List.replicate s.cfg.nctx Context.reset }

/-- One check of a command: when it is `bad`, the command raises `cause` with the recorded value `info`. -/
structure Check where
  bad   : Bool
  cause : Cause
  info  : Word
deriving DecidableEq, Repr

/-- How every command runs (60_exceptions R310, R322): a faulted context ignores it; else the first check that fails raises
its fault; else the effect happens, whole. -/
def State.issue (s : State) (checks : List Check) (effect : Result) : Result :=
  if s.here.fault then .next s
  else match checks.find? Check.bad with
    | some k => .next (s.takeFault k.cause k.info)
    | none => effect

/-! ### The vector guard (10_state R30, 41_lane R165, 45_dispatch R291) -/

/-- The addressed context with `VGUARD` set to `b`. -/
def State.setGuard (s : State) (b : Bool) : State := s.put { s.here with vguard := b }

/-- The effect `f` on backend `bk`: for a wide backend between `VGUARD <- 1` and `VGUARD <- 0`, for `scalar` without the
guard (41_lane R165, 45_dispatch R291). -/
def State.guarded (s : State) (bk : Nat) (f : State → State) : State :=
  if bk = 0 then f s else (f (s.setGuard true)).setGuard false

/-! ### Lanes (41_lane R150, R151) -/

/-- `V[i]`, for a lane register number that has passed its check. -/
def Context.lane (c : Context) (i : Nat) : Lane := c.v[i]?.getD Lane.zero

/-- `V[i][k]` as byte `k` of a lane. -/
def laneByte (l : Lane) (k : Nat) : Byte := l[k]?.getD 0

/-- The lane whose bytes below `w` are `r` and whose bytes from `w` on are 0 (41_lane R151). -/
def laneOf (w : Nat) (r : Nat → Byte) : Lane := Vector.ofFn fun k : Fin 64 => if k.val < w then r k.val else 0

/-- The context with lane register `i` replaced. -/
def Context.setLane (c : Context) (i : Nat) (l : Lane) : Context := { c with v := c.v.setIfInBounds i l }

/-! ### Maps and their buffers (10_state R34, R35; 20_memory R70 to R72) -/

/-- `col[c]`. No rule reads an entry at or above `MAP.cols` (10_state R35). -/
def ColMap.entry (m : ColMap) (c : Nat) : Col := m.col[c]?.getD Col.reset

/-- `MAP.cols` as a number. -/
def ColMap.ncols (m : ColMap) : Nat := m.cols.toNat

/-- `p = MAP.parity` as a number. -/
def ColMap.p (m : ColMap) : Nat := m.parity.toNat

/-- `col[c].base` as an address. -/
def ColMap.base (m : ColMap) (c : Nat) : Nat := (m.entry c).base.toNat

/-- `col[c].size` as a number. -/
def ColMap.size (m : ColMap) (c : Nat) : Nat := (m.entry c).size.toNat

/-- The data column numbers `p .. cols - 1`, ascending (10_state R35). -/
def ColMap.dataCols (m : ColMap) : List Nat := List.range' m.p (m.ncols - m.p)

/-- The buffers of the columns of a map, as (base, size). -/
def ColMap.buffers (m : ColMap) : List (Nat × Nat) := (List.range m.ncols).map fun c => (m.base c, m.size c)

/-- The byte ranges `[p.1, p.1 + p.2)` and `[q.1, q.1 + q.2)` have no byte in common, one lying wholly below the other. -/
def apart (p q : Nat × Nat) : Bool := decide (p.1 + p.2 ≤ q.1) || decide (q.1 + q.2 ≤ p.1)

/-- The column buffers of a map are pairwise disjoint (20_memory R72). -/
def ColMap.disjointCols (m : ColMap) : Bool := decide (m.buffers.Pairwise fun p q => apart p q = true)

/-- No buffer of `m` meets a buffer of `n` (20_memory R72). -/
def ColMap.apartFrom (m n : ColMap) : Bool := m.buffers.all fun p => n.buffers.all fun q => apart p q

/-- Every buffer of a map lies inside `[0, MEM_LIMIT)` (20_memory R70). -/
def ColMap.inside (m : ColMap) (limit : Nat) : Bool := m.buffers.all fun p => decide (p.1 + p.2 ≤ limit)

/-- The maps of the other contexts that are in use: valid, in a context that is not stopped by a fault (20_memory R72;
log 7). -/
def State.mapsElsewhere (s : State) : List ColMap :=
  ((s.ctxs.eraseIdx s.cur).filter fun c => c.mapv && !c.fault).map (·.map)

/-- The premise of every compute command on its buffers (20_memory R62, R63, R70, R72), made after its checks and before
its effect (log 6, log 7, log 8). -/
def State.onBuffers (s : State) (effect : Result) : Result :=
  if !s.here.map.inside s.cfg.memLimit then .fault .bufferOutsideMemory
  else if !s.here.map.disjointCols then .refused .overlappingColumns
  else if !s.mapsElsewhere.all s.here.map.apartFrom then .refused .overlapsOtherMap
  else effect

end Sys2Proof.Machine
end

