-- ==== Sys2Proof/Machine/Operands.lean ====
section
/-! DEFINITION. The operand forms of the commands and their checks (30_encoding R94, 60_exceptions R301, R302). -/

namespace Sys2Proof.Machine

/-- The command is legal in the current map state; the recorded value is the command word (42_map R183; log 11). -/
def Check.mapState (legal : Bool) (i : Instr) : Check := { bad := !legal, cause := .state, info := encode i }

/-- A byte operand is at most 255 (30_encoding R94, 40_field R134). -/
def Check.byteOperand (a : Nat) : Check := { bad := decide (255 < a), cause := .range, info := Word.ofNat a }

/-- A lane register number is at most 15 (30_encoding R94, 41_lane R151). -/
def Check.laneNumber (v : Nat) : Check := { bad := decide (15 < v), cause := .range, info := Word.ofNat v }

/-- An exponent or table index is at most 510 (40_field R137, R138; 41_lane R151). -/
def Check.exponent (e : Nat) : Check := { bad := decide (510 < e), cause := .range, info := Word.ofNat e }

/-- A backend id names a registered backend (40_field R137, 41_lane R151). -/
def Check.backendId (avail : BitVec 3) (bk : Nat) : Check :=
  { bad := !registered avail bk, cause := .backend, info := Word.ofNat bk }

/-- A lane address is a multiple of the lane width (41_lane R151, 20_memory R66). -/
def Check.laneAlign (a0 : Word) (w : Nat) : Check := { bad := decide (a0.toNat % w ≠ 0), cause := .align, info := a0 }

/-- A lane lies inside buffer memory (41_lane R151, 20_memory R70). -/
def Check.laneRange (a0 : Word) (w limit : Nat) : Check :=
  { bad := decide (limit < a0.toNat + w), cause := .addr, info := a0 }

/-- A column index is below `MAP.cols` (42_map R185, R186; 44_reconstruction R262). -/
def Check.column (m : ColMap) (c : Nat) : Check :=
  { bad := decide (m.ncols ≤ c), cause := .colidx, info := Word.ofNat c }

/-- A target of an explicit reconstruction command is a data column (44_reconstruction R238). -/
def Check.dataTarget (m : ColMap) (t : Nat) : Check :=
  { bad := decide (t < m.p) || decide (m.ncols ≤ t), cause := .colidx, info := Word.ofNat t }

/-- The map has the parity columns the command needs (43_generation R215, 44_reconstruction R238). -/
def Check.parityWidth (m : ColMap) (needs : Nat) : Check :=
  { bad := decide (m.p < needs), cause := .parityWidth, info := Word.ofNat needs }

/-- The reconstruction targets are acceptable; the recorded value is the command word (44_reconstruction R238, R262). -/
def Check.targets (ok : Bool) (i : Instr) : Check := { bad := !ok, cause := .targets, info := encode i }

/-- A byte operand that has passed its check, as a byte. -/
def byteOf (a : Nat) : Byte := BitVec.ofNat 8 a

end Sys2Proof.Machine
end

