-- ==== Sys2Proof/Machine/DispatchCommands.lean ====
section
/-! DEFINITION. The backend selection commands (45_dispatch section 2). None of them faults; they write `BSEL` and `RES`
and never a map (R289). -/

namespace Sys2Proof.Machine

/-- `BK_SET`, the packed name in `A0`: `RES` 0 selected, 1 no such backend in this build, 2 unavailable
(45_dispatch R283). -/
def execBkSet (s : State) : Result :=
  s.issue [] (.next (
    match findByName s.cfg.ci s.here.a0 with
    | none => s.setRes 1
    | some b => if registered s.avail b then { s.setRes 0 with bsel := BitVec.ofNat 8 b } else s.setRes 2))

/-- `BK_AUTO` (45_dispatch R284). -/
def execBkAuto (s : State) : Result :=
  s.issue [] (.next { s.setRes (Word.ofNat (best s.avail)) with bsel := BitVec.ofNat 8 (best s.avail) })

/-- `BK_GET` (45_dispatch R285). -/
def execBkGet (s : State) : Result := s.issue [] (.next (s.setRes (s.bsel.setWidth 64)))

/-- `BK_ENUM i` (45_dispatch R282). -/
def execBkEnum (i : Nat) (s : State) : Result :=
  s.issue [] (.next (s.setRes (if registered s.avail i then pack (bkd i).name else 0)))

end Sys2Proof.Machine
end

