-- ==== Sys2Proof/Machine/Field.lean ====
section
/-! DEFINITION. The field GF(2^8): doubling, the read-only memories `pow2` and `log2`, and the field functions (40_field).
The rows of the two memories are the printed rows of R122 and R124, sixteen entries to a numeral, first entry leftmost. -/

namespace Sys2Proof.Machine

/-- `dbl(b)`, the field product of `b` and 2 (40_field R121). -/
def dbl (b : Byte) : Byte := (b <<< 1) ^^^ (if b.getLsbD 7 then 0x1d#8 else 0#8)

/-! ### The read-only memories (10_state R40) -/

/-- The byte at index `k` of a read-only memory printed in rows of sixteen. -/
def romByte (rows : List Nat) (k : Nat) : Byte :=
  BitVec.ofNat 8 ((rows.getD (k / 16) 0) >>> (8 * (15 - k % 16)))

/-- Entries 0 to 254 of `pow2` (40_field R122); the last place of the last row is no entry. -/
def pow2Rows : List Nat :=
  [ 0x01020408102040801d3a74e8cd871326,
    0x4c982d5ab475eac98f03060c183060c0,
    0x9d274e9c254a94356ad4b577eec19f23,
    0x468c050a142850a05dba69d2b96fdea1,
    0x5fbe61c2992f5ebc65ca890f1e3c78f0,
    0xfde7d3bb6bd6b17ffee1dfa35bb671e2,
    0xd9af4386112244880d1a3468d0bd67ce,
    0x811f3e7cf8edc7933b76ecc5973366cc,
    0x85172e5cb86ddaa94f9e214284152a54,
    0xa84d9a2952a455aa49923972e4d5b773,
    0xe6d1bf63c6913f7efce5d7b37bf6f1ff,
    0xe3dbab4b963162c495376edca557ae41,
    0x82193264c88d070e1c3870e0dda753a6,
    0x51a259b279f2f9efc39b2b56ac458a09,
    0x122448903d7af4f5f7f3fbebcb8b0b16,
    0x2c58b07dfae9cf831b366cd8ad478e00 ]

/-- `pow2[k]`, a memory of 511 entries, index 0 to 510: `pow2[k] = pow2[k - 255]` from 255 on (40_field R122, R123).
No rule indexes it above 510 (log 15). -/
def pow2 (k : Nat) : Byte := romByte pow2Rows (k % 255)

/-- The 256 entries of `log2`, entry 0 holding the filler 0 (40_field R124). -/
def log2Rows : List Nat :=
  [ 0x0000011902321ac603df33ee1b68c74b,
    0x0464e00e348def811cc169f8c8084c71,
    0x058a652fe1240f2135938edaf0128245,
    0x1db5c27d6a27f9b9c99a09784de472a6,
    0x06bf8b6266dd30fde29825b310912288,
    0x36d094ce8f96dbbdf1d2135c83384640,
    0x1e42b6a3c3487e6e6b3a2854fa85ba3d,
    0xca5e9b9f0a15792b4ed4e5ac73f3a757,
    0x0770c0f78c80630d674adeed31c5fe18,
    0xe3a5997726b8b47c114492d92320892e,
    0x373fd15b95bccfcd908797b2dcfcbe61,
    0xf256d3ab142a5d9e843c3953476d41a2,
    0x1f2d43d8b77ba476c41749ec7f0c6ff6,
    0x6ca13b52299d55aafb6086b1bbcc3e5a,
    0xcb595fb09ca9a0510bf516eb7a752cd7,
    0x4faed5e9e6e7ade874d6f4eaa85058af ]

/-- `log2[a]`, a memory of 256 entries (40_field R124). -/
def log2 (a : Byte) : Byte := romByte log2Rows a.toNat

/-- `lg(a)`, the log of a non-zero byte as a number in [0, 254] (44_reconstruction R240). -/
def lg (a : Byte) : Nat := (log2 a).toNat

/-- `m255(k) = k mod 255`, in [0, 254] also for a negative `k` (00_scope R11). -/
def m255 (k : Int) : Nat := (k % 255).toNat

/-! ### The field functions (40_field section 3) -/

/-- `gfmul(a, b)` (40_field R125). -/
def gfmul (a b : Byte) : Byte := if a = 0 ∨ b = 0 then 0 else pow2 (lg a + lg b)

/-- `exp2(a, e)`: 0 maps to 0 for every `e` (40_field R126). -/
def exp2 (a : Byte) (e : Nat) : Byte := if a = 0 then 0 else pow2 (e + lg a)

/-- `fold(e)`, for `e` in [0, 510] (40_field R127). -/
def fold (e : Nat) : Nat := if e ≤ 255 then e else e - 255

/-- `fix_mul_exp` of a multiply form, for `e` in [0, 510] (40_field R127). -/
def fixMulExp (form : Form) (e : Nat) : Byte :=
  match form with
  | .log => BitVec.ofNat 8 (fold e)
  | .antilog => pow2 e

/-- `mulc`: the multiply primitive applied to a normalised constant `f` and one byte `v` (40_field R128). -/
def mulc (form : Form) (f v : Byte) : Byte :=
  match form with
  | .log => exp2 v f.toNat
  | .antilog => gfmul v f

/-- A byte times `2^e` as a backend of the given form computes it: the log is normalised, then multiplied
(40_field R127, R128; R129 says that every form gives the field product). -/
def mlog (form : Form) (v : Byte) (e : Nat) : Byte := mulc form (fixMulExp form e) v

/-- `inv(a) = pow2[255 - log2[a]]`, for a non-zero `a` (40_field R132). -/
def inv (a : Byte) : Byte := pow2 (255 - lg a)

/-- `gfdiv(a, b)`, for a non-zero `b` (40_field R132). -/
def gfdiv (a b : Byte) : Byte := gfmul a (inv b)

/-- Polynomial multiplication reduced by `0x11d`, by doubling and adding from the top bit of `b` down: the product that
the tables are measured against (40_field R120, R125). -/
def polymul (a b : Byte) : Byte :=
  (List.range 8).foldl (fun acc k => dbl acc ^^^ (if b.getLsbD (7 - k) then a else 0)) 0

/-- The word-level doubling of eight bytes at once (41_lane R158, 93 G3). No command uses it: `LANE_MUL2` is `dbl` per
byte. -/
def dblWord (x : Word) : Word :=
  let mask := x &&& 0x8080808080808080#64
  let full := (mask <<< 1) - (mask >>> 7)
  ((x <<< 1) &&& 0xfefefefefefefefe#64) ^^^ (full &&& 0x1d1d1d1d1d1d1d1d#64)

end Sys2Proof.Machine
end

