-- ==== Sys2Proof/Machine/FieldCommands.lean ====
section
/-! DEFINITION. The scalar field commands (40_field section 5): each writes only `RES`, in every map state (R134). -/

namespace Sys2Proof.Machine

/-- `GF_MUL a, b` (40_field R135). -/
def execGfMul (a b : Nat) (s : State) : Result :=
  s.issue [Check.byteOperand a, Check.byteOperand b] (.next (s.setRes (zext (gfmul (byteOf a) (byteOf b)))))

/-- `GF_EXP2 a, e`: the index check is made only for a non-zero `a` (40_field R136). -/
def execGfExp2 (a e : Nat) (s : State) : Result :=
  s.issue
    [ Check.byteOperand a,
      { bad := decide (byteOf a ≠ 0) && decide (510 < e + lg (byteOf a)), cause := .range, info := Word.ofNat e } ]
    (.next (s.setRes (zext (exp2 (byteOf a) e))))

/-- `GF_FIXEXP.bk e` (40_field R137). -/
def execGfFixexp (bk e : Nat) (s : State) : Result :=
  s.issue [Check.backendId s.avail bk, Check.exponent e] (.next (s.setRes (zext (fixMulExp (bkd bk).form e))))

/-- `GF_POW2 k` (40_field R138). -/
def execGfPow2 (k : Nat) (s : State) : Result :=
  s.issue [Check.exponent k] (.next (s.setRes (zext (pow2 k))))

/-- `GF_LOG2 a` (40_field R139). -/
def execGfLog2 (a : Nat) (s : State) : Result :=
  s.issue [Check.byteOperand a] (.next (s.setRes (zext (log2 (byteOf a)))))

end Sys2Proof.Machine
end

