-- ==== Sys2Proof/Machine/Generation.lean ====
section
/-! DEFINITION. The parity generator (43_generation): one byte-wise function per parity column, the same for every backend
(45_dispatch R288), and the four commands. -/

namespace Sys2Proof.Machine

/-- The three parity columns: `P` is column 0, `Q` column 1, `R` column 2 (10_state R35). -/
inductive Par where
  | P | Q | R
deriving DecidableEq, Repr

/-- The column number of a parity column (10_state R35). -/
def Par.index : Par → Nat
  | .P => 0
  | .Q => 1
  | .R => 2

/-- One step of the recurrence (43_generation R213): the accumulator times 1, 2 or 4, plus the next data byte. -/
def Par.step (k : Par) (acc d : Byte) : Byte :=
  match k with
  | .P => acc ^^^ d
  | .Q => dbl acc ^^^ d
  | .R => dbl (dbl acc) ^^^ d

/-- The recurrence over whole columns, all offsets at once: byte `o` of the result depends on byte `o` of each column only
(43_generation R213, R214). It starts from the first data column and takes a step for each later one. -/
def Par.over (k : Par) : List (List Byte) → List Byte
  | [] => []
  | d :: ds => ds.foldl (List.zipWith k.step) d

/-- The padded bytes `D(c, 0) .. D(c, n - 1)` of a data column: what lies beyond a short column's size is 0, and memory is
not read there (43_generation R211). -/
def ColMap.column (m : ColMap) (mem : Memory) (n c : Nat) : List Byte :=
  mem.readBytes (m.base c) (min (m.size c) n) ++ List.replicate (n - min (m.size c) n) 0

/-- `Pgen`, `Qgen` or `Rgen` at the offsets below `n` (43_generation R212, R213). -/
def ColMap.genColumn (m : ColMap) (mem : Memory) (k : Par) (n : Nat) : List Byte :=
  k.over (m.dataCols.map (m.column mem n))

/-- The first `k` parity columns of the addressed context's map, computed from memory as it was before the command
(43_generation R215, R216; log 10). -/
def State.generate (s : State) (k : Nat) : State :=
  { s with
    mem := ([Par.P, Par.Q, Par.R].take k).foldl
      (fun out j => out.write (s.here.map.base j.index) (s.here.map.genColumn s.mem j s.here.map.psize.toNat)) s.mem }

/-- Dispatch through the map's cached backend, inside its vector guard (43_generation R215, 45_dispatch R287, R291). -/
def State.generateCommand (s : State) (checks : List Check) (k : Nat) : Result :=
  s.issue checks (s.onBuffers (.next (s.guarded s.here.map.backend.toNat fun t => t.generate k)))

/-- `GEN`: as many parity columns as the map has (43_generation R217). -/
def execGen (s : State) : Result :=
  s.generateCommand [Check.mapState s.here.mapValid .gen] s.here.map.p

/-- `GEN_P` (43_generation R218). -/
def execGenP (s : State) : Result :=
  s.generateCommand [Check.mapState s.here.mapValid .genP, Check.parityWidth s.here.map 1] 1

/-- `GEN_PQ` (43_generation R219). -/
def execGenPQ (s : State) : Result :=
  s.generateCommand [Check.mapState s.here.mapValid .genPQ, Check.parityWidth s.here.map 2] 2

/-- `GEN_PQR` (43_generation R220). -/
def execGenPQR (s : State) : Result :=
  s.generateCommand [Check.mapState s.here.mapValid .genPQR, Check.parityWidth s.here.map 3] 3

end Sys2Proof.Machine
end

