-- ==== Sys2Proof/Machine/LaneCommands.lean ====
section
/-! DEFINITION. The lane commands (41_lane section 2), on the template of R151 inside the vector guard of R165. -/

namespace Sys2Proof.Machine

/-- The template of the lane commands: the backend is checked first; the effect runs inside the guard of the backend
(41_lane R151, R165). -/
def State.laneCommand (s : State) (bk : Nat) (checks : List Check) (f : State → State) : Result :=
  s.issue (Check.backendId s.avail bk :: checks) (.next (s.guarded bk f))

/-- `V[vd]` receives the bytes `r` below the lane width and 0 above it (41_lane R151). -/
def State.putLane (s : State) (vd w : Nat) (r : Nat → Byte) : State := s.put (s.here.setLane vd (laneOf w r))

/-- `V[i][k]` of the addressed context. -/
def State.vbyte (s : State) (i k : Nat) : Byte := laneByte (s.here.lane i) k

/-- The checks of a lane load or store on its register and its address in `A0` (41_lane R151). -/
def State.laneAddressChecks (s : State) (bk v : Nat) : List Check :=
  [ Check.laneNumber v, Check.laneAlign s.here.a0 (bkd bk).width,
    Check.laneRange s.here.a0 (bkd bk).width s.cfg.memLimit ]

/-- `LANE_WIDTH.bk` (41_lane R152). -/
def execLaneWidth (bk : Nat) (s : State) : Result :=
  s.laneCommand bk [] fun t => t.setRes (Word.ofNat (bkd bk).width)

/-- `LANE_LOAD.bk vd`: lane byte `k` is the byte at `A0 + k` (41_lane R153, 20_memory R64). -/
def execLaneLoad (bk vd : Nat) (s : State) : Result :=
  s.laneCommand bk (s.laneAddressChecks bk vd) fun t =>
    t.putLane vd (bkd bk).width fun k => t.mem.read (t.here.a0.toNat + k)

/-- `LANE_STORE.bk vs`: exactly `W` bytes (41_lane R154). -/
def execLaneStore (bk vs : Nat) (s : State) : Result :=
  s.laneCommand bk (s.laneAddressChecks bk vs) fun t =>
    { t with mem := t.mem.write t.here.a0.toNat ((List.range (bkd bk).width).map (t.vbyte vs)) }

/-- `LANE_XOR.bk vd, vs1, vs2` (41_lane R155). -/
def execLaneXor (bk vd vs1 vs2 : Nat) (s : State) : Result :=
  s.laneCommand bk [Check.laneNumber vd, Check.laneNumber vs1, Check.laneNumber vs2] fun t =>
    t.putLane vd (bkd bk).width fun k => t.vbyte vs1 k ^^^ t.vbyte vs2 k

/-- `LANE_MUL2.bk vd, vs` (41_lane R156). -/
def execLaneMul2 (bk vd vs : Nat) (s : State) : Result :=
  s.laneCommand bk [Check.laneNumber vd, Check.laneNumber vs] fun t =>
    t.putLane vd (bkd bk).width fun k => dbl (t.vbyte vs k)

/-- `LANE_MUL4.bk vd, vs` (41_lane R157). -/
def execLaneMul4 (bk vd vs : Nat) (s : State) : Result :=
  s.laneCommand bk [Check.laneNumber vd, Check.laneNumber vs] fun t =>
    t.putLane vd (bkd bk).width fun k => dbl (dbl (t.vbyte vs k))

/-- `LANE_MULC.bk vd, vs, e`: the operand is the log of the multiplier, in the form the backend wants
(41_lane R159, 40_field R127, R128). -/
def execLaneMulc (bk vd vs e : Nat) (s : State) : Result :=
  s.laneCommand bk [Check.laneNumber vd, Check.laneNumber vs, Check.exponent e] fun t =>
    t.putLane vd (bkd bk).width fun k => mlog (bkd bk).form (t.vbyte vs k) e

end Sys2Proof.Machine
end

