-- ==== Sys2Proof/Machine/MapCommands.lean ====
section
/-! DEFINITION. `NOP` and the column map commands (42_map). -/

namespace Sys2Proof.Machine

/-- `NOP` (42_map R181). -/
def execNop (s : State) : Result := s.issue [] (.next s)

/-- `MAP_OPEN cols, parity`: a fresh map with the backend selected now; every column and every other field is 0
(42_map R182). -/
def execMapOpen (cols parity : Nat) (s : State) : Result :=
  s.issue
    [ Check.mapState s.here.mapNone (.mapOpen cols parity),
      { bad := decide (parity < 1) || decide (3 < parity), cause := .parityRange, info := Word.ofNat parity },
      { bad := decide (cols ≤ parity) || decide (ndataMax < cols - parity), cause := .colsRange,
        info := Word.ofNat cols } ]
    (.next (s.put { s.here with
      mapopen := true
      map := { ColMap.reset with
        cols := BitVec.ofNat 16 cols, parity := BitVec.ofNat 2 parity, backend := s.bsel,
        ioffset := s.here.a0, skipstart := s.here.a1, bigcols := s.here.a2, asize := s.here.a3 } }))

/-- `COL_SET c` (42_map R185). -/
def execColSet (c : Nat) (s : State) : Result :=
  s.issue [Check.mapState s.here.mapIsOpen (.colSet c), Check.column s.here.map c]
    (.next (s.put { s.here with
      map := { s.here.map with
        col := s.here.map.col.setIfInBounds c
          { dev := s.here.a2, devoff := s.here.a3, base := s.here.a0, size := s.here.a1, set := true } } }))

/-- `COL_GET c` (42_map R186). -/
def execColGet (c : Nat) (s : State) : Result :=
  s.issue [Check.mapState (s.here.mapIsOpen || s.here.mapValid) (.colGet c), Check.column s.here.map c]
    (.next (s.put { s.here with
      a0 := (s.here.map.entry c).base, a1 := (s.here.map.entry c).size,
      a2 := (s.here.map.entry c).dev, a3 := (s.here.map.entry c).devoff }))

/-- The four tests of `MAP_COMMIT` on one column, in order (42_map R187 (3)). -/
def commitColumnChecks (cfg : Config) (m : ColMap) (c : Nat) : List Check :=
  [ { bad := decide (m.size c = 0), cause := .size, info := Word.ofNat c },
    { bad := decide (m.size c % cfg.sector ≠ 0), cause := .align, info := Word.ofNat c },
    { bad := decide (m.base c % wmax ≠ 0), cause := .align, info := Word.ofNat c },
    { bad := decide (cfg.memLimit < m.base c + m.size c), cause := .addr, info := Word.ofNat c } ]

/-- The test that column `c` has the size of the first data column (42_map R187 (4), (6)). -/
def commitSizeCheck (m : ColMap) (c : Nat) : Check :=
  { bad := decide (m.size c ≠ m.size m.p), cause := .size, info := Word.ofNat c }

/-- The checks (2) to (6) of `MAP_COMMIT`, in order (42_map R187). `size[last] != S - SECTOR` is written
`size[last] + SECTOR != S`, which is the same in the integers. -/
def commitChecks (cfg : Config) (m : ColMap) : List Check :=
  (List.range m.ncols).map (fun c => { bad := !(m.entry c).set, cause := .incomplete, info := Word.ofNat c })
    ++ (List.range m.ncols).flatMap (commitColumnChecks cfg m)
    ++ (List.range' (m.p + 1) (m.ncols - 1 - (m.p + 1))).map (commitSizeCheck m)
    ++ [ { bad := decide (m.p < m.ncols - 1) && decide (m.size (m.ncols - 1) ≠ m.size m.p)
             && decide (m.size (m.ncols - 1) + cfg.sector ≠ m.size m.p),
           cause := .size, info := Word.ofNat (m.ncols - 1) } ]
    ++ (List.range m.p).map (commitSizeCheck m)

/-- `MAP_COMMIT` (42_map R187). -/
def execMapCommit (s : State) : Result :=
  s.issue (Check.mapState s.here.mapIsOpen .mapCommit :: commitChecks s.cfg s.here.map)
    (.next (s.put { s.here with
      mapopen := false, mapv := true
      map := { s.here.map with psize := (s.here.map.entry s.here.map.p).size } }))

/-- `MAP_CLOSE`: every field of the map and of every column becomes 0 (42_map R188). -/
def execMapClose (s : State) : Result :=
  s.issue [Check.mapState (s.here.mapIsOpen || s.here.mapValid) .mapClose]
    (.next (s.put { s.here with mapopen := false, mapv := false, map := ColMap.reset }))

end Sys2Proof.Machine
end

