-- ==== Sys2Proof/Machine/Reconstruction.lean ====
section
/-! DEFINITION. The reconstruction solver (44_reconstruction): the seven cases, their closed forms, the seven explicit
commands and the selecting command. -/

namespace Sys2Proof.Machine

/-! ### The seven cases (44_reconstruction R230, R231) -/

/-- A case with its targets: the constructor names the syndromes it uses. -/
inductive RecCase where
  | p (x : Nat)
  | q (x : Nat)
  | r (x : Nat)
  | pq (x y : Nat)
  | pr (x y : Nat)
  | qr (x y : Nat)
  | pqr (x y z : Nat)
deriving DecidableEq, Repr

/-- The targets, target slot 0 first (44_reconstruction R231). -/
def RecCase.targets : RecCase → List Nat
  | .p x => [x]
  | .q x => [x]
  | .r x => [x]
  | .pq x y => [x, y]
  | .pr x y => [x, y]
  | .qr x y => [x, y]
  | .pqr x y z => [x, y, z]

/-- `x`, the first and largest target (42_map R191, 44_reconstruction R231). -/
def RecCase.first : RecCase → Nat
  | .p x => x
  | .q x => x
  | .r x => x
  | .pq x _ => x
  | .pr x _ => x
  | .qr x _ => x
  | .pqr x _ _ => x

/-! ### Coefficients (43_generation R210, 44_reconstruction R240 to R254) -/

/-- `E(c) = cols - 1 - c`, the distance of a column from the last (43_generation R210). -/
def ColMap.dist (m : ColMap) (c : Nat) : Nat := m.ncols - 1 - c

/-- The solve of cases 4 and 5, with `S` the second syndrome and `u(t) = 2^(k E(t))` (44_reconstruction R246). -/
def solveWithP (form : Form) (k : Int) (ex ey : Nat) (P S : Byte) : List Byte :=
  let la := m255 (k * ((ey : Int) - ex))
  let lb := m255 (-k * (ex : Int))
  let t := m255 (-(lg (pow2 la ^^^ 1) : Int))
  let cXP := m255 ((la : Int) + t)
  let cXS := m255 ((lb : Int) + t)
  let dx := mlog form P cXP ^^^ mlog form S cXS
  [dx, P ^^^ dx]

/-- The solve of case 6 (44_reconstruction R250, R251). -/
def solveQR (form : Form) (ex ey : Nat) (Q R : Byte) : List Byte :=
  let ld : Int := lg (pow2 ex ^^^ pow2 ey)
  let cXQ := m255 ((ey : Int) - ex - ld)
  let cXR := m255 (-(ex : Int) - ld)
  let cYQ := m255 ((ex : Int) - ey - ld)
  let cYR := m255 (-(ey : Int) - ld)
  [mlog form Q cXQ ^^^ mlog form R cXR, mlog form Q cYQ ^^^ mlog form R cYR]

/-- The solve of case 7 with the pivots `x_d`, `y_d` (44_reconstruction R254, R255). -/
def solvePQR (form : Form) (ex ey ez : Nat) (P Q R : Byte) : List Byte :=
  let ax := pow2 ex
  let ay := pow2 ey
  let az := pow2 ez
  let lxd : Int := m255 ((lg (ax ^^^ ay) : Int) + lg (ax ^^^ az))
  let lyd : Int := m255 ((lg (ay ^^^ ax) : Int) + lg (ay ^^^ az))
  let cXP := m255 ((ey : Int) + ez - lxd)
  let cXQ := m255 ((lg (ay ^^^ az) : Int) - lxd)
  let cXR := m255 (-lxd)
  let cYP := m255 ((ex : Int) + ez - lyd)
  let cYQ := m255 ((lg (ax ^^^ az) : Int) - lyd)
  let cYR := m255 (-lyd)
  let dx := mlog form P cXP ^^^ mlog form Q cXQ ^^^ mlog form R cXR
  let dy := mlog form P cYP ^^^ mlog form Q cYQ ^^^ mlog form R cYR
  [dx, dy, P ^^^ dx ^^^ dy]

/-- The target bytes of a case, target slot 0 first, from the syndrome bytes of one offset (44_reconstruction R234, R235,
R243 to R255). -/
def RecCase.solve (k : RecCase) (form : Form) (m : ColMap) (P Q R : Byte) : List Byte :=
  match k with
  | .p _ => [P]
  | .q x => [mlog form Q (m255 (-(m.dist x : Int)))]
  | .r x => [mlog form R (m255 (-2 * (m.dist x : Int)))]
  | .pq x y => solveWithP form 1 (m.dist x) (m.dist y) P Q
  | .pr x y => solveWithP form 2 (m.dist x) (m.dist y) P R
  | .qr x y => solveQR form (m.dist x) (m.dist y) Q R
  | .pqr x y z => solvePQR form (m.dist x) (m.dist y) (m.dist z) P Q R

/-! ### Syndromes, solve, apply (44_reconstruction R232, R235, R236) -/

/-- `Psyn`, `Qsyn` or `Rsyn` at the offsets below `n`: the stored parity bytes plus the recurrence over the data columns
with the targets taken as 0; the doubling steps of the targets are still made (44_reconstruction R232). -/
def ColMap.synColumn (m : ColMap) (mem : Memory) (k : Par) (targets : List Nat) (n : Nat) : List Byte :=
  List.zipWith (· ^^^ ·) (mem.readBytes (m.base k.index) n)
    (k.over (m.dataCols.map fun c => if c ∈ targets then List.replicate n 0 else m.column mem n c))

/-- The scratch buffers, sized to the largest target: for each offset the bytes of all targets (44_reconstruction R236). -/
def RecCase.scratch (k : RecCase) (form : Form) (m : ColMap) (mem : Memory) : List (List Byte) :=
  let n := m.size k.first
  List.zipWith (fun P (QR : Byte × Byte) => k.solve form m P QR.1 QR.2) (m.synColumn mem .P k.targets n)
    (List.zip (m.synColumn mem .Q k.targets n) (m.synColumn mem .R k.targets n))

/-- Copy-out: target slot `i` is truncated to its column's size and written (44_reconstruction R236, R237; log 10). -/
def RecCase.recover (k : RecCase) (form : Form) (m : ColMap) (mem : Memory) : Memory :=
  k.targets.zipIdx.foldl
    (fun out t => out.write (m.base t.1) (((k.scratch form m mem).map fun row => row.getD t.2 0).take (m.size t.1))) mem

/-- The effect of a case with `np` damaged parity columns: the target columns, `RES <- 2^nd - 1` and the missing counts
(44_reconstruction R238, R270, R271), with the multiply form of the map's backend (45_dispatch R287). -/
def State.reconstruct (s : State) (k : RecCase) (np : Nat) : State :=
  { s.put { s.here with
      res := Word.ofNat (2 ^ k.targets.length - 1)
      map := { s.here.map with
        missingdata := BitVec.ofNat 2 k.targets.length, missingparity := BitVec.ofNat 2 np } } with
    mem := k.recover (bkd s.here.map.backend.toNat).form s.here.map s.mem }

/-- Dispatch of a case through the map's cached backend, inside its vector guard (44_reconstruction R238, R262;
45_dispatch R287, R291). -/
def State.reconstructCommand (s : State) (checks : List Check) (k : RecCase) (np : Nat) : Result :=
  s.issue checks (s.onBuffers (.next (s.guarded s.here.map.backend.toNat fun t => t.reconstruct k np)))

/-! ### The explicit commands (44_reconstruction R238) -/

/-- The checks of an explicit command: map state, parity count, each target in order, strictly increasing
(44_reconstruction R238). -/
def State.explicitChecks (s : State) (i : Instr) (needs : Nat) (targets : List Nat) : List Check :=
  [Check.mapState s.here.mapValid i, Check.parityWidth s.here.map needs]
    ++ targets.map (Check.dataTarget s.here.map) ++ [Check.targets (decide (targets.Pairwise (· < ·))) i]

/-- `REC_P x` (44_reconstruction R243). -/
def execRecP (x : Nat) (s : State) : Result :=
  s.reconstructCommand (s.explicitChecks (.recP x) 1 [x]) (.p x) 0

/-- `REC_Q x` (44_reconstruction R244). -/
def execRecQ (x : Nat) (s : State) : Result :=
  s.reconstructCommand (s.explicitChecks (.recQ x) 2 [x]) (.q x) 0

/-- `REC_R x` (44_reconstruction R245). -/
def execRecR (x : Nat) (s : State) : Result :=
  s.reconstructCommand (s.explicitChecks (.recR x) 3 [x]) (.r x) 0

/-- `REC_PQ x, y` (44_reconstruction R248). -/
def execRecPQ (x y : Nat) (s : State) : Result :=
  s.reconstructCommand (s.explicitChecks (.recPQ x y) 2 [x, y]) (.pq x y) 0

/-- `REC_PR x, y` (44_reconstruction R249). -/
def execRecPR (x y : Nat) (s : State) : Result :=
  s.reconstructCommand (s.explicitChecks (.recPR x y) 3 [x, y]) (.pr x y) 0

/-- `REC_QR x, y` (44_reconstruction R251). -/
def execRecQR (x y : Nat) (s : State) : Result :=
  s.reconstructCommand (s.explicitChecks (.recQR x y) 3 [x, y]) (.qr x y) 0

/-- `REC_PQR x, y, z` (44_reconstruction R255). -/
def execRecPQR (x y z : Nat) (s : State) : Result :=
  s.reconstructCommand (s.explicitChecks (.recPQR x y z) 3 [x, y, z]) (.pqr x y z) 0

/-! ### The selecting command (44_reconstruction R260 to R262) -/

/-- The list of damaged columns (44_reconstruction R260). -/
def damagedList (nt t0 t1 t2 : Nat) : List Nat := [t0, t1, t2].take nt

/-- The damaged parity columns of a list (44_reconstruction R260). -/
def ColMap.damagedParity (m : ColMap) (ts : List Nat) : List Nat := ts.filter fun t => decide (t < m.p)

/-- The data targets of a list, in list order (44_reconstruction R260). -/
def ColMap.damagedData (m : ColMap) (ts : List Nat) : List Nat := ts.filter fun t => decide (m.p ≤ t)

/-- The parity columns `REC` uses: the `nd` lowest-numbered valid ones (44_reconstruction R261). -/
def ColMap.usedParity (m : ColMap) (ts : List Nat) : List Nat :=
  ((List.range m.p).filter fun j => decide (j ∉ ts)).take (m.damagedData ts).length

/-- The case that uses exactly the parity columns `used` on the data targets (44_reconstruction R230, R261). -/
def selectCase (used targets : List Nat) : RecCase :=
  match targets with
  | [x] => if used = [0] then .p x else if used = [1] then .q x else .r x
  | [x, y] => if used = [0, 1] then .pq x y else if used = [0, 2] then .pr x y else .qr x y
  | ts => .pqr (ts.getD 0 0) (ts.getD 1 0) (ts.getD 2 0)

/-- The checks of `REC`, in order (44_reconstruction R262). -/
def State.recListChecks (s : State) (nt t0 t1 t2 : Nat) : List Check :=
  let i := Instr.recList nt t0 t1 t2
  let m := s.here.map
  let ts := damagedList nt t0 t1 t2
  [ Check.mapState s.here.mapValid i,
    Check.targets (decide (1 ≤ nt) && decide (nt ≤ 3)) i,
    Check.targets ((decide (1 < nt) || decide (t1 = 0)) && (decide (2 < nt) || decide (t2 = 0))) i ]
    ++ ts.map (Check.column m)
    ++ [ Check.targets ((decide (nt < 2) || decide (t0 < t1)) && (decide (nt < 3) || decide (t1 < t2))) i,
         Check.targets (decide ((m.damagedData ts).length ≠ 0)) i,
         { bad := decide (m.p < (m.damagedParity ts).length + (m.damagedData ts).length), cause := .parityWidth,
           info := Word.ofNat (m.damagedData ts).length } ]

/-- `REC t0[, t1[, t2]]` (44_reconstruction R262). -/
def execRecList (nt t0 t1 t2 : Nat) (s : State) : Result :=
  s.reconstructCommand (s.recListChecks nt t0 t1 t2)
    (selectCase (s.here.map.usedParity (damagedList nt t0 t1 t2)) (s.here.map.damagedData (damagedList nt t0 t1 t2)))
    (s.here.map.damagedParity (damagedList nt t0 t1 t2)).length

end Sys2Proof.Machine
end

