-- ==== Sys2Proof/Machine/Dispatch.lean ====
section
/-! DEFINITION. The meaning of a command in the addressed context: one arm per command of the opcode map (30_encoding R95). -/

namespace Sys2Proof.Machine

def exec (i : Instr) (s : State) : Host.Outcome State Fault Refusal :=
  match i with
  | .nop => Sys2Proof.Machine.execNop s
  | .mapOpen cols parity => Sys2Proof.Machine.execMapOpen cols parity s
  | .colSet c => Sys2Proof.Machine.execColSet c s
  | .colGet c => Sys2Proof.Machine.execColGet c s
  | .mapCommit => Sys2Proof.Machine.execMapCommit s
  | .mapClose => Sys2Proof.Machine.execMapClose s
  | .bkSet => Sys2Proof.Machine.execBkSet s
  | .bkAuto => Sys2Proof.Machine.execBkAuto s
  | .bkGet => Sys2Proof.Machine.execBkGet s
  | .bkEnum k => Sys2Proof.Machine.execBkEnum k s
  | .gfMul a b => Sys2Proof.Machine.execGfMul a b s
  | .gfExp2 a e => Sys2Proof.Machine.execGfExp2 a e s
  | .gfFixexp bk e => Sys2Proof.Machine.execGfFixexp bk e s
  | .gfPow2 k => Sys2Proof.Machine.execGfPow2 k s
  | .gfLog2 a => Sys2Proof.Machine.execGfLog2 a s
  | .laneWidth bk => Sys2Proof.Machine.execLaneWidth bk s
  | .laneLoad bk vd => Sys2Proof.Machine.execLaneLoad bk vd s
  | .laneStore bk vs => Sys2Proof.Machine.execLaneStore bk vs s
  | .laneXor bk vd vs1 vs2 => Sys2Proof.Machine.execLaneXor bk vd vs1 vs2 s
  | .laneMul2 bk vd vs => Sys2Proof.Machine.execLaneMul2 bk vd vs s
  | .laneMul4 bk vd vs => Sys2Proof.Machine.execLaneMul4 bk vd vs s
  | .laneMulc bk vd vs e => Sys2Proof.Machine.execLaneMulc bk vd vs e s
  | .gen => Sys2Proof.Machine.execGen s
  | .genP => Sys2Proof.Machine.execGenP s
  | .genPQ => Sys2Proof.Machine.execGenPQ s
  | .genPQR => Sys2Proof.Machine.execGenPQR s
  | .recList nt t0 t1 t2 => Sys2Proof.Machine.execRecList nt t0 t1 t2 s
  | .recP x => Sys2Proof.Machine.execRecP x s
  | .recQ x => Sys2Proof.Machine.execRecQ x s
  | .recR x => Sys2Proof.Machine.execRecR x s
  | .recPQ x y => Sys2Proof.Machine.execRecPQ x y s
  | .recPR x y => Sys2Proof.Machine.execRecPR x y s
  | .recQR x y => Sys2Proof.Machine.execRecQR x y s
  | .recPQR x y z => Sys2Proof.Machine.execRecPQR x y z s

end Sys2Proof.Machine
end

