-- ==== Sys2Proof/Machine/Port.lean ====
section
/-! DEFINITION. The register port and the other operations of the host (10_state R31, R46, R47; 60_exceptions R310, R322;
20_memory R61; 70_reset R340). -/

namespace Sys2Proof.Machine

/-! ### The register port -/

/-- The value of register `num` in the bank of a context; `CMD` and the numbers not in the table read 0
(10_state R31, R46). -/
def State.register (s : State) (c : Context) (num : Nat) : Word :=
  match num with
  | 1 => c.status
  | 2 => c.res
  | 3 => c.fcode
  | 4 => c.finfo
  | 5 => c.a0
  | 6 => c.a1
  | 7 => c.a2
  | 8 => c.a3
  | 9 => s.bsel.setWidth 64
  | 10 => s.avail.setWidth 64
  | 11 => c.map.cols.setWidth 64
  | 12 => c.map.parity.setWidth 64
  | 13 => c.map.backend.setWidth 64
  | 14 => c.map.psize
  | 15 => c.map.missingdata.setWidth 64
  | 16 => c.map.missingparity.setWidth 64
  | 17 => c.map.ioffset
  | 18 => c.map.skipstart
  | 19 => c.map.bigcols
  | 20 => c.map.asize
  | _ => 0

/-- The register number and the context number are inside the block (10_state R46). -/
def State.onPort (s : State) (x num : Nat) : Bool := decide (x < s.cfg.nctx) && decide (num < regCount)

/-- `RegRead(x, num)`, of a faulted context as of any other (10_state R46, R47). -/
def State.regRead (s : State) (x num : Nat) : Word := s.register (s.ctxs.getD x Context.reset) num

/-- A write of the command word `w` to `CMD` of the addressed context (60_exceptions R310): an illegal word raises
`E_ILLEGAL(w)` (30_encoding R98), a faulted context ignores it (R322). -/
def State.commandWrite (s : State) (w : Word) : Result :=
  match decode w with
  | some i => exec i s
  | none => s.issue [{ bad := true, cause := .illegal, info := w }] (.next s)

/-- A write to a register other than `CMD`: only `A0..A3` of a context that is not faulted take it
(10_state R46, R47, 60_exceptions R322). -/
def State.operandWrite (s : State) (num : Nat) (v : Word) : State :=
  if s.here.fault then s
  else match num with
    | 5 => s.put { s.here with a0 := v }
    | 6 => s.put { s.here with a1 := v }
    | 7 => s.put { s.here with a2 := v }
    | 8 => s.put { s.here with a3 := v }
    | _ => s

/-- `RegWrite(x, num, v)` (10_state R46): the host addresses context `x`; outside the block it is refused. -/
def State.regWrite (s : State) (x num : Nat) (v : Word) : Result :=
  if s.onPort x num then
    if num = 0 then { s with cur := x }.commandWrite v else .next ({ s with cur := x }.operandWrite num v)
  else .refused .outsideBlock

/-- The byte offset of a register in a memory-mapped port, from the block's base address (10_state R31; log 19). -/
def portOffset (x num : Nat) : Nat := x * 0x1000 + num * 8

/-- The context and register at a byte offset; only whole aligned 64-bit words are accessed (10_state R31, 20_memory R65). -/
def portAt (offset : Nat) : Option (Nat × Nat) :=
  if offset % 8 = 0 then some (offset / 0x1000, offset % 0x1000 / 8) else none

/-- The host operation that storing `bytes` at a byte offset of a memory-mapped port is: a write of one whole register, its
bits `[8k+7:8k]` from the byte at offset `k` of its slot (10_state R31, 20_memory R65). There is no mixed-width access
(R65), so any other store is no operation of the host (log 22). -/
def mappedWrite (offset : Nat) (bytes : List Byte) : Option HostOp :=
  if bytes.length = 8 then (portAt offset).map fun p => .regWrite p.1 p.2 (regOfBytes bytes) else none

/-- The host operation that loading `n` bytes from a byte offset of a memory-mapped port is: a read of one whole register
(10_state R31, 20_memory R65; log 22). -/
def mappedRead (offset n : Nat) : Option HostOp :=
  if n = 8 then (portAt offset).map fun p => .regRead p.1 p.2 else none

/-- The bytes that a load of a whole register of a memory-mapped port returns, lowest offset first: what the host's last read
returned, in the byte order of the slot (20_memory R65). -/
def State.mappedBytes (s : State) : Option (List Byte) := s.readBack.map regBytes

/-! ### One operation of the host -/

/-- What one operation of the host does to the machine. -/
def State.perform (s : State) (op : HostOp) : Result :=
  match op with
  | .regWrite x num v => s.regWrite x num v
  | .regRead x num =>
    if s.onPort x num then .next { s with readBack := some (s.regRead x num) } else .refused .outsideBlock
  | .memWrite addr bytes =>
    if addr + bytes.length ≤ s.cfg.memLimit then .next { s with mem := s.mem.write addr bytes } else .fault .hostAddress
  | .memRead addr =>
    if addr < s.cfg.memLimit then .next { s with readBack := some (zext (s.mem.read addr)) } else .fault .hostAddress
  | .reset feat => .next (s.blockReset feat)

/-- The host performs its operations in order, each completing before the next begins (30_encoding R110, 20_memory R74).
With none left nothing happens: an idle engine executes nothing (60_exceptions R339; log 3). -/
def State.hostStep (s : State) : Result :=
  match s.pending with
  | [] => .next s
  | op :: rest => { s with pending := rest }.perform op

end Sys2Proof.Machine
end

