-- ==== Sys2Proof/Machine/Step.lean ====
section
/-! DEFINITION. One step of the machine, and how a command is placed so that the next step runs it. -/

namespace Sys2Proof.Machine

/-- One step: the next operation of the host, performed whole (10_state R21, 20_memory R75). -/
def step (s : State) : Host.Outcome State Fault Refusal := s.hostStep

/-- The state in which the host's next operation is to write the command word `w` (of `nbits` bits, the bits above them 0)
to `CMD` of the context it addresses: the command is not stored in memory (20_memory R79; log 3, log 17). -/
def State.withFetchWord (s : State) (nbits w : Nat) : State :=
  { s with pending := .regWrite s.cur 0 (Word.ofNat (w % 2 ^ nbits)) :: s.pending }

end Sys2Proof.Machine
end

