-- ==== Sys2Proof/Machine/Bytewise.lean ====
section
/-! DEFINITION. The result functions per byte offset, which the spec makes normative (00_scope R15), written as the rules
write them. The commands compute whole columns at once (Machine/Generation.lean, Machine/Reconstruction.lean); claims speak
of single offsets in these words. -/

namespace Sys2Proof.Machine

/-- `D(c, o)`: beyond a short column's size it is 0 and memory is not read (43_generation R211). -/
def ColMap.padded (m : ColMap) (mem : Memory) (c o : Nat) : Byte :=
  if o < m.size c then mem.read (m.base c + o) else 0

/-- The stored parity byte `P[o]`, `Q[o]` or `R[o]` (43_generation R210). -/
def ColMap.stored (m : ColMap) (mem : Memory) (k : Par) (o : Nat) : Byte := mem.read (m.base k.index + o)

/-- The recurrence on the data bytes of one offset, the first data column's byte first (43_generation R213). -/
def Par.horner (k : Par) : List Byte → Byte
  | [] => 0
  | d :: ds => ds.foldl k.step d

/-- `Pgen[o]`, `Qgen[o]`, `Rgen[o]` by the recurrence (43_generation R213). -/
def ColMap.genByte (m : ColMap) (mem : Memory) (k : Par) (o : Nat) : Byte :=
  k.horner (m.dataCols.map fun c => m.padded mem c o)

/-- `a(c)`, the Q coefficient of a data column (43_generation R210). -/
def ColMap.aCoef (m : ColMap) (c : Nat) : Byte := pow2 (m.dist c)

/-- `b(c)`, the R coefficient of a data column (43_generation R210). -/
def ColMap.bCoef (m : ColMap) (c : Nat) : Byte := pow2 (m255 (2 * (m.dist c : Int)))

/-- The coefficient of a data column in a parity column: 1, `a(c)` or `b(c)` (43_generation R212). -/
def ColMap.coef (m : ColMap) (k : Par) (c : Nat) : Byte :=
  match k with
  | .P => 1
  | .Q => m.aCoef c
  | .R => m.bCoef c

/-- XOR over a list of bytes. -/
def xorSum (l : List Byte) : Byte := l.foldr (· ^^^ ·) 0

/-- `Pgen[o]`, `Qgen[o]`, `Rgen[o]` by the sum (43_generation R212). -/
def ColMap.sumByte (m : ColMap) (mem : Memory) (k : Par) (o : Nat) : Byte :=
  xorSum (m.dataCols.map fun c => gfmul (m.padded mem c o) (m.coef k c))

/-- `Psyn[o]`, `Qsyn[o]`, `Rsyn[o]`: the stored parity byte plus the sum over the surviving data columns
(44_reconstruction R232). -/
def ColMap.synByte (m : ColMap) (mem : Memory) (k : Par) (targets : List Nat) (o : Nat) : Byte :=
  m.stored mem k o ^^^
    xorSum ((m.dataCols.filter fun c => decide (c ∉ targets)).map fun c => gfmul (m.padded mem c o) (m.coef k c))

/-- The byte a case computes for target slot `i` at offset `o` (44_reconstruction R234, R243 to R255). -/
def RecCase.byteAt (k : RecCase) (m : ColMap) (mem : Memory) (i o : Nat) : Byte :=
  (k.solve (bkd m.backend.toNat).form m (m.synByte mem .P k.targets o) (m.synByte mem .Q k.targets o)
    (m.synByte mem .R k.targets o)).getD i 0

end Sys2Proof.Machine
end

