-- ==== Sys2Proof/Safety.lean ====
section
/-! DEFINITION. What claims speak of: the tables of the spec that sort the commands, the layout of a valid map, the invariant
of a reachable state, when a context is ready to run a command, when a map's buffers are the command's alone, the linear
system a reconstruction solves. -/

namespace Sys2Proof

/-! ### Tables over the commands -/

open Machine in
/-- Which command is legal in which map state (42_map R183). -/
def Instr.legalIn (i : Instr) (c : Context) : Bool :=
  match i with
  | .nop | .bkSet | .bkAuto | .bkGet | .bkEnum _ | .gfMul _ _ | .gfExp2 _ _ | .gfFixexp _ _ | .gfPow2 _ | .gfLog2 _
  | .laneWidth _ | .laneLoad _ _ | .laneStore _ _ | .laneXor _ _ _ _ | .laneMul2 _ _ _ | .laneMul4 _ _ _
  | .laneMulc _ _ _ _ => true
  | .mapOpen _ _ => c.mapNone
  | .colSet _ | .mapCommit => c.mapIsOpen
  | .colGet _ | .mapClose => c.mapIsOpen || c.mapValid
  | .gen | .genP | .genPQ | .genPQR | .recList _ _ _ _ | .recP _ | .recQ _ | .recR _ | .recPQ _ _ | .recPR _ _ | .recQR _ _
  | .recPQR _ _ _ => c.mapValid

open Machine in
/-- Which command can raise which fault (60_exceptions R302); `E_ILLEGAL` belongs to words that are no command. -/
def Instr.causes : Instr → List Cause
  | .nop | .bkSet | .bkAuto | .bkGet | .bkEnum _ => []
  | .mapOpen _ _ => [.state, .parityRange, .colsRange]
  | .colSet _ | .colGet _ => [.state, .colidx]
  | .mapCommit => [.state, .incomplete, .size, .align, .addr]
  | .mapClose | .gen => [.state]
  | .gfMul _ _ | .gfExp2 _ _ | .gfPow2 _ | .gfLog2 _ => [.range]
  | .gfFixexp _ _ => [.backend, .range]
  | .laneWidth _ => [.backend]
  | .laneLoad _ _ | .laneStore _ _ => [.backend, .range, .align, .addr]
  | .laneXor _ _ _ _ | .laneMul2 _ _ _ | .laneMul4 _ _ _ | .laneMulc _ _ _ _ => [.backend, .range]
  | .genP | .genPQ | .genPQR => [.state, .parityWidth]
  | .recP _ | .recQ _ | .recR _ | .recPQ _ _ | .recPR _ _ | .recQR _ _ | .recPQR _ _ _ =>
    [.state, .parityWidth, .colidx, .targets]
  | .recList _ _ _ _ => [.state, .targets, .colidx, .parityWidth]

/-- The commands that write `RES` (30_encoding R97). -/
def Instr.writesRes : Instr → Bool
  | .bkSet | .bkAuto | .bkGet | .bkEnum _ | .gfMul _ _ | .gfExp2 _ _ | .gfFixexp _ _ | .gfPow2 _ | .gfLog2 _ | .laneWidth _
  | .recList _ _ _ _ | .recP _ | .recQ _ | .recR _ | .recPQ _ _ | .recPR _ _ | .recQR _ _ | .recPQR _ _ _ => true
  | .nop | .mapOpen _ _ | .colSet _ | .colGet _ | .mapCommit | .mapClose | .laneLoad _ _ | .laneStore _ _
  | .laneXor _ _ _ _ | .laneMul2 _ _ _ | .laneMul4 _ _ _ | .laneMulc _ _ _ _ | .gen | .genP | .genPQ | .genPQR => false

/-- The lane register a command writes (41_lane R151 to R159). -/
def Instr.laneWritten : Instr → Option Nat
  | .laneLoad _ vd | .laneXor _ vd _ _ | .laneMul2 _ vd _ | .laneMul4 _ vd _ | .laneMulc _ vd _ _ => some vd
  | .nop | .mapOpen _ _ | .colSet _ | .colGet _ | .mapCommit | .mapClose | .bkSet | .bkAuto | .bkGet | .bkEnum _
  | .gfMul _ _ | .gfExp2 _ _ | .gfFixexp _ _ | .gfPow2 _ | .gfLog2 _ | .laneWidth _ | .laneStore _ _
  | .gen | .genP | .genPQ | .genPQR | .recList _ _ _ _ | .recP _ | .recQ _ | .recR _ | .recPQ _ _ | .recPR _ _ | .recQR _ _
  | .recPQR _ _ _ => none

/-- The commands that use the backend cached on the map (45_dispatch R287): generation and reconstruction. -/
def Instr.compute : Instr → Bool
  | .gen | .genP | .genPQ | .genPQR | .recList _ _ _ _ | .recP _ | .recQ _ | .recR _ | .recPQ _ _ | .recPR _ _ | .recQR _ _
  | .recPQR _ _ _ => true
  | .nop | .mapOpen _ _ | .colSet _ | .colGet _ | .mapCommit | .mapClose | .bkSet | .bkAuto | .bkGet | .bkEnum _
  | .gfMul _ _ | .gfExp2 _ _ | .gfFixexp _ _ | .gfPow2 _ | .gfLog2 _ | .laneWidth _ | .laneLoad _ _ | .laneStore _ _
  | .laneXor _ _ _ _ | .laneMul2 _ _ _ | .laneMul4 _ _ _ | .laneMulc _ _ _ _ => false

end Sys2Proof

namespace Sys2Proof.Machine

/-- The layout invariant of a valid map (42_map R190 (a) to (e)). -/
structure ColMap.Layout (cfg : Config) (m : ColMap) : Prop where
  /-- (a) -/
  parity_pos : 1 ≤ m.p
  /-- (a) -/
  data_pos : m.p + 1 ≤ m.ncols
  /-- (a) -/
  data_le : m.ncols ≤ m.p + ndataMax
  /-- (b) -/
  size_pos : ∀ c, c < m.ncols → 0 < m.size c
  /-- (b) -/
  size_sector : ∀ c, c < m.ncols → m.size c % cfg.sector = 0
  /-- (b) -/
  base_aligned : ∀ c, c < m.ncols → m.base c % wmax = 0
  /-- (b) -/
  in_memory : ∀ c, c < m.ncols → m.base c + m.size c ≤ cfg.memLimit
  /-- (c) -/
  data_full : ∀ c, m.p ≤ c → c + 1 < m.ncols → m.size c = m.psize.toNat
  /-- (d) -/
  last_size : m.size (m.ncols - 1) = m.psize.toNat ∨
    (m.p + 2 ≤ m.ncols ∧ m.size (m.ncols - 1) + cfg.sector = m.psize.toNat)
  /-- (e) -/
  parity_full : ∀ c, c < m.p → m.size c = m.psize.toNat

/-- The header of a map under construction or valid (42_map R182, 10_state R38). -/
structure ColMap.Header (avail : BitVec 3) (m : ColMap) : Prop where
  parity_pos : 1 ≤ m.p
  data_pos : m.p + 1 ≤ m.ncols
  data_le : m.ncols ≤ m.p + ndataMax
  backend_registered : registered avail m.backend.toNat = true

/-- What holds of every context between commands. -/
structure Context.Ok (cfg : Config) (avail : BitVec 3) (c : Context) : Prop where
  /-- 10_state R30, 60_exceptions R324 (e). -/
  guard_clear : c.vguard = false
  /-- 10_state R28. -/
  not_both : ¬ (c.mapopen = true ∧ c.mapv = true)
  /-- 60_exceptions R324 (a). -/
  no_fault : c.fault = false → c.fcode = 0 ∧ c.finfo = 0
  /-- 60_exceptions R324 (b). -/
  fault_code : c.fault = true → 1 ≤ c.fcode.toNat ∧ c.fcode.toNat ≤ 13
  /-- 10_state R45, 42_map R188. -/
  map_none : c.mapNone = true → c.map = ColMap.reset
  /-- 42_map R182, R186. -/
  unset_zero : ∀ k (h : k < 258), c.map.col[k].set = false → c.map.col[k] = Col.reset
  /-- 42_map R182, 10_state R38. -/
  map_header : c.mapNone = false → c.map.Header avail
  /-- 10_state R28, 42_map R190. -/
  map_valid : c.mapValid = true → c.map.Layout cfg

/-- The invariant of every reachable state. -/
structure State.Inv (s : State) : Prop where
  /-- 00_scope R7. -/
  params : s.cfg.wf = true
  /-- 60_exceptions R335. -/
  contexts : s.ctxs.length = s.cfg.nctx
  /-- The host addresses a context of the block (10_state R46). -/
  addressed : s.cur < s.cfg.nctx
  /-- 10_state R33: backend 0 is available, and nothing is available that is not compiled in. -/
  scalar_available : registered s.avail 0 = true
  available_compiled : ∀ b, registered s.avail b = true → compiledIn s.cfg.ci b = true
  /-- 10_state R32. -/
  selected : registered s.avail s.bsel.toNat = true
  /-- The canonical form of memory. -/
  mem_wf : s.mem.wf = true
  /-- 20_memory R61. -/
  mem_below : s.mem.below s.cfg.memLimit = true
  each : ∀ c ∈ s.ctxs, c.Ok s.cfg s.avail

/-- The addressed context exists, is not stopped by a fault and is not inside a command: it executes commands
(60_exceptions R310, R322, R324 (e)). -/
structure State.Ready (s : State) : Prop where
  present : s.cur < s.ctxs.length
  running : s.here.fault = false
  outside : s.here.vguard = false

/-- The premise on the buffers of a compute command: inside buffer memory, disjoint from each other and from the buffers of
the other maps in use (20_memory R70, R72). -/
def State.BuffersOwn (s : State) : Prop :=
  s.here.map.inside s.cfg.memLimit = true ∧ s.here.map.disjointCols = true ∧
    s.mapsElsewhere.all s.here.map.apartFrom = true

/-- A compute command can run: a reachable state, a running context, a valid map, and the host's duty on the buffers done
(42_map R183, 20_memory R72). -/
structure State.Computes (s : State) : Prop where
  inv : s.Inv
  running : s.here.fault = false
  valid : s.here.mapValid = true
  own : s.BuffersOwn

/-- A step that does not stop the machine: a safe run consists of these. The hardware's own faults are such steps
(60_exceptions R320). -/
def State.StepGoesOn (s : State) : Prop := ∃ t, step s = .next t

/-- The values of a context after reset (10_state R45), field by field. -/
structure Context.Cleared (c : Context) : Prop where
  operands : c.a0 = 0 ∧ c.a1 = 0 ∧ c.a2 = 0 ∧ c.a3 = 0
  result : c.res = 0
  flags : c.fault = false ∧ c.mapopen = false ∧ c.mapv = false ∧ c.vguard = false
  cause : c.fcode = 0 ∧ c.finfo = 0
  header : c.map.cols = 0 ∧ c.map.parity = 0 ∧ c.map.psize = 0 ∧ c.map.backend = 0
  bookkeeping : c.map.ioffset = 0 ∧ c.map.skipstart = 0 ∧ c.map.bigcols = 0 ∧ c.map.asize = 0 ∧ c.map.missingdata = 0 ∧
    c.map.missingparity = 0
  columns : ∀ k (h : k < 258), c.map.col[k] = { dev := 0, devoff := 0, base := 0, size := 0, set := false }
  lanes : ∀ i (hi : i < 16) k (hk : k < 64), (c.v[i])[k] = 0

/-- The state with backend `b` cached on the addressed context's map (10_state R38). -/
def State.onBackend (s : State) (b : Nat) : State :=
  s.put { s.here with map := { s.here.map with backend := BitVec.ofNat 8 b } }

/-! ### Where a column lies, and what a reconstruction solves -/

/-- Address `a` is a byte of column `c`. -/
def ColMap.holds (m : ColMap) (c a : Nat) : Prop := m.base c ≤ a ∧ a < m.base c + m.size c

/-- The explicit command of a case (44_reconstruction R230). -/
def RecCase.instr : RecCase → Instr
  | .p x => .recP x
  | .q x => .recQ x
  | .r x => .recR x
  | .pq x y => .recPQ x y
  | .pr x y => .recPR x y
  | .qr x y => .recQR x y
  | .pqr x y z => .recPQR x y z

/-- The syndromes a case uses (44_reconstruction R230). -/
def RecCase.rows : RecCase → List Par
  | .p _ => [.P]
  | .q _ => [.Q]
  | .r _ => [.R]
  | .pq _ _ => [.P, .Q]
  | .pr _ _ => [.P, .R]
  | .qr _ _ => [.Q, .R]
  | .pqr _ _ _ => [.P, .Q, .R]

/-- The parity count a case needs (44_reconstruction R230). -/
def RecCase.needs : RecCase → Nat
  | .p _ => 1
  | .q _ => 2
  | .r _ => 3
  | .pq _ _ => 2
  | .pr _ _ => 3
  | .qr _ _ => 3
  | .pqr _ _ _ => 3

/-- The targets are data columns of the map in strictly increasing order, and the map has the parity columns the case needs
(44_reconstruction R231, R238). -/
structure RecCase.Fits (k : RecCase) (m : ColMap) : Prop where
  parity : k.needs ≤ m.p
  data : ∀ t ∈ k.targets, m.p ≤ t ∧ t < m.ncols
  increasing : k.targets.Pairwise (· < ·)

/-- `xs`, one byte per target, solves the system of a case for the syndrome bytes `syn` (44_reconstruction R233). -/
def RecCase.Solves (k : RecCase) (m : ColMap) (syn : Par → Byte) (xs : List Byte) : Prop :=
  xs.length = k.targets.length ∧
    ∀ j ∈ k.rows, syn j = xorSum (List.zipWith (fun t x => gfmul (m.coef j t) x) k.targets xs)

/-- A byte times `2^e`, the common value that the spec writes `mlog(v, e)` (40_field R129), for an integer log `e`
(00_scope R11). -/
def timesPow (v : Byte) (e : Int) : Byte := gfmul v (pow2 (m255 e))

/-- The parity columns `j` of the list hold the correct parity of the data (43_generation R224). -/
def ColMap.ConsistentOn (m : ColMap) (mem : Memory) (js : List Par) : Prop :=
  ∀ j ∈ js, ∀ o, o < m.psize.toNat → m.stored mem j o = m.sumByte mem j o

/-- The selection table of `REC` (44_reconstruction R261), row by row: parity count, damaged parity columns, data targets.
`none` is a row that faults with `E_PARITY_WIDTH`. -/
def recTable (parity : Nat) (damaged targets : List Nat) : Option RecCase :=
  match parity, damaged, targets with
  | 1, [], [x] => some (.p x)
  | 2, [], [x] => some (.p x)
  | 2, [], [x, y] => some (.pq x y)
  | 2, [0], [x] => some (.q x)
  | 2, [1], [x] => some (.p x)
  | 3, [], [x] => some (.p x)
  | 3, [], [x, y] => some (.pq x y)
  | 3, [], [x, y, z] => some (.pqr x y z)
  | 3, [0], [x] => some (.q x)
  | 3, [0], [x, y] => some (.qr x y)
  | 3, [1], [x] => some (.p x)
  | 3, [1], [x, y] => some (.pr x y)
  | 3, [2], [x] => some (.p x)
  | 3, [2], [x, y] => some (.pq x y)
  | 3, [0, 1], [x] => some (.r x)
  | 3, [0, 2], [x] => some (.q x)
  | 3, [1, 2], [x] => some (.p x)
  | _, _, _ => none

end Sys2Proof.Machine
end

