-- ==== Sys2Proof/Certificates/Slice0/Obligations.lean ====
section
/-! DEFINITION. The statements for the provers, from the numbered rules of spec/. A statement about a next state says the whole
next state where it can: `s.put c` is `s` with the addressed context replaced by `c`, everything else unchanged. -/

open Sys2Proof Sys2Proof.Machine

/-! ### Encoding (30_encoding) -/

/-- Every well-formed command is what the decoder reads from its word (30_encoding R91, R92, R95). -/
def Obligations.DecodeOfEncode : Prop := ∀ i : Instr, i.wf = true → decode (encode i) = some i

/-- 30_encoding R93: a word decodes to the command of the unique row with `(w & mask) = match`, `match = op * 2^56`, with the
word's fields as its operands, and is illegal when no row matches. -/
def Obligations.DecodeIsTheUniqueRow : Prop :=
  ∀ w : Word,
    (∀ r ∈ opcodeMap, r.accepts w = true →
      r.pattern = Word.ofNat (opField w * 2 ^ 56) ∧
        ∃ i, decode w = some i ∧ i.mnemonic = r.mnemonic ∧ i.wf = true ∧ encode i = w) ∧
    ((∀ r ∈ opcodeMap, r.accepts w = false) → decode w = none) ∧
    (∀ r ∈ opcodeMap, ∀ r' ∈ opcodeMap, r.accepts w = true → r'.accepts w = true → r = r')

/-- The examples of 30_encoding R111 and R99: words written out in the manual and the commands they stand for. -/
def Obligations.WordsOfTheManualDecode : Prop :=
  decode 0x0000000000000000 = some .nop ∧
  decode 0x0100000000020005 = some (.mapOpen 5 2) ∧
  decode 0x0200000000000003 = some (.colSet 3) ∧
  decode 0x2000000000020080 = some (.gfMul 0x80 2) ∧
  decode 0x3600001900020001 = some (.laneMulc 0 1 2 25) ∧
  decode 0x3301000200010000 = some (.laneXor 1 0 1 2) ∧
  decode 0x5002000000080005 = some (.recList 2 5 8 0) ∧
  decode 0x5700000900040003 = some (.recPQR 3 4 9) ∧
  decode 0xFFFFFFFFFFFFFFFF = none

/-- 30_encoding R98: an undefined opcode, or a non-zero field that the format requires to be 0, makes a word illegal, and
writing it to `CMD` raises `E_ILLEGAL` (code 1) with `FINFO = w` and changes nothing else. -/
def Obligations.IllegalWordFaults : Prop :=
  (∀ w : Word,
    (0x06 ≤ opField w ∧ opField w ≤ 0x0F) ∨ (0x14 ≤ opField w ∧ opField w ≤ 0x1F) ∨
      (0x25 ≤ opField w ∧ opField w ≤ 0x2F) ∨ (0x37 ≤ opField w ∧ opField w ≤ 0x3F) ∨
      (0x44 ≤ opField w ∧ opField w ≤ 0x4F) ∨ (0x58 ≤ opField w ∧ opField w ≤ 0xFF) → decode w = none) ∧
  (∀ w : Word, ∀ r ∈ opcodeMap, r.pattern = Word.ofNat (opField w * 2 ^ 56) → r.accepts w = false → decode w = none) ∧
  (∀ (s : State) (x : Nat) (w : Word) (rest : List HostOp) (h : x < s.ctxs.length),
    s.pending = .regWrite x 0 w :: rest → x < s.cfg.nctx → s.ctxs[x].fault = false → decode w = none →
    step s = .next { s with
      pending := rest, cur := x
      ctxs := s.ctxs.set x { s.ctxs[x] with fault := true, fcode := 1, finfo := w } })

/-! ### The step, the register port, buffer memory, reset (10_state, 20_memory, 60_exceptions, 70_reset) -/

/-- When the host's next operation writes a command word to `CMD`, the step is that command's meaning in the addressed context
(30_encoding R90, 60_exceptions R310); so too for a word placed by `withFetchWord` (logs 3, 17). -/
def Obligations.StepRunsDecodedCommand : Prop :=
  (∀ (s : State) (x : Nat) (w : Word) (rest : List HostOp) (i : Instr),
    s.pending = .regWrite x 0 w :: rest → x < s.cfg.nctx → decode w = some i →
    step s = exec i { s with pending := rest, cur := x }) ∧
  (∀ (s : State) (nbits w : Nat) (i : Instr),
    s.cur < s.cfg.nctx → decodeTableWord nbits w = some i → step (s.withFetchWord nbits w) = exec i s)

/-- 60_exceptions R322: while a context is faulted every register write to it is ignored, commands included, whatever the
register and the value, and register reads work as usual. -/
def Obligations.FaultedContextIgnoresWrites : Prop :=
  ∀ (s : State) (x num : Nat) (rest : List HostOp) (h : x < s.ctxs.length),
    x < s.cfg.nctx → num < 512 → s.ctxs[x].fault = true →
    (∀ v : Word, s.pending = .regWrite x num v :: rest → step s = .next { s with pending := rest, cur := x }) ∧
    (s.pending = .regRead x num :: rest →
      step s = .next { s with pending := rest, readBack := some (s.register s.ctxs[x] num) })

/-- 10_state R46: reads return the register's value (numbers 0 to 20 in the order of R31) and change no machine state, `CMD` and
numbers outside the table read 0; writes to `A0` .. `A3` store, to `CMD` execute, to any other number are ignored; outside the block an access is refused. -/
def Obligations.RegisterPortAccess : Prop :=
  ∀ (s : State) (x num : Nat) (v : Word) (rest : List HostOp),
    (¬ (x < s.cfg.nctx ∧ num < 512) →
      (s.pending = .regRead x num :: rest → step s = .refused .outsideBlock) ∧
      (s.pending = .regWrite x num v :: rest → step s = .refused .outsideBlock)) ∧
    (∀ h : x < s.ctxs.length, x < s.cfg.nctx → num < 512 →
      (s.pending = .regRead x num :: rest →
        step s = .next { s with pending := rest, readBack := some (s.register s.ctxs[x] num) }) ∧
      (20 < num → s.register s.ctxs[x] num = 0) ∧
      (let c := s.ctxs[x];
        (List.range 21).map (s.register c) =
          [0, c.status, c.res, c.fcode, c.finfo, c.a0, c.a1, c.a2, c.a3, s.bsel.setWidth 64, s.avail.setWidth 64,
            c.map.cols.setWidth 64, c.map.parity.setWidth 64, c.map.backend.setWidth 64, c.map.psize,
            c.map.missingdata.setWidth 64, c.map.missingparity.setWidth 64, c.map.ioffset, c.map.skipstart, c.map.bigcols,
            c.map.asize]) ∧
      (s.pending = .regWrite x num v :: rest →
        (num = 0 → step s = { s with pending := rest, cur := x }.commandWrite v) ∧
        (s.ctxs[x].fault = false →
          (num = 5 → step s =
            .next { s with pending := rest, cur := x, ctxs := s.ctxs.set x { s.ctxs[x] with a0 := v } }) ∧
          (num = 6 → step s =
            .next { s with pending := rest, cur := x, ctxs := s.ctxs.set x { s.ctxs[x] with a1 := v } }) ∧
          (num = 7 → step s =
            .next { s with pending := rest, cur := x, ctxs := s.ctxs.set x { s.ctxs[x] with a2 := v } }) ∧
          (num = 8 → step s =
            .next { s with pending := rest, cur := x, ctxs := s.ctxs.set x { s.ctxs[x] with a3 := v } })) ∧
        (num ∉ [0, 5, 6, 7, 8] → step s = .next { s with pending := rest, cur := x })))

/-- The register table of 10_state R31, with the flags of `STATUS` at the places of R25, and the memory-mapped offset
`ctx * 0x1000 + num * 8`. A register's slot is little-endian (20_memory R65): byte `k` is bits `[8k+7:8k]`, a store of the 8
bytes of `v` is the write of `v`, a load is the read of the whole register and returns its bytes in that order, a packed name
has its first character at offset 0, and an access of another width or alignment is no operation of the host (log 22). -/
def Obligations.RegisterTable : Prop :=
  (∀ (s : State) (c : Context),
    ((s.register c 1).getLsbD 0 = c.fault ∧ (s.register c 1).getLsbD 1 = c.mapopen ∧
      (s.register c 1).getLsbD 2 = c.mapv ∧ (s.register c 1).getLsbD 3 = c.vguard ∧
      ∀ k, 4 ≤ k → (s.register c 1).getLsbD k = false) ∧
    s.register c 2 = c.res ∧ s.register c 3 = c.fcode ∧ s.register c 4 = c.finfo ∧
    s.register c 5 = c.a0 ∧ s.register c 6 = c.a1 ∧ s.register c 7 = c.a2 ∧ s.register c 8 = c.a3 ∧
    (s.register c 9).toNat = s.bsel.toNat ∧ (s.register c 10).toNat = s.avail.toNat ∧
    (s.register c 11).toNat = c.map.ncols ∧ (s.register c 12).toNat = c.map.p ∧
    (s.register c 13).toNat = c.map.backend.toNat ∧ s.register c 14 = c.map.psize ∧
    (s.register c 15).toNat = c.map.missingdata.toNat ∧ (s.register c 16).toNat = c.map.missingparity.toNat ∧
    s.register c 17 = c.map.ioffset ∧ s.register c 18 = c.map.skipstart ∧ s.register c 19 = c.map.bigcols ∧
    s.register c 20 = c.map.asize ∧ s.register c 0 = 0 ∧ ∀ num, 20 < num → s.register c num = 0) ∧
  (∀ x num, num < 512 → portOffset x num = x * 0x1000 + num * 8 ∧ portAt (portOffset x num) = some (x, num)) ∧
  (∀ v : Word, (regBytes v).length = 8 ∧
    ∀ k, k < 8 → ∃ b : Byte, (regBytes v)[k]? = some b ∧ ∀ i, i < 8 → b.getLsbD i = v.getLsbD (8 * k + i)) ∧
  (∀ x num (v : Word), num < 512 →
    mappedWrite (portOffset x num) (regBytes v) = some (.regWrite x num v) ∧
    mappedRead (portOffset x num) 8 = some (.regRead x num)) ∧
  (∀ (s : State) (x num : Nat) (rest : List HostOp) (h : x < s.ctxs.length),
    x < s.cfg.nctx → num < 512 → s.pending = .regRead x num :: rest →
    ∃ t, step s = .next t ∧ t.mappedBytes = some (regBytes (s.register s.ctxs[x] num))) ∧
  (∀ (offset : Nat) (bytes : List Byte), bytes.length ≠ 8 ∨ offset % 8 ≠ 0 →
    mappedWrite offset bytes = none ∧ mappedRead offset bytes.length = none) ∧
  (∀ name : List Char, name.length ≤ 8 → ∀ k, k < 8 →
    regByte (pack name) k = BitVec.ofNat 8 ((name[k]?).elim 0 Char.toNat))

/-- The host stores and reads buffer memory below `MEM_LIMIT` (20_memory R61, R63); elsewhere there is no memory and the model
stops by name (log 9). -/
def Obligations.HostMemoryAccess : Prop :=
  ∀ (s : State) (addr : Nat) (bytes : List Byte) (rest : List HostOp),
    (s.pending = .memWrite addr bytes :: rest →
      (addr + bytes.length ≤ s.cfg.memLimit →
        ∃ m : Memory, step s = .next { s with pending := rest, mem := m } ∧
          (∀ k, k < bytes.length → m.read (addr + k) = bytes.getD k 0) ∧
          ∀ a, ¬ (addr ≤ a ∧ a < addr + bytes.length) → m.read a = s.mem.read a) ∧
      (s.cfg.memLimit < addr + bytes.length → step s = .fault .hostAddress)) ∧
    (s.pending = .memRead addr :: rest →
      (addr < s.cfg.memLimit →
        step s = .next { s with pending := rest, readBack := some (zext (s.mem.read addr)) }) ∧
      (s.cfg.memLimit ≤ addr → step s = .fault .hostAddress))

/-- 10_state R45, table by table row, for a reset from any state (the global reset of 70_reset R340, with the probe of R341),
and for `State.reset` itself. Buffer memory is not changed. -/
def Obligations.ResetEventClears : Prop :=
  (∀ (s : State) (feat : BitVec 3) (rest : List HostOp), s.pending = .reset feat :: rest →
    ∃ t, step s = .next t ∧
      t = { s with pending := rest, avail := t.avail, bsel := t.bsel, ctxs := t.ctxs } ∧
      t.avail.getLsbD 0 = true ∧
      (∀ b, 0 < b → b < nbk → t.avail.getLsbD b = (s.cfg.ci.getLsbD b && feat.getLsbD b)) ∧
      registered t.avail t.bsel.toNat = true ∧
      (∀ b, registered t.avail b = true → b ≤ t.bsel.toNat) ∧
      t.ctxs.length = s.cfg.nctx ∧ ∀ c ∈ t.ctxs, c.Cleared) ∧
  State.reset.ctxs.length = State.reset.cfg.nctx ∧ ∀ c ∈ State.reset.ctxs, c.Cleared

/-- The invariant holds after reset, for every choice of the open parameters that the spec allows, every probe input, and every
memory in canonical form below the limit. The first line is the model's choice of parameters, written memory and pending
operations for `State.reset` (logs 1, 2, 3). -/
def Obligations.ResetSatisfiesInv : Prop :=
  (State.reset.avail = 0b111 ∧ State.reset.bsel = 2 ∧ State.reset.mem = [] ∧ State.reset.pending = []) ∧
  State.reset.Inv ∧
  ∀ (c : Config) (feat : BitVec 3) (m : Memory), c.wf = true → m.wf = true → m.below c.memLimit = true →
    (State.resetOf c feat m).Inv

/-- Every step keeps the invariant: canonical memory inside the implemented addresses, a registered backend selected and cached,
a valid map laid out as 42_map R190 says, flags and fault registers as 60_exceptions R324 (a), (b), (e) say. -/
def Obligations.StepKeepsInv : Prop := ∀ s t : State, s.Inv → step s = .next t → t.Inv

/-! ### Faults and independence (60_exceptions, 42_map R183) -/

/-- 60_exceptions R320: a command that faults writes `FAULT`, `FCODE` and `FINFO` of its context and changes nothing else; the
cause is one of those R302 lists for the command ("A command can raise exactly the faults listed for it", which the spec marks
[derived]), and its code is that of R301. -/
def Obligations.FaultEntryChangesNothingElse : Prop :=
  (∀ (i : Instr) (s t : State), s.Ready → exec i s = .next t → t.here.fault = true →
    ∃ e ∈ i.causes, ∃ v : Word,
      t = { s with ctxs := s.ctxs.set s.cur { s.here with fault := true, fcode := Word.ofNat e.code, finfo := v } }) ∧
  (∀ (s : State) (e : Cause) (v : Word), s.takeFault e v =
    { s with ctxs := s.ctxs.set s.cur { s.here with fault := true, fcode := Word.ofNat e.code, finfo := v } }) ∧
  [Cause.illegal, .state, .parityRange, .colsRange, .colidx, .size, .align, .parityWidth, .targets, .backend, .range,
    .incomplete, .addr].map Cause.code = [1, 2, 3, 4, 5, 6, 7, 8, 9, 10, 11, 12, 13]

/-- 42_map R183: a command that is not legal in the map state raises `E_STATE` (code 2) with the command word, before any other
check; a command that is legal there never raises it. -/
def Obligations.IllegalMapStateFaults : Prop :=
  ∀ (s : State) (x : Nat) (w : Word) (rest : List HostOp) (i : Instr) (h : x < s.ctxs.length),
    s.pending = .regWrite x 0 w :: rest → x < s.cfg.nctx → s.ctxs[x].fault = false → decode w = some i →
    (i.legalIn s.ctxs[x] = false →
      step s = .next { s with
        pending := rest, cur := x
        ctxs := s.ctxs.set x { s.ctxs[x] with fault := true, fcode := 2, finfo := w } }) ∧
    (i.legalIn s.ctxs[x] = true → ∀ t, step s = .next t → t.here.fault = true → t.here.fcode ≠ 2)

/-- 60_exceptions R323 (and R324 (c)): the state of a faulted context is constant under every host operation except the global
reset, the reset clears the fault of every context, and a fault leaves memory and the map as they were. -/
def Obligations.FaultStaysUntilReset : Prop :=
  ∀ (s t : State) (op : HostOp) (rest : List HostOp), s.pending = op :: rest → step s = .next t →
    ((∀ feat, op ≠ .reset feat) → ∀ (x : Nat) (h : x < s.ctxs.length), s.ctxs[x].fault = true →
      t.ctxs[x]? = some s.ctxs[x]) ∧
    (∀ feat, op = .reset feat → ∀ c ∈ t.ctxs, c.fault = false ∧ c.fcode = 0 ∧ c.finfo = 0) ∧
    (∀ x : Nat, (s.ctxs[x]?).map Context.fault = some false → (t.ctxs[x]?).map Context.fault = some true →
      t.mem = s.mem ∧ (t.ctxs[x]?).map Context.map = (s.ctxs[x]?).map Context.map)

/-- 60_exceptions R336: a command changes nothing of another context, and what a command does in its own context and to memory
does not depend on the other contexts, nor on `BSEL` unless it is `MAP_OPEN` or `BK_GET`. -/
def Obligations.ContextsIndependent : Prop :=
  (∀ (i : Instr) (s t : State), exec i s = .next t → ∀ y, y ≠ s.cur → t.ctxs[y]? = s.ctxs[y]?) ∧
  (∀ (i : Instr) (s s' t t' : State), s.cur < s.ctxs.length → s'.cur < s'.ctxs.length →
    s.cfg = s'.cfg → s.avail = s'.avail → s.mem = s'.mem → s.here = s'.here →
    (s.bsel = s'.bsel ∨ ((∀ c p, i ≠ .mapOpen c p) ∧ i ≠ .bkGet)) →
    exec i s = .next t → exec i s' = .next t' → t.here = t'.here ∧ t.mem = t'.mem)

/-- Whether a command faults, and with what, does not depend on the bytes of buffer memory or of the lane registers
(41_lane R160, 70_reset R363). -/
def Obligations.FaultsIgnoreData : Prop :=
  ∀ (i : Instr) (s : State) (m : Memory) (lanes : Vector Lane 16), s.Ready →
    (∀ e v, exec i s = .next (s.takeFault e v) →
      exec i { s.put { s.here with v := lanes } with mem := m } =
        .next (State.takeFault { s.put { s.here with v := lanes } with mem := m } e v)) ∧
    ((∃ t, exec i s = .next t ∧ t.here.fault = false) →
      ∃ t, exec i { s.put { s.here with v := lanes } with mem := m } = .next t ∧ t.here.fault = false)

/-- From a state with the invariant the machine stops only where the host leaves its duties: a buffer-memory access that is not
implemented (log 9), an access outside the block (10_state R46), a compute command on overlapping buffers
(20_memory R72; logs 6, 7). No command of the opcode map is without a meaning. -/
def Obligations.StopsOnlyOutsideDuties : Prop :=
  ∀ s : State, s.Inv →
    (∀ r, step s = .fault r → r = .hostAddress ∧ ∃ rest,
      (∃ a bytes, s.pending = .memWrite a bytes :: rest ∧ s.cfg.memLimit < a + bytes.length) ∨
      (∃ a, s.pending = .memRead a :: rest ∧ s.cfg.memLimit ≤ a)) ∧
    (∀ r, step s = .refused r → ∃ x num rest,
      (r = .outsideBlock ∧ ¬ (x < s.cfg.nctx ∧ num < 512) ∧
        ((∃ v, s.pending = .regWrite x num v :: rest) ∨ s.pending = .regRead x num :: rest)) ∨
      ((r = .overlappingColumns ∨ r = .overlapsOtherMap) ∧ ∃ w i, s.pending = .regWrite x 0 w :: rest ∧
        decode w = some i ∧ i.compute = true ∧ ¬ ({ s with pending := rest, cur := x } : State).BuffersOwn))

/-! ### Which command writes what (10_state, 30_encoding R96, R97, 42_map R180, 45_dispatch R289) -/

/-- 45_dispatch R289: `BSEL` is written by `BK_SET` and `BK_AUTO` only, these write no map of any context, and a map keeps its
backend until it is opened anew or closed. `AVAIL` and the parameters are written by no command. -/
def Obligations.SelectionNeverTouchesMaps : Prop :=
  ∀ (i : Instr) (s t : State), exec i s = .next t →
    t.cfg = s.cfg ∧ t.avail = s.avail ∧
    (i ≠ .bkSet → i ≠ .bkAuto → t.bsel = s.bsel) ∧
    (i = .bkSet ∨ i = .bkAuto → t.mem = s.mem ∧ ∀ y : Nat, (t.ctxs[y]?).map Context.map = (s.ctxs[y]?).map Context.map) ∧
    ((∀ c p, i ≠ .mapOpen c p) → i ≠ .mapClose →
      ∀ y : Nat, (t.ctxs[y]?).map (fun c : Context => c.map.backend) = (s.ctxs[y]?).map (fun c : Context => c.map.backend))

/-- 30_encoding R97: the listed commands write `RES` when they complete (the state they leave does not depend on the old `RES`),
and every other command leaves `RES` unchanged. -/
def Obligations.ResWriters : Prop :=
  ∀ (i : Instr) (s t : State), exec i s = .next t →
    (i.writesRes = false → t.here.res = s.here.res) ∧
    (i.writesRes = true → s.Ready → t.here.fault = false → ∀ v, exec i (s.setRes v) = .next t)

/-- Only `COL_GET` writes `A0` .. `A3` (10_state R22); a lane register is written only by the lane command that names it as
destination (R39); the fault registers change only by a fault (R29); the vector guard is 0 after a command (R30). -/
def Obligations.OperandsAndLanesFrame : Prop :=
  ∀ (i : Instr) (s t : State), exec i s = .next t →
    ((∀ c, i ≠ .colGet c) →
      t.here.a0 = s.here.a0 ∧ t.here.a1 = s.here.a1 ∧ t.here.a2 = s.here.a2 ∧ t.here.a3 = s.here.a3) ∧
    (∀ n, i.laneWritten ≠ some n → t.here.lane n = s.here.lane n) ∧
    (t.here.fault = s.here.fault → t.here.fcode = s.here.fcode ∧ t.here.finfo = s.here.finfo) ∧
    (s.here.vguard = false → t.here.vguard = false)

/-- 42_map R180: the transitions of the map state, and no others; a valid map changes only in its missing counts until it is
closed (42_map R191 (v)). -/
def Obligations.MapStateTransitions : Prop :=
  (∀ (i : Instr) (s t : State), s.Ready → exec i s = .next t →
    (t.here.fault = true → t.here.mapopen = s.here.mapopen ∧ t.here.mapv = s.here.mapv) ∧
    (t.here.fault = false →
      (∀ c p, i = .mapOpen c p → s.here.mapNone = true ∧ t.here.mapIsOpen = true) ∧
      (i = .mapCommit → s.here.mapIsOpen = true ∧ t.here.mapValid = true) ∧
      (i = .mapClose → (s.here.mapIsOpen = true ∨ s.here.mapValid = true) ∧ t.here.mapNone = true) ∧
      ((∀ c p, i ≠ .mapOpen c p) → i ≠ .mapCommit → i ≠ .mapClose →
        t.here.mapopen = s.here.mapopen ∧ t.here.mapv = s.here.mapv)) ∧
    (s.here.mapValid = true → i ≠ .mapClose →
      t.here.map = { s.here.map with
        missingdata := t.here.map.missingdata, missingparity := t.here.map.missingparity })) ∧
  (∀ (s : State) (feat : BitVec 3), ∀ c ∈ (s.blockReset feat).ctxs, c.mapNone = true)

/-- A command that is neither `LANE_STORE` nor a compute command leaves every byte of buffer memory unchanged
(20_memory R71). -/
def Obligations.NonStoringCommandsKeepMemory : Prop :=
  ∀ (i : Instr) (s t : State), exec i s = .next t → i.compute = false → (∀ bk vs, i ≠ .laneStore bk vs) →
    t.mem = s.mem ∧ ∀ a, t.mem.read a = s.mem.read a

/-! ### The map commands (42_map) -/

/-- 42_map R181: `NOP` changes no state in any state. -/
def Obligations.NopDoesNothing : Prop := ∀ s : State, exec .nop s = .next s

/-- 42_map R182: `MAP_OPEN`, its three checks in order and its effect. -/
def Obligations.MapOpenEffect : Prop :=
  ∀ (s : State) (cols parity : Nat), s.Ready →
    (s.here.mapNone = false →
      exec (.mapOpen cols parity) s = .next (s.takeFault .state (encode (.mapOpen cols parity)))) ∧
    (s.here.mapNone = true → parity < 1 ∨ 3 < parity →
      exec (.mapOpen cols parity) s = .next (s.takeFault .parityRange (Word.ofNat parity))) ∧
    (s.here.mapNone = true → 1 ≤ parity → parity ≤ 3 → cols ≤ parity ∨ 255 < cols - parity →
      exec (.mapOpen cols parity) s = .next (s.takeFault .colsRange (Word.ofNat cols))) ∧
    (s.here.mapNone = true → 1 ≤ parity → parity ≤ 3 → parity < cols → cols - parity ≤ 255 →
      ∃ m : ColMap, exec (.mapOpen cols parity) s = .next (s.put { s.here with mapopen := true, map := m }) ∧
        m.ncols = cols ∧ m.p = parity ∧ m.psize = 0 ∧ m.backend = s.bsel ∧
        m.ioffset = s.here.a0 ∧ m.skipstart = s.here.a1 ∧ m.bigcols = s.here.a2 ∧ m.asize = s.here.a3 ∧
        m.missingdata = 0 ∧ m.missingparity = 0 ∧
        ∀ c (h : c < 258), m.col[c] = { dev := 0, devoff := 0, base := 0, size := 0, set := false })

/-- 42_map R185: `COL_SET`, its two checks in order and its effect. `MAP.cols` is at most 258 in every reachable state. -/
def Obligations.ColSetEffect : Prop :=
  ∀ (s : State) (c : Nat), s.Ready → s.here.map.ncols ≤ maxCols →
    (s.here.mapIsOpen = false → exec (.colSet c) s = .next (s.takeFault .state (encode (.colSet c)))) ∧
    (s.here.mapIsOpen = true → s.here.map.ncols ≤ c →
      exec (.colSet c) s = .next (s.takeFault .colidx (Word.ofNat c))) ∧
    (s.here.mapIsOpen = true → c < s.here.map.ncols →
      ∃ col : Vector Col 258,
        exec (.colSet c) s = .next (s.put { s.here with map := { s.here.map with col := col } }) ∧
        col[c]? = some { base := s.here.a0, size := s.here.a1, dev := s.here.a2, devoff := s.here.a3, set := true } ∧
        ∀ d, d ≠ c → col[d]? = s.here.map.col[d]?)

/-- 42_map R186: `COL_GET`, its two checks in order and its effect; a column not yet set reads as four zeros. -/
def Obligations.ColGetEffect : Prop :=
  ∀ (s : State) (c : Nat), s.Ready →
    (s.here.mapIsOpen = false → s.here.mapValid = false →
      exec (.colGet c) s = .next (s.takeFault .state (encode (.colGet c)))) ∧
    (s.here.mapIsOpen = true ∨ s.here.mapValid = true → s.here.map.ncols ≤ c →
      exec (.colGet c) s = .next (s.takeFault .colidx (Word.ofNat c))) ∧
    (s.here.mapIsOpen = true ∨ s.here.mapValid = true → c < s.here.map.ncols → ∀ h : c < 258,
      exec (.colGet c) s = .next (s.put { s.here with
        a0 := s.here.map.col[c].base, a1 := s.here.map.col[c].size,
        a2 := s.here.map.col[c].dev, a3 := s.here.map.col[c].devoff })) ∧
    (s.Inv → s.here.mapIsOpen = true → c < s.here.map.ncols → (s.here.map.entry c).set = false →
      exec (.colGet c) s = .next (s.put { s.here with a0 := 0, a1 := 0, a2 := 0, a3 := 0 }))

/-- 42_map R187: the checks of `MAP_COMMIT` in their order, each with its fault and the column it records, and the effect when
all pass. `S = col[p].size`, `last = cols - 1`; `size != S - SECTOR` is written `size + SECTOR != S`. -/
def Obligations.MapCommitChecksInOrder : Prop :=
  ∀ s : State, s.Ready →
    let m := s.here.map
    let last := m.ncols - 1
    let S := m.size m.p
    let raises (e : Cause) (c : Nat) : Prop := exec .mapCommit s = .next (s.takeFault e (Word.ofNat c))
    let allSet : Prop := ∀ c, c < m.ncols → (m.entry c).set = true
    let good (c : Nat) : Prop :=
      m.size c ≠ 0 ∧ m.size c % s.cfg.sector = 0 ∧ m.base c % 64 = 0 ∧ m.base c + m.size c ≤ s.cfg.memLimit
    let allGood : Prop := ∀ c, c < m.ncols → good c
    let middle : Prop := ∀ c, m.p < c → c < last → m.size c = S
    let lastFits : Prop := m.p < last → m.size last = S ∨ m.size last + s.cfg.sector = S
    (s.here.mapIsOpen = false → exec .mapCommit s = .next (s.takeFault .state (encode .mapCommit))) ∧
    (s.here.mapIsOpen = true →
      (∀ c, c < m.ncols → (m.entry c).set = false → (∀ d, d < c → (m.entry d).set = true) → raises .incomplete c) ∧
      (allSet → ∀ c, c < m.ncols → (∀ d, d < c → good d) →
        (m.size c = 0 → raises .size c) ∧
        (m.size c ≠ 0 → m.size c % s.cfg.sector ≠ 0 → raises .align c) ∧
        (m.size c ≠ 0 → m.size c % s.cfg.sector = 0 → m.base c % 64 ≠ 0 → raises .align c) ∧
        (m.size c ≠ 0 → m.size c % s.cfg.sector = 0 → m.base c % 64 = 0 → s.cfg.memLimit < m.base c + m.size c →
          raises .addr c)) ∧
      (allSet → allGood → ∀ c, m.p < c → c < last → m.size c ≠ S → (∀ d, m.p < d → d < c → m.size d = S) →
        raises .size c) ∧
      (allSet → allGood → middle → m.p < last → m.size last ≠ S → m.size last + s.cfg.sector ≠ S →
        raises .size last) ∧
      (allSet → allGood → middle → lastFits → ∀ c, c < m.p → m.size c ≠ S → (∀ d, d < c → m.size d = S) →
        raises .size c) ∧
      (allSet → allGood → middle → lastFits → (∀ c, c < m.p → m.size c = S) →
        exec .mapCommit s = .next (s.put { s.here with
          mapopen := false, mapv := true, map := { m with psize := (m.entry m.p).size } })))

/-- `MAP_COMMIT` completes exactly on the maps whose columns are all set and that satisfy the layout invariant of 42_map R190
with `psize` the size of the first data column. -/
def Obligations.CommitMeansLayout : Prop :=
  ∀ s : State, s.Inv → s.here.fault = false → s.here.mapIsOpen = true →
    ((∃ t, exec .mapCommit s = .next t ∧ t.here.fault = false) ↔
      (∀ c, c < s.here.map.ncols → (s.here.map.entry c).set = true) ∧
        ({ s.here.map with psize := (s.here.map.entry s.here.map.p).size } : ColMap).Layout s.cfg)

/-- 42_map R188: `MAP_CLOSE`, its check and its effect: every field of the map and of every column becomes 0. -/
def Obligations.MapCloseEffect : Prop :=
  ∀ s : State, s.Ready →
    (s.here.mapIsOpen = false → s.here.mapValid = false →
      exec .mapClose s = .next (s.takeFault .state (encode .mapClose))) ∧
    (s.here.mapIsOpen = true ∨ s.here.mapValid = true →
      exec .mapClose s = .next (s.put { s.here with
        mapopen := false, mapv := false
        map := {
          cols := 0, parity := 0, psize := 0, backend := 0, ioffset := 0, skipstart := 0, bigcols := 0, asize := 0
          missingdata := 0, missingparity := 0
          col := Vector.replicate 258 { dev := 0, devoff := 0, base := 0, size := 0, set := false } } }))

/-! ### The selection commands (45_dispatch) -/

/-- 45_dispatch R283: the three outcomes of `BK_SET`; none of them is a fault. -/
def Obligations.BkSetEffect : Prop :=
  ∀ s : State, s.Ready →
    (∀ b, b < nbk → pack (bkd b).name = s.here.a0 → compiledIn s.cfg.ci b = true →
      (registered s.avail b = true →
        exec .bkSet s = .next { s.put { s.here with res := 0 } with bsel := BitVec.ofNat 8 b }) ∧
      (registered s.avail b = false → exec .bkSet s = .next (s.put { s.here with res := 2 }))) ∧
    ((∀ b, b < nbk → pack (bkd b).name = s.here.a0 → compiledIn s.cfg.ci b = false) →
      exec .bkSet s = .next (s.put { s.here with res := 1 }))

/-- 45_dispatch R284, R285, R282: `BK_AUTO` selects and returns the largest available id, `BK_GET` returns the selection,
`BK_ENUM` returns the packed name of a registered backend (the values of R281) and 0 for every other index. -/
def Obligations.BkAutoGetEnumEffect : Prop :=
  ∀ s : State, s.Ready →
    (∀ b, registered s.avail b = true → (∀ b', registered s.avail b' = true → b' ≤ b) →
      exec .bkAuto s = .next { s.put { s.here with res := Word.ofNat b } with bsel := BitVec.ofNat 8 b }) ∧
    exec .bkGet s = .next (s.put { s.here with res := Word.ofNat s.bsel.toNat }) ∧
    exec (.bkEnum 0) s = .next (s.put { s.here with
      res := if s.avail.getLsbD 0 then 0x000072616C616373 else 0 }) ∧
    exec (.bkEnum 1) s = .next (s.put { s.here with
      res := if s.avail.getLsbD 1 then 0x0000000032787661 else 0 }) ∧
    exec (.bkEnum 2) s = .next (s.put { s.here with
      res := if s.avail.getLsbD 2 then 0x0000323135787661 else 0 }) ∧
    ∀ i, 3 ≤ i → exec (.bkEnum i) s = .next (s.put { s.here with res := 0 })

/-! ### The field commands (40_field section 5) -/

/-- 40_field R135: `GF_MUL`. -/
def Obligations.GfMulEffect : Prop :=
  ∀ (s : State) (a b : Nat), s.Ready →
    (255 < a → exec (.gfMul a b) s = .next (s.takeFault .range (Word.ofNat a))) ∧
    (a ≤ 255 → 255 < b → exec (.gfMul a b) s = .next (s.takeFault .range (Word.ofNat b))) ∧
    (a ≤ 255 → b ≤ 255 → exec (.gfMul a b) s = .next (s.put { s.here with
      res := zext (gfmul (BitVec.ofNat 8 a) (BitVec.ofNat 8 b)) }))

/-- 40_field R136: `GF_EXP2`; the zero test comes before the index check. -/
def Obligations.GfExp2Effect : Prop :=
  ∀ (s : State) (a e : Nat), s.Ready →
    (255 < a → exec (.gfExp2 a e) s = .next (s.takeFault .range (Word.ofNat a))) ∧
    (a = 0 → exec (.gfExp2 a e) s = .next (s.put { s.here with res := 0 })) ∧
    (0 < a → a ≤ 255 → 510 < e + (log2 (BitVec.ofNat 8 a)).toNat →
      exec (.gfExp2 a e) s = .next (s.takeFault .range (Word.ofNat e))) ∧
    (0 < a → a ≤ 255 → e + (log2 (BitVec.ofNat 8 a)).toNat ≤ 510 →
      exec (.gfExp2 a e) s = .next (s.put { s.here with
        res := zext (pow2 (e + (log2 (BitVec.ofNat 8 a)).toNat)) }))

/-- 40_field R137: `GF_FIXEXP`, with the forms of 00_scope R8: `scalar` folds the log, the wide backends expand it. -/
def Obligations.GfFixexpEffect : Prop :=
  ∀ (s : State) (bk e : Nat), s.Ready →
    (registered s.avail bk = false → exec (.gfFixexp bk e) s = .next (s.takeFault .backend (Word.ofNat bk))) ∧
    (registered s.avail bk = true → 510 < e →
      exec (.gfFixexp bk e) s = .next (s.takeFault .range (Word.ofNat e))) ∧
    (registered s.avail bk = true → e ≤ 510 →
      exec (.gfFixexp bk e) s = .next (s.put { s.here with
        res := if bk = 0 then Word.ofNat (if e ≤ 255 then e else e - 255) else zext (pow2 e) }))

/-- 40_field R138, R139: `GF_POW2` and `GF_LOG2` read the two memories. -/
def Obligations.TableReadEffect : Prop :=
  ∀ (s : State) (k : Nat), s.Ready →
    (510 < k → exec (.gfPow2 k) s = .next (s.takeFault .range (Word.ofNat k))) ∧
    (k ≤ 510 → exec (.gfPow2 k) s = .next (s.put { s.here with res := zext (pow2 k) })) ∧
    (255 < k → exec (.gfLog2 k) s = .next (s.takeFault .range (Word.ofNat k))) ∧
    (k ≤ 255 → exec (.gfLog2 k) s = .next (s.put { s.here with res := zext (log2 (BitVec.ofNat 8 k)) }))

/-! ### The field (40_field) and the lane algebra (41_lane R158, R161) -/

/-- 40_field R122, R123, R124: the two memories hold the powers of 2, which run through all non-zero bytes, and their logs. That
the 255 entries are "pairwise distinct and are exactly the 255 non-zero bytes" and that `dbl(pow2[254])` is 1 the spec marks
[derived]; that `log2[0]` holds 0 is the spec's decision (R124). -/
def Obligations.TablesHoldPowersOfTwo : Prop :=
  pow2 0 = 0x01 ∧ (∀ k, k < 254 → pow2 (k + 1) = dbl (pow2 k)) ∧ dbl (pow2 254) = 0x01 ∧
  (∀ j k, j < 255 → k < 255 → pow2 j = pow2 k → j = k) ∧
  (∀ a : Byte, a ≠ 0 ↔ ∃ k, k < 255 ∧ pow2 k = a) ∧
  (∀ k, 255 ≤ k → k ≤ 510 → pow2 k = pow2 (k - 255)) ∧
  (∀ a : Byte, a ≠ 0 → (log2 a).toNat < 255 ∧ pow2 (log2 a).toNat = a) ∧ log2 0 = 0

/-- 40_field R125: `gfmul` by the tables, and its equality with polynomial multiplication modulo `0x11d` for all pairs. -/
def Obligations.ProductIsPolynomial : Prop :=
  ∀ a b : Byte,
    gfmul a b = polymul a b ∧ (a = 0 ∨ b = 0 → gfmul a b = 0) ∧
    (a ≠ 0 → b ≠ 0 →
      gfmul a b = pow2 ((log2 a).toNat + (log2 b).toNat) ∧ (log2 a).toNat + (log2 b).toNat ≤ 508)

/-- The identities of 40_field R130, the laws of R131, inverse and division of R132. -/
def Obligations.FieldRingLaws : Prop :=
  (∀ a b c : Byte,
    gfmul a b = gfmul b a ∧ gfmul (gfmul a b) c = gfmul a (gfmul b c) ∧
    gfmul a (b ^^^ c) = gfmul a b ^^^ gfmul a c ∧ (gfmul a b = 0 ↔ a = 0 ∨ b = 0)) ∧
  (∀ a : Byte, gfmul a 1 = a ∧ gfmul a 2 = dbl a ∧ a ^^^ a = 0 ∧ (a ≠ 0 → gfmul a (inv a) = 1)) ∧
  (∀ a b : Byte, b ≠ 0 → gfmul (gfdiv a b) b = a) ∧
  (∀ e, exp2 0 e = 0) ∧ (∀ k, k ≤ 254 → (log2 (pow2 k)).toNat = k)

/-- 40_field R133: powers of 2 agree exactly when the exponents agree modulo 255, and so distinct columns have distinct
coefficients `2^j` and `4^j`. -/
def Obligations.DistinctPowers : Prop :=
  (∀ j k : Int, pow2 (m255 j) = pow2 (m255 k) ↔ j % 255 = k % 255) ∧
  (∀ j k : Nat, j < k → k ≤ 254 → pow2 j ≠ pow2 k ∧ pow2 (m255 (2 * (j : Int))) ≠ pow2 (m255 (2 * (k : Int))))

/-- 40_field R129: both multiply forms give the field product of the byte and `2^e`; and the laws of 41_lane R161 per byte,
for either form. -/
def Obligations.MultiplyFormsAgree : Prop :=
  (∀ (b : Nat) (e : Nat) (v : Byte), b < nbk → e ≤ 510 →
    mulc (bkd b).form (fixMulExp (bkd b).form e) v = gfmul v (pow2 e)) ∧
  (∀ (form : Form) (u v : Byte) (e g : Nat), e ≤ 510 → g ≤ 510 →
    dbl v = mlog form v 1 ∧ dbl (dbl v) = mlog form v 2 ∧ mlog form v 0 = v ∧ v ^^^ v = 0 ∧
    mlog form (u ^^^ v) e = mlog form u e ^^^ mlog form v e ∧
    mlog form (mlog form v e) g = mlog form v (m255 ((e : Int) + g)))

/-- 41_lane R158: the branch-free word form doubles each of the eight bytes of a word on its own. -/
def Obligations.WordDoublingIsBytewise : Prop :=
  ∀ (x : Word) (k : Nat), k < 8 → (dblWord x).extractLsb' (8 * k) 8 = dbl (x.extractLsb' (8 * k) 8)

/-! ### The lane commands (41_lane) -/

/-- 41_lane R152: `LANE_WIDTH`, with the widths of 00_scope R8. -/
def Obligations.LaneWidthEffect : Prop :=
  ∀ (s : State) (bk : Nat), s.Ready →
    (registered s.avail bk = false → exec (.laneWidth bk) s = .next (s.takeFault .backend (Word.ofNat bk))) ∧
    (registered s.avail bk = true →
      exec (.laneWidth bk) s = .next (s.put { s.here with
        res := if bk = 0 then 8 else if bk = 1 then 32 else 64 }))

/-- 41_lane R153: `LANE_LOAD` puts the byte at `A0 + k` into lane byte `k` below the width and 0 above it; everything else,
memory included, is unchanged. -/
def Obligations.LaneLoadEffect : Prop :=
  ∀ (s : State) (bk vd : Nat), s.Ready → registered s.avail bk = true → vd ≤ 15 →
    s.here.a0.toNat % (bkd bk).width = 0 → s.here.a0.toNat + (bkd bk).width ≤ s.cfg.memLimit →
    ∃ l : Lane, exec (.laneLoad bk vd) s = .next (s.put { s.here with v := s.here.v.setIfInBounds vd l }) ∧
      ∀ k (h : k < 64), l[k] = if k < (bkd bk).width then s.mem.read (s.here.a0.toNat + k) else 0

/-- 41_lane R154: `LANE_STORE` writes exactly the bytes below the width at `A0`, and nothing else. -/
def Obligations.LaneStoreEffect : Prop :=
  ∀ (s : State) (bk vs : Nat), s.Ready → registered s.avail bk = true → ∀ h : vs ≤ 15,
    s.here.a0.toNat % (bkd bk).width = 0 → s.here.a0.toNat + (bkd bk).width ≤ s.cfg.memLimit →
    ∃ m : Memory, exec (.laneStore bk vs) s = .next { s with mem := m } ∧
      (∀ k (hk : k < 64), k < (bkd bk).width → m.read (s.here.a0.toNat + k) = (s.here.v[vs])[k]) ∧
      ∀ a, ¬ (s.here.a0.toNat ≤ a ∧ a < s.here.a0.toNat + (bkd bk).width) → m.read a = s.mem.read a

/-- 41_lane R155, R156, R157, R159: the lane arithmetic, byte by byte below the width and 0 above it, from the sources as they
were before the command. For `LANE_MULC` the result "r[k] = gfmul(V[vs][k], pow2[e]) whatever the backend's form" is by 40_field
R129, which the spec marks [derived]. -/
def Obligations.LaneArithmeticEffect : Prop :=
  ∀ (s : State) (bk vd v1 v2 e : Nat), s.Ready → registered s.avail bk = true → vd ≤ 15 → ∀ (h1 : v1 ≤ 15) (h2 : v2 ≤ 15),
    (∃ l : Lane, exec (.laneXor bk vd v1 v2) s = .next (s.put { s.here with v := s.here.v.setIfInBounds vd l }) ∧
      ∀ k (h : k < 64), l[k] = if k < (bkd bk).width then (s.here.v[v1])[k] ^^^ (s.here.v[v2])[k] else 0) ∧
    (∃ l : Lane, exec (.laneMul2 bk vd v1) s = .next (s.put { s.here with v := s.here.v.setIfInBounds vd l }) ∧
      ∀ k (h : k < 64), l[k] = if k < (bkd bk).width then dbl (s.here.v[v1])[k] else 0) ∧
    (∃ l : Lane, exec (.laneMul4 bk vd v1) s = .next (s.put { s.here with v := s.here.v.setIfInBounds vd l }) ∧
      ∀ k (h : k < 64), l[k] = if k < (bkd bk).width then dbl (dbl (s.here.v[v1])[k]) else 0) ∧
    (e ≤ 510 →
      ∃ l : Lane, exec (.laneMulc bk vd v1 e) s = .next (s.put { s.here with v := s.here.v.setIfInBounds vd l }) ∧
        ∀ k (h : k < 64), l[k] = if k < (bkd bk).width then gfmul (s.here.v[v1])[k] (pow2 e) else 0)

/-- The checks of the lane commands in the order of 41_lane R151, with the values they record. -/
def Obligations.LaneChecksInOrder : Prop :=
  ∀ (s : State) (bk f0 f1 f2 : Nat), s.Ready →
    (registered s.avail bk = false →
      ∀ i ∈ [Instr.laneLoad bk f0, .laneStore bk f0, .laneXor bk f0 f1 f2, .laneMul2 bk f0 f1, .laneMul4 bk f0 f1,
        .laneMulc bk f0 f1 f2], exec i s = .next (s.takeFault .backend (Word.ofNat bk))) ∧
    (registered s.avail bk = true → 15 < f0 →
      ∀ i ∈ [Instr.laneLoad bk f0, .laneStore bk f0, .laneXor bk f0 f1 f2, .laneMul2 bk f0 f1, .laneMul4 bk f0 f1,
        .laneMulc bk f0 f1 f2], exec i s = .next (s.takeFault .range (Word.ofNat f0))) ∧
    (registered s.avail bk = true → f0 ≤ 15 → 15 < f1 →
      ∀ i ∈ [Instr.laneXor bk f0 f1 f2, .laneMul2 bk f0 f1, .laneMul4 bk f0 f1, .laneMulc bk f0 f1 f2],
        exec i s = .next (s.takeFault .range (Word.ofNat f1))) ∧
    (registered s.avail bk = true → f0 ≤ 15 → f1 ≤ 15 → 15 < f2 →
      exec (.laneXor bk f0 f1 f2) s = .next (s.takeFault .range (Word.ofNat f2))) ∧
    (registered s.avail bk = true → f0 ≤ 15 → f1 ≤ 15 → 510 < f2 →
      exec (.laneMulc bk f0 f1 f2) s = .next (s.takeFault .range (Word.ofNat f2))) ∧
    (registered s.avail bk = true → f0 ≤ 15 → s.here.a0.toNat % (bkd bk).width ≠ 0 →
      ∀ i ∈ [Instr.laneLoad bk f0, .laneStore bk f0], exec i s = .next (s.takeFault .align s.here.a0)) ∧
    (registered s.avail bk = true → f0 ≤ 15 → s.here.a0.toNat % (bkd bk).width = 0 →
      s.cfg.memLimit < s.here.a0.toNat + (bkd bk).width →
      ∀ i ∈ [Instr.laneLoad bk f0, .laneStore bk f0], exec i s = .next (s.takeFault .addr s.here.a0))

/-- 41_lane R150: for two backends, the bytes of a lane result below the narrower width are the same under both. -/
def Obligations.LaneBytesIgnoreWidth : Prop :=
  ∀ (s t t' : State) (b b' vd v1 v2 e : Nat), s.Ready → registered s.avail b = true → registered s.avail b' = true →
    (bkd b).width ≤ (bkd b').width →
    ∀ i ∈ [(Instr.laneLoad b vd, Instr.laneLoad b' vd), (.laneXor b vd v1 v2, .laneXor b' vd v1 v2),
      (.laneMul2 b vd v1, .laneMul2 b' vd v1), (.laneMul4 b vd v1, .laneMul4 b' vd v1),
      (.laneMulc b vd v1 e, .laneMulc b' vd v1 e)],
      exec i.1 s = .next t → exec i.2 s = .next t' → t.here.fault = false → t'.here.fault = false →
      ∀ k, k < (bkd b).width → t.vbyte vd k = t'.vbyte vd k

/-! ### The parity generator (43_generation) -/

/-- 43_generation R215, R217 to R220: on a map whose buffers are its own, a generation command overwrites its parity columns
with the correct parity of R212 (the sum over the data columns, per byte offset) and changes nothing else; on a map with too
few parity columns it faults. -/
def Obligations.GenerationEffect : Prop :=
  ∀ s : State, s.Computes →
    let m := s.here.map
    let generates (i : Instr) (k : Nat) : Prop :=
      ∃ mem : Memory, exec i s = .next { s with mem := mem } ∧
        (∀ j : Par, j.index < k → ∀ o, o < m.psize.toNat → mem.read (m.base j.index + o) = m.sumByte s.mem j o) ∧
        ∀ a, (∀ j, j < k → ¬ (m.base j ≤ a ∧ a < m.base j + m.psize.toNat)) → mem.read a = s.mem.read a
    generates .gen m.p ∧ generates .genP 1 ∧
    (2 ≤ m.p → generates .genPQ 2) ∧ (m.p < 2 → exec .genPQ s = .next (s.takeFault .parityWidth 2)) ∧
    (m.p = 3 → generates .genPQR 3) ∧ (m.p < 3 → exec .genPQR s = .next (s.takeFault .parityWidth 3))

/-- 43_generation R213: the recurrence computes the sums of R212. -/
def Obligations.HornerIsSum : Prop :=
  ∀ (m : ColMap) (mem : Memory) (j : Par) (o : Nat), m.genByte mem j o = m.sumByte mem j o

/-- 43_generation R222: a generation command issued twice over unchanged data writes the same bytes twice, and the parity it
writes is a function of the data columns and the layout only, the same under every backend. -/
def Obligations.GenerationRepeats : Prop :=
  ∀ (s : State), s.Computes → ∀ i ∈ [Instr.gen, .genP, .genPQ, .genPQR], ∀ t, exec i s = .next t → t.here.fault = false →
    exec i t = .next t ∧
    ∀ (mem : Memory) (b : Nat) (t' : State), mem.wf = true → registered s.avail b = true →
      (∀ c, s.here.map.p ≤ c → c < s.here.map.ncols → ∀ a, s.here.map.holds c a → mem.read a = s.mem.read a) →
      exec i ({ s with mem := mem }.onBackend b) = .next t' →
      ∀ j k, (i = .gen ∧ k = s.here.map.p) ∨ (i = .genP ∧ k = 1) ∨ (i = .genPQ ∧ k = 2) ∨ (i = .genPQR ∧ k = 3) → j < k →
        ∀ a, s.here.map.holds j a → t'.mem.read a = t.mem.read a

/-- 43_generation R221 and R223: the parity of one data column is a copy of it, parity is linear in the data, and all-zero data
has all-zero parity. -/
def Obligations.ParityIsLinear : Prop :=
  ∀ (m : ColMap) (j : Par) (o : Nat),
    (∀ mem : Memory, m.ncols = m.p + 1 → m.genByte mem j o = m.padded mem m.p o) ∧
    (∀ mem mem' mem'' : Memory,
      (∀ c, m.p ≤ c → c < m.ncols → m.padded mem'' c o = m.padded mem c o ^^^ m.padded mem' c o) →
      m.genByte mem'' j o = m.genByte mem j o ^^^ m.genByte mem' j o) ∧
    (∀ mem : Memory, (∀ c, m.p ≤ c → c < m.ncols → m.padded mem c o = 0) → m.genByte mem j o = 0)

/-! ### The reconstruction solver (44_reconstruction) -/

/-- 44_reconstruction R243, R244, R245: the three cases of one target, with their coefficients. `RES` and the missing counts are
written (R270, R271), every byte outside the target column is unchanged (R237). -/
def Obligations.RecOneTarget : Prop :=
  ∀ (s : State) (x : Nat), s.Computes → s.here.map.p ≤ x → x < s.here.map.ncols →
    let m := s.here.map
    let restores (i : Instr) (dx : Nat → Byte) : Prop :=
      ∃ mem : Memory,
        exec i s = .next { s.put { s.here with
          res := 0x1, map := { m with missingdata := 1, missingparity := 0 } } with mem := mem } ∧
        (∀ o, o < m.size x → mem.read (m.base x + o) = dx o) ∧
        ∀ a, ¬ m.holds x a → mem.read a = s.mem.read a
    restores (.recP x) (fun o => m.synByte s.mem .P [x] o) ∧
    (2 ≤ m.p → restores (.recQ x) fun o => timesPow (m.synByte s.mem .Q [x] o) (-(m.dist x : Int))) ∧
    (3 ≤ m.p → restores (.recR x) fun o => timesPow (m.synByte s.mem .R [x] o) (-2 * (m.dist x : Int)))

/-- 44_reconstruction R248, R249, R251 (with R246, R250): the three cases of two targets by their coefficient logs, equal to the
closed forms; the shorter target is truncated (R236). -/
def Obligations.RecTwoTargets : Prop :=
  ∀ (s : State) (x y : Nat), s.Computes → s.here.map.p ≤ x → x < y → y < s.here.map.ncols →
    let m := s.here.map
    let ex : Int := m.dist x
    let ey : Int := m.dist y
    let P (o : Nat) : Byte := m.synByte s.mem .P [x, y] o
    let Q (o : Nat) : Byte := m.synByte s.mem .Q [x, y] o
    let R (o : Nat) : Byte := m.synByte s.mem .R [x, y] o
    let restores (i : Instr) (dx dy : Nat → Byte) : Prop :=
      ∃ mem : Memory,
        exec i s = .next { s.put { s.here with
          res := 0x3, map := { m with missingdata := 2, missingparity := 0 } } with mem := mem } ∧
        (∀ o, o < m.size x → mem.read (m.base x + o) = dx o) ∧
        (∀ o, o < m.size y → mem.read (m.base y + o) = dy o) ∧
        ∀ a, ¬ m.holds x a → ¬ m.holds y a → mem.read a = s.mem.read a
    let tQ : Int := -((log2 (pow2 (m255 (ey - ex)) ^^^ 1)).toNat : Int)
    let xPQ (o : Nat) : Byte := timesPow (P o) (ey - ex + tQ) ^^^ timesPow (Q o) (-ex + tQ)
    let tR : Int := -((log2 (pow2 (m255 (2 * (ey - ex))) ^^^ 1)).toNat : Int)
    let xPR (o : Nat) : Byte := timesPow (P o) (2 * (ey - ex) + tR) ^^^ timesPow (R o) (-2 * ex + tR)
    let ld : Int := ((log2 (m.aCoef x ^^^ m.aCoef y)).toNat : Int)
    let xQR (o : Nat) : Byte := timesPow (Q o) (ey - ex - ld) ^^^ timesPow (R o) (-ex - ld)
    let yQR (o : Nat) : Byte := timesPow (Q o) (ex - ey - ld) ^^^ timesPow (R o) (-ey - ld)
    (2 ≤ m.p →
      restores (.recPQ x y) xPQ (fun o => P o ^^^ xPQ o) ∧
      ∀ o, xPQ o = gfdiv (Q o ^^^ gfmul (m.aCoef y) (P o)) (m.aCoef x ^^^ m.aCoef y)) ∧
    (3 ≤ m.p →
      restores (.recPR x y) xPR (fun o => P o ^^^ xPR o) ∧
      (∀ o, xPR o = gfdiv (R o ^^^ gfmul (m.bCoef y) (P o)) (m.bCoef x ^^^ m.bCoef y)) ∧
      restores (.recQR x y) xQR yQR ∧
      ∀ o, xQR o = gfdiv (gfmul (m.aCoef y) (Q o) ^^^ R o) (gfmul (m.aCoef x) (m.aCoef x ^^^ m.aCoef y)))

/-- 44_reconstruction R255 with the pivots and coefficients of R254: the case of three targets. -/
def Obligations.RecThreeTargets : Prop :=
  ∀ (s : State) (x y z : Nat), s.Computes → s.here.map.p = 3 → 3 ≤ x → x < y → y < z → z < s.here.map.ncols →
    let m := s.here.map
    let ex : Int := m.dist x
    let ey : Int := m.dist y
    let ez : Int := m.dist z
    let lg2 (a b : Byte) : Int := ((log2 (a ^^^ b)).toNat : Int)
    let lxd : Int := lg2 (m.aCoef x) (m.aCoef y) + lg2 (m.aCoef x) (m.aCoef z)
    let lyd : Int := lg2 (m.aCoef y) (m.aCoef x) + lg2 (m.aCoef y) (m.aCoef z)
    let P (o : Nat) : Byte := m.synByte s.mem .P [x, y, z] o
    let Q (o : Nat) : Byte := m.synByte s.mem .Q [x, y, z] o
    let R (o : Nat) : Byte := m.synByte s.mem .R [x, y, z] o
    let dx (o : Nat) : Byte := timesPow (P o) (ey + ez - lxd)
      ^^^ timesPow (Q o) (lg2 (m.aCoef y) (m.aCoef z) - lxd) ^^^ timesPow (R o) (-lxd)
    let dy (o : Nat) : Byte := timesPow (P o) (ex + ez - lyd)
      ^^^ timesPow (Q o) (lg2 (m.aCoef x) (m.aCoef z) - lyd) ^^^ timesPow (R o) (-lyd)
    ∃ mem : Memory,
      exec (.recPQR x y z) s = .next { s.put { s.here with
        res := 0x7, map := { m with missingdata := 3, missingparity := 0 } } with mem := mem } ∧
      (∀ o, o < m.size x → mem.read (m.base x + o) = dx o) ∧
      (∀ o, o < m.size y → mem.read (m.base y + o) = dy o) ∧
      (∀ o, o < m.size z → mem.read (m.base z + o) = P o ^^^ dx o ^^^ dy o) ∧
      ∀ a, ¬ m.holds x a → ¬ m.holds y a → ¬ m.holds z a → mem.read a = s.mem.read a

/-- 44_reconstruction R261: on a list that passes the checks before it, `REC` does what the explicit command of the selection
table does on the data targets, except that it records the number of damaged parity columns (R262, R270); where the table has no
command it raises `E_PARITY_WIDTH` with the number of data targets. -/
def Obligations.RecSelects : Prop :=
  ∀ (s : State) (nt t0 t1 t2 : Nat), s.Computes → 1 ≤ nt → nt ≤ 3 → (nt < 2 → t1 = 0) → (nt < 3 → t2 = 0) →
    let m := s.here.map
    let ts := damagedList nt t0 t1 t2
    (∀ t ∈ ts, t < m.ncols) → ts.Pairwise (· < ·) → m.damagedData ts ≠ [] →
    (∀ k, recTable m.p (m.damagedParity ts) (m.damagedData ts) = some k →
      ∃ t, exec k.instr s = .next t ∧ t.here.fault = false ∧
        exec (.recList nt t0 t1 t2) s = .next (t.put { t.here with
          map := { t.here.map with missingparity := BitVec.ofNat 2 (m.damagedParity ts).length } })) ∧
    (recTable m.p (m.damagedParity ts) (m.damagedData ts) = none →
      exec (.recList nt t0 t1 t2) s =
        .next (s.takeFault .parityWidth (Word.ofNat (m.damagedData ts).length)))

/-- The checks of the generation commands (43_generation R215), of the explicit reconstruction commands (44_reconstruction R238)
and of `REC` (R262) on a valid map, in their order, with the values they record. -/
def Obligations.ComputeChecksInOrder : Prop :=
  ∀ s : State, s.Ready → s.here.mapValid = true →
    let m := s.here.map
    let raises (i : Instr) (e : Cause) (v : Word) : Prop := exec i s = .next (s.takeFault e v)
    (m.p < 1 → raises .genP .parityWidth 1) ∧ (m.p < 2 → raises .genPQ .parityWidth 2) ∧
    (m.p < 3 → raises .genPQR .parityWidth 3) ∧
    (∀ k : RecCase,
      (m.p < k.needs → raises k.instr .parityWidth (Word.ofNat k.needs)) ∧
      (k.needs ≤ m.p → ∀ before t after, k.targets = before ++ t :: after →
        (∀ u ∈ before, m.p ≤ u ∧ u < m.ncols) → ¬ (m.p ≤ t ∧ t < m.ncols) →
        raises k.instr .colidx (Word.ofNat t)) ∧
      (k.needs ≤ m.p → (∀ t ∈ k.targets, m.p ≤ t ∧ t < m.ncols) → ¬ k.targets.Pairwise (· < ·) →
        raises k.instr .targets (encode k.instr))) ∧
    (∀ nt t0 t1 t2 : Nat,
      let ts := damagedList nt t0 t1 t2
      let i := Instr.recList nt t0 t1 t2
      let countOk : Prop := 1 ≤ nt ∧ nt ≤ 3 ∧ (nt < 2 → t1 = 0) ∧ (nt < 3 → t2 = 0)
      (¬ countOk → raises i .targets (encode i)) ∧
      (countOk → ∀ before t after, ts = before ++ t :: after → (∀ u ∈ before, u < m.ncols) → m.ncols ≤ t →
        raises i .colidx (Word.ofNat t)) ∧
      (countOk → (∀ t ∈ ts, t < m.ncols) → ¬ ts.Pairwise (· < ·) ∨ m.damagedData ts = [] →
        raises i .targets (encode i)) ∧
      (countOk → (∀ t ∈ ts, t < m.ncols) → ts.Pairwise (· < ·) → m.damagedData ts ≠ [] →
        m.p < (m.damagedParity ts).length + (m.damagedData ts).length →
        raises i .parityWidth (Word.ofNat (m.damagedData ts).length)))

/-- 44_reconstruction R234: for every right-hand side, consistent or not, the bytes a case computes are the one solution of its
system (R233), under either multiply form. -/
def Obligations.SolveIsTheUniqueSolution : Prop :=
  ∀ (form : Form) (m : ColMap) (k : RecCase) (syn : Par → Byte) (xs : List Byte),
    k.Fits m → m.ncols ≤ m.p + ndataMax →
    (k.Solves m syn xs ↔ k.solve form m (syn .P) (syn .Q) (syn .R) = xs)

/-- 44_reconstruction R256: if the parity columns a case uses were generated from memory `m0`, and the surviving data columns and
those parity columns still hold what they held then, the case's command restores every target column to what `m0` holds,
whatever the targets held in between, and writes no other byte. -/
def Obligations.ReconstructionRoundTrip : Prop :=
  ∀ (s : State) (k : RecCase) (m0 : Memory), s.Computes → k.Fits s.here.map →
    let m := s.here.map
    m.ConsistentOn m0 k.rows →
    (∀ c, m.p ≤ c → c < m.ncols → c ∉ k.targets → ∀ a, m.holds c a → s.mem.read a = m0.read a) →
    (∀ j ∈ k.rows, ∀ a, m.holds j.index a → s.mem.read a = m0.read a) →
    ∃ t, exec k.instr s = .next t ∧
      (∀ c ∈ k.targets, ∀ a, m.holds c a → t.mem.read a = m0.read a) ∧
      ∀ a, (∀ c ∈ k.targets, ¬ m.holds c a) → t.mem.read a = s.mem.read a

/-- 45_dispatch R288: a compute command does the same whichever registered backend is cached on the map: the same bytes written,
the same registers and map fields, the same fault, and the same stop where the buffers are not the map's own. -/
def Obligations.CrossBackendEquivalence : Prop :=
  ∀ (i : Instr) (s : State) (b b' : Nat), i.compute = true → s.Ready →
    registered s.avail b = true → registered s.avail b' = true →
    (∀ t, exec i (s.onBackend b) = .next t → exec i (s.onBackend b') = .next (t.onBackend b')) ∧
    (∀ r, exec i (s.onBackend b) = .fault r → exec i (s.onBackend b') = .fault r) ∧
    (∀ r, exec i (s.onBackend b) = .refused r → exec i (s.onBackend b') = .refused r)
end

