-- ==== Sys2Proof/Laws/ByteOrder.lean ====
section
/-! SUPPORT. The bytes of a register built from bytes: the first byte lies at offset 0, the others one further
(20_memory R65). -/

namespace Sys2Proof.Machine

@[simp] theorem regOfBytes_nil : regOfBytes [] = 0#64 := rfl

theorem regOfBytes_cons (b : Byte) (bs : List Byte) : regOfBytes (b :: bs) = (regOfBytes bs <<< 8) ||| b.setWidth 64 := rfl

@[simp] theorem regByte_zero (k : Nat) : regByte 0#64 k = 0#8 := by
  simp [regByte]

@[simp] theorem regByte_cons_first (b : Byte) (bs : List Byte) : regByte (regOfBytes (b :: bs)) 0 = b := by
  ext i hi
  simp [regByte, regOfBytes_cons, hi, Nat.lt_of_lt_of_le hi (by decide : 8 ≤ 64)]

/-- Within the slot, a byte after the first is the byte of the rest one offset earlier. -/
theorem regByte_cons_later (b : Byte) (bs : List Byte) {k : Nat} (hk : k < 7) :
    regByte (regOfBytes (b :: bs)) (k + 1) = regByte (regOfBytes bs) k := by
  ext i hi
  have h1 : 8 * (k + 1) + i < 64 := by omega
  have h2 : ¬ 8 * (k + 1) + i < 8 := by omega
  have h3 : 8 * (k + 1) + i - 8 = 8 * k + i := by omega
  have h4 : b.getLsbD (8 * (k + 1) + i) = false := BitVec.getLsbD_of_ge b _ (by omega)
  have h5 : 8 * k + i < 64 := by omega
  simp [regByte, regOfBytes_cons, h1, h2, h3, h4, ← BitVec.getLsbD_eq_getElem h5]

/-- Every byte of a register built from at most 8 bytes. -/
theorem regByte_regOfBytes {bs : List Byte} (hl : bs.length ≤ 8) {k : Nat} (hk : k < 8) :
    regByte (regOfBytes bs) k = bs[k]?.getD 0 := by
  induction bs generalizing k with
  | nil => simp
  | cons b bs ih =>
    simp only [List.length_cons] at hl
    cases k with
    | zero => simp
    | succ k => rw [regByte_cons_later b bs (by omega), ih (by omega) (by omega)]; simp

end Sys2Proof.Machine
end

