-- ==== Sys2Proof/Laws/Memory.lean ====
section
/-! SUPPORT. Buffer memory: a read after a write, the canonical form, reading many bytes at once. -/

namespace Sys2Proof.Machine

/-! ### Looking up one address -/

theorem lookup_cell (c : Host.Cell) (m : Memory) (a : Nat) :
    (c :: m).lookup a = if a = c.1 then some c.2 else m.lookup a := by
  obtain ⟨k, b⟩ := c
  rw [List.lookup_cons]
  by_cases h : a = k
  · simp [h]
  · rw [beq_eq_false_iff_ne.2 h]
    simp [h]

theorem lookup_filter_of_pos (m : Memory) (p : Nat → Bool) (a : Nat) (h : p a = true) :
    (m.filter fun c => p c.1).lookup a = m.lookup a := by
  induction m with
  | nil => rfl
  | cons c m ih =>
    by_cases hc : p c.1 = true
    · simp only [List.filter_cons, hc, if_true, lookup_cell, ih]
    · have : a ≠ c.1 := by rintro rfl; exact hc h
      rw [List.filter_cons, if_neg hc, ih, lookup_cell, if_neg this]

theorem lookup_filter_of_neg (m : Memory) (p : Nat → Bool) (a : Nat) (h : p a = false) :
    (m.filter fun c => p c.1).lookup a = none := by
  induction m with
  | nil => rfl
  | cons c m ih =>
    by_cases hc : p c.1 = true
    · have : a ≠ c.1 := by rintro rfl; simp [h] at hc
      simp only [List.filter_cons, hc, if_true, lookup_cell, this, if_false, ih]
    · simp only [List.filter_cons, hc]
      exact ih

theorem cellsAt_nil (addr : Nat) : cellsAt addr [] = [] := rfl

theorem cellsAt_cons (addr : Nat) (b : Byte) (bs : List Byte) :
    cellsAt addr (b :: bs) = (addr, b) :: cellsAt (addr + 1) bs := rfl

theorem lookup_cellsAt (bs : List Byte) (addr a : Nat) :
    (cellsAt addr bs).lookup a = if addr ≤ a then bs[a - addr]? else none := by
  induction bs generalizing addr with
  | nil => simp [cellsAt_nil]
  | cons b bs ih =>
    rw [cellsAt_cons, lookup_cell, ih]
    rcases Nat.lt_trichotomy a addr with h | h | h
    · simp [show a ≠ addr by omega, show ¬ addr ≤ a by omega, show ¬ addr + 1 ≤ a by omega]
    · subst h; simp
    · obtain ⟨k, rfl⟩ : ∃ k, a = addr + 1 + k := ⟨a - addr - 1, by omega⟩
      simp [show addr + 1 + k ≠ addr by omega, show addr ≤ addr + 1 + k by omega, show addr + 1 + k - addr = k + 1 by omega]

/-- What `MemWrite` does to `Mem` (20_memory R63): the bytes go to their addresses, nothing else changes. -/
theorem read_write (m : Memory) (addr : Nat) (bytes : List Byte) (a : Nat) :
    (m.write addr bytes).read a =
      if addr ≤ a ∧ a < addr + bytes.length then bytes.getD (a - addr) 0 else m.read a := by
  unfold Memory.read Memory.write
  rw [List.lookup_append, List.lookup_append, lookup_cellsAt]
  rcases Nat.lt_or_ge a addr with h | h
  · rw [lookup_filter_of_pos m (fun x => decide (x < addr)) a (by simpa using h),
      lookup_filter_of_neg m (fun x => decide (addr + bytes.length ≤ x)) a (by simp; omega)]
    simp [show ¬ addr ≤ a by omega]
  · rw [lookup_filter_of_neg m (fun x => decide (x < addr)) a (by simpa using h)]
    rcases Nat.lt_or_ge a (addr + bytes.length) with h2 | h2
    · have : a - addr < bytes.length := by omega
      simp [h, h2, this]
    · rw [lookup_filter_of_pos m (fun x => decide (addr + bytes.length ≤ x)) a (by simpa using h2)]
      simp [show ¬ a < addr + bytes.length by omega, h, List.getElem?_eq_none (show bytes.length ≤ a - addr by omega)]

theorem read_write_in (m : Memory) (addr : Nat) (bytes : List Byte) {a k : Nat} (ha : a = addr + k)
    (h : k < bytes.length) : (m.write addr bytes).read a = bytes.getD k 0 := by
  subst ha
  rw [read_write, if_pos ⟨by omega, by omega⟩, Nat.add_sub_cancel_left]

theorem read_write_out (m : Memory) (addr : Nat) (bytes : List Byte) {a : Nat}
    (h : ¬ (addr ≤ a ∧ a < addr + bytes.length)) : (m.write addr bytes).read a = m.read a := by
  rw [read_write, if_neg h]

/-! ### The canonical form is kept -/

theorem wf_iff (m : Memory) : m.wf = true ↔ m.Pairwise fun x y => x.1 < y.1 := by simp [Memory.wf]

theorem mem_cellsAt {bs : List Byte} {addr : Nat} {c : Host.Cell} (h : c ∈ cellsAt addr bs) :
    addr ≤ c.1 ∧ c.1 < addr + bs.length := by
  induction bs generalizing addr with
  | nil => simp [cellsAt_nil] at h
  | cons b bs ih =>
    rw [cellsAt_cons, List.mem_cons] at h
    rcases h with rfl | h
    · simp
    · have := ih h; simp; omega

theorem cellsAt_pairwise (bs : List Byte) (addr : Nat) : (cellsAt addr bs).Pairwise fun x y => x.1 < y.1 := by
  induction bs generalizing addr with
  | nil => simp [cellsAt_nil]
  | cons b bs ih =>
    rw [cellsAt_cons, List.pairwise_cons]
    exact ⟨fun c hc => by have := mem_cellsAt hc; simp; omega, ih (addr + 1)⟩

theorem write_wf {m : Memory} (addr : Nat) (bytes : List Byte) (h : m.wf = true) :
    (m.write addr bytes).wf = true := by
  rw [wf_iff] at h ⊢
  unfold Memory.write
  rw [List.pairwise_append, List.pairwise_append]
  refine ⟨⟨h.filter _, cellsAt_pairwise bytes addr, ?_⟩, h.filter _, ?_⟩
  · intro x hx y hy
    have := mem_cellsAt hy
    simp only [List.mem_filter, decide_eq_true_eq] at hx
    omega
  · intro x hx y hy
    simp only [List.mem_filter, decide_eq_true_eq] at hy
    rw [List.mem_append] at hx
    rcases hx with hx | hx
    · simp only [List.mem_filter, decide_eq_true_eq] at hx; omega
    · have := mem_cellsAt hx; omega

theorem below_iff (m : Memory) (limit : Nat) : m.below limit = true ↔ ∀ c ∈ m, c.1 < limit := by
  simp [Memory.below, List.all_eq_true]

theorem write_below {m : Memory} {limit : Nat} (addr : Nat) (bytes : List Byte) (h : m.below limit = true)
    (hb : addr + bytes.length ≤ limit) : (m.write addr bytes).below limit = true := by
  rw [below_iff] at h ⊢
  intro c hc
  unfold Memory.write at hc
  simp only [List.mem_append, List.mem_filter, decide_eq_true_eq] at hc
  rcases hc with (hc | hc) | hc
  · exact h c hc.1
  · have := mem_cellsAt hc; omega
  · exact h c hc.1

theorem reset_memory_wf : State.reset.mem.wf = true := by decide

/-! ### Reading many bytes in one pass -/

@[simp] theorem readFrom_length (m : Memory) (a n : Nat) : (m.readFrom a n).length = n := by
  induction n generalizing m a with
  | zero => simp [Memory.readFrom]
  | succ n ih => cases m with
    | nil => simp [Memory.readFrom, ih]
    | cons c m => rw [Memory.readFrom]; split <;> simp [ih]

@[simp] theorem readBytes_length (m : Memory) (a n : Nat) : (m.readBytes a n).length = n := by
  simp [Memory.readBytes]

theorem readFrom_eq (m : Memory) (a n : Nat) (hwf : m.Pairwise fun x y => x.1 < y.1) (hge : ∀ c ∈ m, a ≤ c.1) :
    m.readFrom a n = (List.range' a n).map m.read := by
  induction n generalizing m a with
  | zero => simp [Memory.readFrom]
  | succ n ih =>
    cases m with
    | nil =>
      rw [Memory.readFrom, ih [] (a + 1) List.Pairwise.nil (by simp), List.range'_succ, List.map_cons]
      rfl
    | cons c m =>
      rw [List.pairwise_cons] at hwf
      have hc := hge c (by simp)
      rw [Memory.readFrom, List.range'_succ, List.map_cons]
      split
      · rename_i h
        rw [ih m (a + 1) hwf.2 (fun d hd => by have := hwf.1 d hd; omega)]
        congr 1
        · simp [Memory.read, lookup_cell, h]
        · apply List.map_congr_left
          intro b hb
          rw [List.mem_range'_1] at hb
          simp [Memory.read, lookup_cell, show b ≠ c.1 by omega]
      · rename_i h
        rw [ih (c :: m) (a + 1) (List.pairwise_cons.2 hwf) (fun d hd => by
          rw [List.mem_cons] at hd
          rcases hd with rfl | hd
          · omega
          · have := hwf.1 d hd; omega)]
        congr 1
        have : ∀ d ∈ c :: m, ¬ (a = d.1) := by
          intro d hd
          rw [List.mem_cons] at hd
          rcases hd with rfl | hd
          · omega
          · have := hwf.1 d hd; omega
        have hn : (c :: m).lookup a = none := by
          rw [List.lookup_eq_none_iff]; intro d hd; simpa using this d hd
        simp [Memory.read, hn]

theorem lookup_dropWhile (m : Memory) (addr b : Nat) (hwf : m.Pairwise fun x y => x.1 < y.1) (hb : addr ≤ b) :
    (m.dropWhile fun c => decide (c.1 < addr)).lookup b = m.lookup b := by
  induction m with
  | nil => rfl
  | cons c m ih =>
    rw [List.pairwise_cons] at hwf
    rw [List.dropWhile_cons]
    split
    · rename_i h
      rw [decide_eq_true_eq] at h
      rw [ih hwf.2, lookup_cell, if_neg (by omega)]
    · rfl

theorem dropWhile_ge (m : Memory) (addr : Nat) (hwf : m.Pairwise fun x y => x.1 < y.1) :
    ∀ c ∈ m.dropWhile fun c => decide (c.1 < addr), addr ≤ c.1 := by
  induction m with
  | nil => simp
  | cons c m ih =>
    rw [List.pairwise_cons] at hwf
    rw [List.dropWhile_cons]
    split
    · exact ih hwf.2
    · rename_i h
      intro d hd
      simp at h
      rw [List.mem_cons] at hd
      rcases hd with rfl | hd
      · exact h
      · have := hwf.1 d hd; omega

/-- `MemRead` gives the byte at `addr + k` as element `k` (20_memory R62). -/
theorem readBytes_eq {m : Memory} (addr n : Nat) (hwf : m.wf = true) :
    m.readBytes addr n = (List.range' addr n).map m.read := by
  rw [wf_iff] at hwf
  unfold Memory.readBytes
  rw [readFrom_eq _ _ _ (hwf.sublist (List.dropWhile_sublist _)) (dropWhile_ge m addr hwf)]
  apply List.map_congr_left
  intro b hb
  rw [List.mem_range'_1] at hb
  unfold Memory.read
  rw [lookup_dropWhile m addr b hwf hb.1]

theorem readBytes_getD {m : Memory} {addr n k : Nat} (hwf : m.wf = true) (h : k < n) :
    (m.readBytes addr n).getD k 0 = m.read (addr + k) := by
  rw [readBytes_eq addr n hwf]
  simp [h, List.getD_eq_getElem?_getD]

end Sys2Proof.Machine
end

