-- ==== Sys2Proof/Laws/Columns.lean ====
section
/-! SUPPORT. Whole columns against single offsets: what the generator and the solver compute at one offset, and what they leave
in memory. -/

namespace Sys2Proof.Machine

/-! ### Several writes, one after the other -/

/-- The memory after the writes of `l`, in order. -/
def Memory.writes (m : Memory) (l : List (Nat × List Byte)) : Memory := l.foldl (fun out p => out.write p.1 p.2) m

theorem writes_cons (m : Memory) (p : Nat × List Byte) (l : List (Nat × List Byte)) :
    m.writes (p :: l) = (m.write p.1 p.2).writes l := rfl

theorem writes_wf {m : Memory} (l : List (Nat × List Byte)) (h : m.wf = true) : (m.writes l).wf = true := by
  induction l generalizing m with
  | nil => exact h
  | cons p l ih => rw [writes_cons]; exact ih (write_wf _ _ h)

theorem writes_below {m : Memory} {limit : Nat} (l : List (Nat × List Byte)) (h : m.below limit = true)
    (hl : ∀ p ∈ l, p.1 + p.2.length ≤ limit) : (m.writes l).below limit = true := by
  induction l generalizing m with
  | nil => exact h
  | cons p l ih =>
    rw [writes_cons]
    exact ih (write_below _ _ h (hl p (by simp))) (fun q hq => hl q (by simp [hq]))

/-- A byte outside every written range is unchanged. -/
theorem writes_out {m : Memory} (l : List (Nat × List Byte)) {a : Nat}
    (h : ∀ p ∈ l, ¬ (p.1 ≤ a ∧ a < p.1 + p.2.length)) : (m.writes l).read a = m.read a := by
  induction l generalizing m with
  | nil => rfl
  | cons p l ih =>
    rw [writes_cons, ih (fun q hq => h q (by simp [hq])), read_write_out _ _ _ (h p (by simp))]

/-- A byte of a written range that no other written range meets holds what was written there. -/
theorem writes_in {m : Memory} (l : List (Nat × List Byte)) (p : Nat × List Byte) (hp : p ∈ l) {k : Nat}
    (hk : k < p.2.length)
    (hl : l.Pairwise fun p q => ∀ a, p.1 ≤ a ∧ a < p.1 + p.2.length → ¬ (q.1 ≤ a ∧ a < q.1 + q.2.length)) :
    (m.writes l).read (p.1 + k) = p.2.getD k 0 := by
  induction l generalizing m with
  | nil => simp at hp
  | cons q l ih =>
    rw [List.pairwise_cons] at hl
    rw [writes_cons]
    rcases List.mem_cons.1 hp with rfl | hp'
    · rw [writes_out l (fun r hr => hl.1 r hr _ ⟨by omega, by omega⟩), read_write_in _ _ _ rfl hk]
    · exact ih hp' hl.2

/-! ### The recurrence at one offset (43_generation R213, R214) -/

theorem foldl_zipWith_getD (f : Byte → Byte → Byte) (n : Nat) (ds : List (List Byte)) (d : List Byte)
    (hd : d.length = n) (hds : ∀ e ∈ ds, e.length = n) :
    (ds.foldl (List.zipWith f) d).length = n ∧
      ∀ o, o < n → (ds.foldl (List.zipWith f) d).getD o 0 = (ds.map fun e => e.getD o 0).foldl f (d.getD o 0) := by
  induction ds generalizing d with
  | nil => exact ⟨hd, fun _ _ => rfl⟩
  | cons e ds ih =>
    have he := hds e (by simp)
    obtain ⟨h1, h2⟩ := ih (List.zipWith f d e) (by simp [hd, he]) (fun x hx => hds x (by simp [hx]))
    refine ⟨h1, fun o ho => ?_⟩
    rw [List.foldl_cons, h2 o ho]
    have : (List.zipWith f d e).getD o 0 = f (d.getD o 0) (e.getD o 0) := by
      simp [List.getD_eq_getElem?_getD, hd, he, ho]
    rw [this, List.map_cons, List.foldl_cons]

theorem over_getD (k : Par) (n : Nat) (cols : List (List Byte)) (hne : cols ≠ []) (hlen : ∀ c ∈ cols, c.length = n) :
    (k.over cols).length = n ∧
      ∀ o, o < n → (k.over cols).getD o 0 = k.horner (cols.map fun c => c.getD o 0) := by
  cases cols with
  | nil => exact absurd rfl hne
  | cons d ds => exact foldl_zipWith_getD k.step n ds d (hlen d (by simp)) (fun e he => hlen e (by simp [he]))

@[simp] theorem column_length (m : ColMap) (mem : Memory) (n c : Nat) : (m.column mem n c).length = n := by
  simp [ColMap.column]

theorem column_getD (m : ColMap) {mem : Memory} (hwf : mem.wf = true) {n c o : Nat} (ho : o < n) :
    (m.column mem n c).getD o 0 = m.padded mem c o := by
  unfold ColMap.column ColMap.padded
  by_cases h : o < m.size c
  · rw [List.getD_append _ _ _ _ (by simp [h, ho]), readBytes_getD hwf (by omega), if_pos h]
  · rw [List.getD_append_right _ _ _ _ (by simp; omega), if_neg h]
    rw [List.getD_eq_getElem?_getD, List.getElem?_replicate]
    split <;> rfl

theorem mem_dataCols (m : ColMap) (c : Nat) : c ∈ m.dataCols ↔ m.p ≤ c ∧ c < m.ncols := by
  unfold ColMap.dataCols
  rw [List.mem_range'_1]
  omega

theorem dataCols_ne_nil {m : ColMap} (h : m.p < m.ncols) : m.dataCols ≠ [] := by
  intro h0
  have : m.p ∈ m.dataCols := (mem_dataCols m m.p).2 ⟨Nat.le_refl _, h⟩
  simp [h0] at this

/-- A generated column at one offset is the recurrence on the padded bytes of that offset (43_generation R213, R214). -/
theorem genColumn_getD {m : ColMap} {mem : Memory} (hwf : mem.wf = true) (hdata : m.p < m.ncols) (k : Par) (n : Nat) :
    (m.genColumn mem k n).length = n ∧ ∀ o, o < n → (m.genColumn mem k n).getD o 0 = m.genByte mem k o := by
  obtain ⟨h1, h2⟩ := over_getD k n (m.dataCols.map (m.column mem n)) (by simpa using dataCols_ne_nil hdata) (by simp)
  refine ⟨h1, fun o ho => ?_⟩
  unfold ColMap.genColumn ColMap.genByte
  rw [h2 o ho, List.map_map]
  congr 1
  exact List.map_congr_left fun c _ => column_getD m hwf ho

/-- A syndrome column at one offset: the stored byte plus the recurrence with the targets taken as 0 (44_reconstruction R232). -/
theorem synColumn_getD {m : ColMap} {mem : Memory} (hwf : mem.wf = true) (hdata : m.p < m.ncols) (k : Par) (ts : List Nat)
    (n : Nat) :
    (m.synColumn mem k ts n).length = n ∧ ∀ o, o < n → (m.synColumn mem k ts n).getD o 0 =
      m.stored mem k o ^^^ k.horner (m.dataCols.map fun c => if c ∈ ts then 0 else m.padded mem c o) := by
  have hlen : ∀ c ∈ m.dataCols.map (fun c => if c ∈ ts then List.replicate n 0 else m.column mem n c),
      c.length = n := by
    intro c hc
    obtain ⟨d, _, rfl⟩ := List.mem_map.1 hc
    split <;> simp
  obtain ⟨h1, h2⟩ := over_getD k n _ (by simpa using dataCols_ne_nil hdata) hlen
  unfold ColMap.synColumn
  refine ⟨by rw [List.length_zipWith, readBytes_length, h1, Nat.min_self], fun o ho => ?_⟩
  have hz : ∀ (l l' : List Byte), l.length = n → l'.length = n →
      (List.zipWith (· ^^^ ·) l l').getD o 0 = l.getD o 0 ^^^ l'.getD o 0 := by
    intro l l' hl hl'
    simp [List.getD_eq_getElem?_getD, hl, hl', ho]
  rw [hz _ _ (by simp) h1, readBytes_getD hwf ho, h2 o ho, List.map_map]
  congr 2
  apply List.map_congr_left
  intro c _
  simp only [Function.comp]
  split
  · simp [List.getD_eq_getElem?_getD, ho]
  · exact column_getD m hwf ho

/-! ### What the two kinds of commands leave in memory -/

theorem generate_mem (s : State) (k : Nat) : (s.generate k).mem = s.mem.writes (([Par.P, .Q, .R].take k).map fun j =>
    (s.here.map.base j.index, s.here.map.genColumn s.mem j s.here.map.psize.toNat)) := by
  rw [Memory.writes, List.foldl_map]
  rfl

theorem recover_eq (k : RecCase) (form : Form) (m : ColMap) (mem : Memory) :
    k.recover form m mem = mem.writes (k.targets.zipIdx.map fun t =>
      (m.base t.1, ((k.scratch form m mem).map fun row => row.getD t.2 0).take (m.size t.1))) := by
  simp [RecCase.recover, Memory.writes, List.foldl_map]

/-- The scratch buffers at one offset hold the solve of that offset's syndromes (44_reconstruction R235, R236). -/
theorem scratch_getElem {k : RecCase} {form : Form} {m : ColMap} {mem : Memory} (hwf : mem.wf = true)
    (hdata : m.p < m.ncols) :
    (k.scratch form m mem).length = m.size k.first ∧ ∀ o, o < m.size k.first →
      (k.scratch form m mem)[o]? = some (k.solve form m
        ((m.synColumn mem .P k.targets (m.size k.first)).getD o 0)
        ((m.synColumn mem .Q k.targets (m.size k.first)).getD o 0)
        ((m.synColumn mem .R k.targets (m.size k.first)).getD o 0)) := by
  have hl := fun j => (synColumn_getD hwf hdata j k.targets (m.size k.first)).1
  unfold RecCase.scratch
  refine ⟨by simp [hl], fun o ho => ?_⟩
  simp [List.getD_eq_getElem?_getD, hl, ho]

end Sys2Proof.Machine
end

