-- ==== Sys2Proof/Laws/State.lean ====
section
/-! SUPPORT. One lemma per field per update of the state, and how the addressed context and the others are read after an
update. -/

namespace Sys2Proof.Machine

/-! ### `put`: only the contexts change -/

@[simp] theorem put_cfg (s : State) (c : Context) : (s.put c).cfg = s.cfg := rfl
@[simp] theorem put_avail (s : State) (c : Context) : (s.put c).avail = s.avail := rfl
@[simp] theorem put_bsel (s : State) (c : Context) : (s.put c).bsel = s.bsel := rfl
@[simp] theorem put_mem (s : State) (c : Context) : (s.put c).mem = s.mem := rfl
@[simp] theorem put_pending (s : State) (c : Context) : (s.put c).pending = s.pending := rfl
@[simp] theorem put_cur (s : State) (c : Context) : (s.put c).cur = s.cur := rfl
@[simp] theorem put_readBack (s : State) (c : Context) : (s.put c).readBack = s.readBack := rfl
@[simp] theorem put_ctxs (s : State) (c : Context) : (s.put c).ctxs = s.ctxs.set s.cur c := rfl

theorem here_eq (s : State) (h : s.cur < s.ctxs.length) : s.here = s.ctxs[s.cur] := by
  simp [State.here, List.getD_eq_getElem?_getD, List.getElem?_eq_getElem h]

theorem here_mem (s : State) (h : s.cur < s.ctxs.length) : s.here ∈ s.ctxs := by
  rw [here_eq s h]; exact List.getElem_mem h

@[simp] theorem here_put (s : State) (c : Context) (h : s.cur < s.ctxs.length) : (s.put c).here = c := by
  simp [State.here, State.put, List.getD_eq_getElem?_getD, h]

@[simp] theorem put_put (s : State) (c d : Context) : (s.put c).put d = s.put d := by
  simp [State.put]

@[simp] theorem put_here (s : State) : s.put s.here = s := by
  obtain ⟨cfg, avail, bsel, ctxs, mem, pending, cur, readBack⟩ := s
  by_cases h : cur < ctxs.length
  · simp [State.put, State.here, List.getD_eq_getElem?_getD, List.getElem?_eq_getElem h]
  · simp [State.put, List.set_eq_of_length_le (Nat.le_of_not_lt h)]

/-- Another context is not touched by `put`. -/
@[simp] theorem getElem?_put_ne (s : State) (c : Context) {y : Nat} (h : y ≠ s.cur) :
    (s.put c).ctxs[y]? = s.ctxs[y]? := by
  simp [Ne.symm h]

/-! ### Changing memory, `BSEL` or the host's side leaves the addressed context -/

@[simp] theorem here_mem_update (s : State) (m : Memory) : ({ s with mem := m } : State).here = s.here := rfl
@[simp] theorem here_bsel_update (s : State) (b : BitVec 8) : ({ s with bsel := b } : State).here = s.here := rfl
@[simp] theorem here_pending_update (s : State) (l : List HostOp) : ({ s with pending := l } : State).here = s.here := rfl
@[simp] theorem here_readBack_update (s : State) (v : Option Word) :
    ({ s with readBack := v } : State).here = s.here := rfl

/-! ### `setRes`, `setGuard`, `takeFault` -/

@[simp] theorem setRes_eq (s : State) (v : Word) : s.setRes v = s.put { s.here with res := v } := rfl
@[simp] theorem setGuard_eq (s : State) (b : Bool) : s.setGuard b = s.put { s.here with vguard := b } := rfl
@[simp] theorem takeFault_eq (s : State) (e : Cause) (v : Word) :
    s.takeFault e v = s.put { s.here with fault := true, fcode := Word.ofNat e.code, finfo := v } := rfl

/-! ### `blockReset` -/

@[simp] theorem blockReset_cfg (s : State) (f : BitVec 3) : (s.blockReset f).cfg = s.cfg := rfl
@[simp] theorem blockReset_avail (s : State) (f : BitVec 3) : (s.blockReset f).avail = availMask s.cfg.ci f := rfl
@[simp] theorem blockReset_mem (s : State) (f : BitVec 3) : (s.blockReset f).mem = s.mem := rfl
@[simp] theorem blockReset_pending (s : State) (f : BitVec 3) : (s.blockReset f).pending = s.pending := rfl
@[simp] theorem blockReset_cur (s : State) (f : BitVec 3) : (s.blockReset f).cur = s.cur := rfl
@[simp] theorem blockReset_readBack (s : State) (f : BitVec 3) : (s.blockReset f).readBack = s.readBack := rfl
@[simp] theorem blockReset_ctxs (s : State) (f : BitVec 3) :
    (s.blockReset f).ctxs = List.replicate s.cfg.nctx Context.reset := rfl

/-! ### The three map states exclude each other (42_map R180) -/

theorem mapNone_iff (c : Context) : c.mapNone = true ↔ c.mapopen = false ∧ c.mapv = false := by
  simp [Context.mapNone]

theorem mapIsOpen_iff (c : Context) : c.mapIsOpen = true ↔ c.mapopen = true ∧ c.mapv = false := by
  simp [Context.mapIsOpen]

theorem mapValid_iff (c : Context) : c.mapValid = true ↔ c.mapopen = false ∧ c.mapv = true := by
  simp [Context.mapValid]

end Sys2Proof.Machine
end

