-- ==== Sys2Proof/Laws/Ops.lean ====
section
/-! SUPPORT. What the shared operations can answer: issuing a command, the premise on buffers, the vector guard, lanes. -/

namespace Sys2Proof.Machine

/-! ### Issuing a command (60_exceptions R310, R322) -/

theorem issue_faulted {s : State} (checks : List Check) (effect : Result) (h : s.here.fault = true) :
    s.issue checks effect = .next s := by
  simp [State.issue, h]

theorem issue_passed {s : State} {checks : List Check} (effect : Result) (h : s.here.fault = false)
    (hc : ∀ k ∈ checks, k.bad = false) : s.issue checks effect = effect := by
  have : checks.find? Check.bad = none := by
    rw [List.find?_eq_none]; intro k hk; simp [hc k hk]
  simp [State.issue, h, this]

/-- The first check that fails raises its fault. -/
theorem issue_raises {s : State} {checks : List Check} (effect : Result) (h : s.here.fault = false)
    (before after : List Check) (k : Check) (hsplit : checks = before ++ k :: after)
    (hb : ∀ c ∈ before, c.bad = false) (hk : k.bad = true) :
    s.issue checks effect = .next (s.takeFault k.cause k.info) := by
  have : checks.find? Check.bad = some k := by
    subst hsplit
    rw [List.find?_append, List.find?_eq_none.2 (fun c hc => by simp [hb c hc])]
    simp [hk]
  simp [State.issue, h, this]

/-- Everything that issuing a command can answer. -/
theorem issue_cases {s : State} {checks : List Check} {effect r : Result} (h : s.issue checks effect = r) :
    (s.here.fault = true ∧ r = .next s) ∨
    (s.here.fault = false ∧ ∃ k ∈ checks, k.bad = true ∧ r = .next (s.takeFault k.cause k.info)) ∨
    (s.here.fault = false ∧ (∀ k ∈ checks, k.bad = false) ∧ r = effect) := by
  unfold State.issue at h
  cases hf : s.here.fault with
  | true => left; simp [hf] at h; exact ⟨rfl, h.symm⟩
  | false =>
    right
    simp only [hf, Bool.false_eq_true, if_false] at h
    cases hk : checks.find? Check.bad with
    | some k =>
      left
      rw [hk] at h
      exact ⟨rfl, k, List.mem_of_find?_eq_some hk, List.find?_some hk, h.symm⟩
    | none =>
      right
      rw [hk] at h
      rw [List.find?_eq_none] at hk
      exact ⟨rfl, fun k hkm => by simpa using hk k hkm, h.symm⟩

/-! ### The premise of a compute command on its buffers (20_memory R70, R72) -/

theorem onBuffers_own {s : State} (effect : Result) (h : s.BuffersOwn) : s.onBuffers effect = effect := by
  obtain ⟨h1, h2, h3⟩ := h
  simp only [State.onBuffers, h1, h2, h3, Bool.not_true, Bool.false_eq_true, if_false]

/-- Everything the premise can answer. -/
theorem onBuffers_cases {s : State} {effect r : Result} (h : s.onBuffers effect = r) :
    (s.here.map.inside s.cfg.memLimit = false ∧ r = .fault .bufferOutsideMemory) ∨
    (¬ s.BuffersOwn ∧ (r = .refused .overlappingColumns ∨ r = .refused .overlapsOtherMap)) ∨
    (s.BuffersOwn ∧ r = effect) := by
  unfold State.onBuffers at h
  split at h
  · rename_i h1; left; exact ⟨by simpa using h1, h.symm⟩
  · rename_i h1
    right
    split at h
    · rename_i h2
      left; refine ⟨fun hb => ?_, .inl h.symm⟩
      simp [hb.2.1] at h2
    · rename_i h2
      split at h
      · rename_i h3
        left; refine ⟨fun hb => ?_, .inr h.symm⟩
        simp [hb.2.2] at h3
      · rename_i h3
        right
        exact ⟨⟨by simpa using h1, by simpa using h2, by simpa using h3⟩, h.symm⟩

/-! ### The vector guard (41_lane R165, 45_dispatch R291) -/

theorem setGuard_of_clear {s : State} (h : s.here.vguard = false) : s.setGuard false = s := by
  have : ({ s.here with vguard := false } : Context) = s.here := by rw [← h]
  rw [setGuard_eq, this, put_here]

theorem setGuard_setGuard (s : State) (a b : Bool) : (s.setGuard a).setGuard b = s.setGuard b := by
  by_cases hc : s.cur < s.ctxs.length
  · simp [hc]
  · have hput : ∀ c, s.put c = s := fun c => by
      unfold State.put; rw [List.set_eq_of_length_le (Nat.le_of_not_lt hc)]
    simp [hput]

/-- An effect that neither reads nor writes the guard is not changed by running inside it. -/
theorem guarded_eq {s : State} (bk : Nat) {f : State → State} (hf : f (s.setGuard true) = (f s).setGuard true)
    (hv : (f s).here.vguard = false) : s.guarded bk f = f s := by
  unfold State.guarded
  split
  · rfl
  · rw [hf, setGuard_setGuard, setGuard_of_clear hv]

/-! ### Lanes (41_lane R151) -/

theorem getElem_laneOf (w : Nat) (r : Nat → Byte) (k : Nat) (h : k < 64) :
    (laneOf w r)[k] = if k < w then r k else 0 := by
  simp [laneOf]

theorem laneByte_eq (l : Lane) {k : Nat} (h : k < 64) : laneByte l k = l[k] := by
  simp [laneByte, h]

theorem lane_eq (c : Context) {i : Nat} (h : i < 16) : c.lane i = c.v[i] := by
  simp [Context.lane, h]

theorem lane_setLane_ne (c : Context) (l : Lane) {i n : Nat} (h : i ≠ n) : (c.setLane i l).lane n = c.lane n := by
  simp [Context.lane, Context.setLane, h]

theorem lane_setLane_self (c : Context) (l : Lane) {i : Nat} (h : i < 16) : (c.setLane i l).lane i = l := by
  simp [Context.lane, Context.setLane, h]

/-! ### Buffers -/

theorem mem_buffers (m : ColMap) (p : Nat × Nat) :
    p ∈ m.buffers ↔ ∃ c, c < m.ncols ∧ p = (m.base c, m.size c) := by
  simp [ColMap.buffers, eq_comm]

theorem inside_iff (m : ColMap) (limit : Nat) :
    m.inside limit = true ↔ ∀ c, c < m.ncols → m.base c + m.size c ≤ limit := by
  simp [ColMap.inside, ColMap.buffers, List.all_eq_true]

theorem apart_iff (p q : Nat × Nat) : apart p q = true ↔ p.1 + p.2 ≤ q.1 ∨ q.1 + q.2 ≤ p.1 := by
  simp [apart]

/-- Two different columns of a map with disjoint buffers have no byte in common. -/
theorem disjointCols_holds {m : ColMap} (h : m.disjointCols = true) {c d a : Nat} (hc : c < m.ncols) (hd : d < m.ncols)
    (hne : c ≠ d) (hca : m.holds c a) : ¬ m.holds d a := by
  unfold ColMap.disjointCols at h
  rw [decide_eq_true_eq, ColMap.buffers, List.pairwise_map] at h
  have key : ∀ x y, x < y → y < m.ncols → m.holds x a → ¬ m.holds y a := by
    intro x y hxy hy hx hya
    have h1 := List.pairwise_iff_getElem.1 h x y (by simp; omega) (by simpa using hy) hxy
    rw [apart_iff] at h1
    unfold ColMap.holds at hx hya
    simp only [List.getElem_range] at h1
    omega
  rcases Nat.lt_or_gt_of_ne hne with hlt | hlt
  · exact key c d hlt hd hca
  · exact fun hda => key d c hlt hc hda hca

end Sys2Proof.Machine
end

