-- ==== Sys2Proof/Laws/Exec.lean ====
section
/-! SUPPORT. Every command is its checks, then its effect (60_exceptions R310): the two as functions of the command, and what
executing a command can answer. -/

namespace Sys2Proof.Machine

/-- The checks of a command after decoding, in order. -/
def checksOf (i : Instr) (s : State) : List Check :=
  match i with
  | .nop | .bkSet | .bkAuto | .bkGet | .bkEnum _ => []
  | .mapOpen cols parity =>
    [ Check.mapState s.here.mapNone (.mapOpen cols parity),
      { bad := decide (parity < 1) || decide (3 < parity), cause := .parityRange, info := Word.ofNat parity },
      { bad := decide (cols ≤ parity) || decide (ndataMax < cols - parity), cause := .colsRange, info := Word.ofNat cols } ]
  | .colSet c => [Check.mapState s.here.mapIsOpen (.colSet c), Check.column s.here.map c]
  | .colGet c => [Check.mapState (s.here.mapIsOpen || s.here.mapValid) (.colGet c), Check.column s.here.map c]
  | .mapCommit => Check.mapState s.here.mapIsOpen .mapCommit :: commitChecks s.cfg s.here.map
  | .mapClose => [Check.mapState (s.here.mapIsOpen || s.here.mapValid) .mapClose]
  | .gfMul a b => [Check.byteOperand a, Check.byteOperand b]
  | .gfExp2 a e =>
    [ Check.byteOperand a,
      { bad := decide (byteOf a ≠ 0) && decide (510 < e + lg (byteOf a)), cause := .range, info := Word.ofNat e } ]
  | .gfFixexp bk e => [Check.backendId s.avail bk, Check.exponent e]
  | .gfPow2 k => [Check.exponent k]
  | .gfLog2 a => [Check.byteOperand a]
  | .laneWidth bk => [Check.backendId s.avail bk]
  | .laneLoad bk v | .laneStore bk v => Check.backendId s.avail bk :: s.laneAddressChecks bk v
  | .laneXor bk vd v1 v2 =>
    [Check.backendId s.avail bk, Check.laneNumber vd, Check.laneNumber v1, Check.laneNumber v2]
  | .laneMul2 bk vd vs | .laneMul4 bk vd vs => [Check.backendId s.avail bk, Check.laneNumber vd, Check.laneNumber vs]
  | .laneMulc bk vd vs e =>
    [Check.backendId s.avail bk, Check.laneNumber vd, Check.laneNumber vs, Check.exponent e]
  | .gen => [Check.mapState s.here.mapValid .gen]
  | .genP => [Check.mapState s.here.mapValid .genP, Check.parityWidth s.here.map 1]
  | .genPQ => [Check.mapState s.here.mapValid .genPQ, Check.parityWidth s.here.map 2]
  | .genPQR => [Check.mapState s.here.mapValid .genPQR, Check.parityWidth s.here.map 3]
  | .recList nt t0 t1 t2 => s.recListChecks nt t0 t1 t2
  | .recP x => s.explicitChecks (.recP x) 1 [x]
  | .recQ x => s.explicitChecks (.recQ x) 2 [x]
  | .recR x => s.explicitChecks (.recR x) 3 [x]
  | .recPQ x y => s.explicitChecks (.recPQ x y) 2 [x, y]
  | .recPR x y => s.explicitChecks (.recPR x y) 3 [x, y]
  | .recQR x y => s.explicitChecks (.recQR x y) 3 [x, y]
  | .recPQR x y z => s.explicitChecks (.recPQR x y z) 3 [x, y, z]

/-- A generation effect on `k` parity columns. -/
def generateEffect (s : State) (k : Nat) : Result :=
  s.onBuffers (.next (s.guarded s.here.map.backend.toNat fun t => t.generate k))

/-- A reconstruction effect. -/
def recoverEffect (s : State) (k : RecCase) (np : Nat) : Result :=
  s.onBuffers (.next (s.guarded s.here.map.backend.toNat fun t => t.reconstruct k np))

/-- The effect of a command, once its checks have passed. -/
def effectOf (i : Instr) (s : State) : Result :=
  match i with
  | .nop => .next s
  | .mapOpen cols parity => .next (s.put { s.here with
      mapopen := true
      map := { ColMap.reset with
        cols := BitVec.ofNat 16 cols, parity := BitVec.ofNat 2 parity, backend := s.bsel,
        ioffset := s.here.a0, skipstart := s.here.a1, bigcols := s.here.a2, asize := s.here.a3 } })
  | .colSet c => .next (s.put { s.here with
      map := { s.here.map with
        col := s.here.map.col.setIfInBounds c
          { dev := s.here.a2, devoff := s.here.a3, base := s.here.a0, size := s.here.a1, set := true } } })
  | .colGet c => .next (s.put { s.here with
      a0 := (s.here.map.entry c).base, a1 := (s.here.map.entry c).size,
      a2 := (s.here.map.entry c).dev, a3 := (s.here.map.entry c).devoff })
  | .mapCommit => .next (s.put { s.here with
      mapopen := false, mapv := true
      map := { s.here.map with psize := (s.here.map.entry s.here.map.p).size } })
  | .mapClose => .next (s.put { s.here with mapopen := false, mapv := false, map := ColMap.reset })
  | .bkSet => .next (
      match findByName s.cfg.ci s.here.a0 with
      | none => s.setRes 1
      | some b => if registered s.avail b then { s.setRes 0 with bsel := BitVec.ofNat 8 b } else s.setRes 2)
  | .bkAuto => .next { s.setRes (Word.ofNat (best s.avail)) with bsel := BitVec.ofNat 8 (best s.avail) }
  | .bkGet => .next (s.setRes (s.bsel.setWidth 64))
  | .bkEnum i => .next (s.setRes (if registered s.avail i then pack (bkd i).name else 0))
  | .gfMul a b => .next (s.setRes (zext (gfmul (byteOf a) (byteOf b))))
  | .gfExp2 a e => .next (s.setRes (zext (exp2 (byteOf a) e)))
  | .gfFixexp bk e => .next (s.setRes (zext (fixMulExp (bkd bk).form e)))
  | .gfPow2 k => .next (s.setRes (zext (pow2 k)))
  | .gfLog2 a => .next (s.setRes (zext (log2 (byteOf a))))
  | .laneWidth bk => .next (s.guarded bk fun t => t.setRes (Word.ofNat (bkd bk).width))
  | .laneLoad bk vd => .next (s.guarded bk fun t =>
      t.putLane vd (bkd bk).width fun k => t.mem.read (t.here.a0.toNat + k))
  | .laneStore bk vs => .next (s.guarded bk fun t =>
      { t with mem := t.mem.write t.here.a0.toNat ((List.range (bkd bk).width).map (t.vbyte vs)) })
  | .laneXor bk vd v1 v2 => .next (s.guarded bk fun t =>
      t.putLane vd (bkd bk).width fun k => t.vbyte v1 k ^^^ t.vbyte v2 k)
  | .laneMul2 bk vd vs => .next (s.guarded bk fun t => t.putLane vd (bkd bk).width fun k => dbl (t.vbyte vs k))
  | .laneMul4 bk vd vs => .next (s.guarded bk fun t => t.putLane vd (bkd bk).width fun k => dbl (dbl (t.vbyte vs k)))
  | .laneMulc bk vd vs e => .next (s.guarded bk fun t =>
      t.putLane vd (bkd bk).width fun k => mlog (bkd bk).form (t.vbyte vs k) e)
  | .gen => generateEffect s s.here.map.p
  | .genP => generateEffect s 1
  | .genPQ => generateEffect s 2
  | .genPQR => generateEffect s 3
  | .recList nt t0 t1 t2 => recoverEffect s
      (selectCase (s.here.map.usedParity (damagedList nt t0 t1 t2)) (s.here.map.damagedData (damagedList nt t0 t1 t2)))
      (s.here.map.damagedParity (damagedList nt t0 t1 t2)).length
  | .recP x => recoverEffect s (.p x) 0
  | .recQ x => recoverEffect s (.q x) 0
  | .recR x => recoverEffect s (.r x) 0
  | .recPQ x y => recoverEffect s (.pq x y) 0
  | .recPR x y => recoverEffect s (.pr x y) 0
  | .recQR x y => recoverEffect s (.qr x y) 0
  | .recPQR x y z => recoverEffect s (.pqr x y z) 0

theorem exec_eq_issue (i : Instr) (s : State) : exec i s = s.issue (checksOf i s) (effectOf i s) := by
  cases i <;> rfl

/-- Everything executing a command can answer: a faulted context ignores it, a failing check raises its fault, or the effect
happens. -/
theorem exec_cases {i : Instr} {s : State} {r : Result} (h : exec i s = r) :
    (s.here.fault = true ∧ r = .next s) ∨
    (s.here.fault = false ∧ ∃ k ∈ checksOf i s, k.bad = true ∧ r = .next (s.takeFault k.cause k.info)) ∨
    (s.here.fault = false ∧ (∀ k ∈ checksOf i s, k.bad = false) ∧ r = effectOf i s) :=
  issue_cases (exec_eq_issue i s ▸ h)

/-- A command whose checks pass has its effect. -/
theorem exec_passed {i : Instr} {s : State} (hf : s.here.fault = false) (hc : ∀ k ∈ checksOf i s, k.bad = false) :
    exec i s = effectOf i s := by
  rw [exec_eq_issue]; exact issue_passed _ hf hc

/-- The first failing check of a command raises its fault. -/
theorem exec_raises {i : Instr} {s : State} (hf : s.here.fault = false) (before after : List Check) (k : Check)
    (hsplit : checksOf i s = before ++ k :: after) (hb : ∀ c ∈ before, c.bad = false) (hk : k.bad = true) :
    exec i s = .next (s.takeFault k.cause k.info) := by
  rw [exec_eq_issue]; exact issue_raises _ hf before after k hsplit hb hk

/-! ### The guard around the effects of the wide backends -/

theorem guarded_setRes {s : State} (bk : Nat) (v : Word) (hc : s.cur < s.ctxs.length) (hv : s.here.vguard = false) :
    s.guarded bk (fun t => t.setRes v) = s.setRes v := by
  apply guarded_eq <;> simp [hc, hv]

theorem guarded_putLane {s : State} (bk vd w : Nat) (r : State → Nat → Byte) (hc : s.cur < s.ctxs.length)
    (hv : s.here.vguard = false) (hr : r (s.setGuard true) = r s) :
    s.guarded bk (fun t => t.putLane vd w (r t)) = s.putLane vd w (r s) := by
  refine guarded_eq bk (f := fun t => t.putLane vd w (r t)) ?_ ?_
  · simp only [hr]
    simp [State.putLane, Context.setLane, hc]
  · simp [State.putLane, Context.setLane, hc, hv]

theorem guarded_mem {s : State} (bk : Nat) (g : State → Memory) (hv : s.here.vguard = false)
    (hg : g (s.setGuard true) = g s) :
    s.guarded bk (fun t => { t with mem := g t }) = { s with mem := g s } := by
  refine guarded_eq bk (f := fun t => { t with mem := g t }) ?_ hv
  simp only [hg]
  rfl

theorem guarded_generate {s : State} (bk k : Nat) (hc : s.cur < s.ctxs.length) (hv : s.here.vguard = false) :
    s.guarded bk (fun t => t.generate k) = s.generate k := by
  refine guarded_mem bk (fun t => (t.generate k).mem) hv ?_
  rw [generate_mem, generate_mem, setGuard_eq, here_put _ _ hc]
  rfl

theorem reconstruct_here {s : State} (k : RecCase) (np : Nat) (hc : s.cur < s.ctxs.length) :
    (s.reconstruct k np).here = { s.here with
      res := Word.ofNat (2 ^ k.targets.length - 1)
      map := { s.here.map with
        missingdata := BitVec.ofNat 2 k.targets.length, missingparity := BitVec.ofNat 2 np } } := by
  unfold State.reconstruct
  rw [here_mem_update, here_put _ _ hc]

theorem guarded_reconstruct {s : State} (bk : Nat) (k : RecCase) (np : Nat) (hc : s.cur < s.ctxs.length)
    (hv : s.here.vguard = false) :
    s.guarded bk (fun t => t.reconstruct k np) = s.reconstruct k np := by
  refine guarded_eq bk (f := fun t => t.reconstruct k np) ?_ ?_
  · rw [setGuard_eq (s.reconstruct k np), reconstruct_here k np hc]
    unfold State.reconstruct
    rw [setGuard_eq, here_put _ _ hc, put_put]
    simp [State.put]
  · rw [reconstruct_here k np hc]; exact hv

end Sys2Proof.Machine
end

