-- ==== Sys2Proof/Laws/Fields.lean ====
section
/-! SUPPORT. The fields of a command word put together from its fields (30_encoding R91). -/

namespace Sys2Proof

theorem wordOf_toNat {op m f2 f1 f0 : Nat} (hop : op < 2 ^ 8) (hm : m < 2 ^ 8) (h2 : f2 < 2 ^ 16) (h1 : f1 < 2 ^ 16)
    (h0 : f0 < 2 ^ 16) :
    (wordOf op m f2 f1 f0).toNat = op * 2 ^ 56 + m * 2 ^ 48 + f2 * 2 ^ 32 + f1 * 2 ^ 16 + f0 := by
  unfold wordOf
  rw [BitVec.toNat_ofNat, Nat.mod_eq_of_lt]
  omega

/-- The slice of `len` bits at `pos` as a number. -/
theorem slice_toNat (w : Word) (pos len : Nat) : (w.extractLsb' pos len).toNat = w.toNat / 2 ^ pos % 2 ^ len := by
  rw [BitVec.extractLsb'_toNat, Nat.shiftRight_eq_div_pow]

theorem fields_wordOf {op m f2 f1 f0 : Nat} (hop : op < 2 ^ 8) (hm : m < 2 ^ 8) (h2 : f2 < 2 ^ 16) (h1 : f1 < 2 ^ 16)
    (h0 : f0 < 2 ^ 16) :
    opField (wordOf op m f2 f1 f0) = op ∧ mField (wordOf op m f2 f1 f0) = m ∧ f2Field (wordOf op m f2 f1 f0) = f2 ∧
      f1Field (wordOf op m f2 f1 f0) = f1 ∧ f0Field (wordOf op m f2 f1 f0) = f0 := by
  have hw := wordOf_toNat hop hm h2 h1 h0
  unfold opField mField f2Field f1Field f0Field
  rw [slice_toNat, slice_toNat, slice_toNat, slice_toNat, slice_toNat, hw]
  refine ⟨?_, ?_, ?_, ?_, ?_⟩ <;> omega

theorem fitsField_iff (n : Nat) : fitsField n = true ↔ n < 2 ^ 16 := by simp [fitsField]

theorem fitsMod_iff (n : Nat) : fitsMod n = true ↔ n < 2 ^ 8 := by simp [fitsMod]

end Sys2Proof
end

