-- ==== Sys2Proof/Laws/PerInstr.lean ====
section
/-! SUPPORT. Statements made per command: the family Encoding says that the decoder reads, from the word of a well-formed
command, a command of the same name (30_encoding R91, R93, R95). -/

namespace Sys2Proof.Laws.Encoding

/-- The word of a well-formed command decodes, to a command of the same mnemonic. -/
def Statement (i : Instr) : Prop := i.wf = true → ∃ j, decode (encode i) = some j ∧ j.mnemonic = i.mnemonic

theorem nop : Statement .nop := fun _ => ⟨.nop, by decide, rfl⟩

theorem mapOpen (cols parity : Nat) : Statement (.mapOpen cols parity) := by
  intro h
  simp only [Instr.wf, Bool.and_eq_true, fitsField_iff] at h
  obtain ⟨h0, h1⟩ := h
  obtain ⟨e1, e2, e3, e4, e5⟩ := fields_wordOf (op := 0x01) (by decide) (show 0 < 2 ^ 8 by decide) (show 0 < 2 ^ 16 by decide) h1 h0
  exact ⟨.mapOpen cols parity, by simp [encode, decode, fmtF2, e1, e2, e3, e4, e5], rfl⟩

theorem colSet (c : Nat) : Statement (.colSet c) := by
  intro h
  simp only [Instr.wf, fitsField_iff] at h
  obtain ⟨e1, e2, e3, e4, e5⟩ := fields_wordOf (op := 0x02) (by decide) (show 0 < 2 ^ 8 by decide) (show 0 < 2 ^ 16 by decide) (show 0 < 2 ^ 16 by decide) h
  exact ⟨.colSet c, by simp [encode, decode, fmtF1, e1, e2, e3, e4, e5], rfl⟩

theorem colGet (c : Nat) : Statement (.colGet c) := by
  intro h
  simp only [Instr.wf, fitsField_iff] at h
  obtain ⟨e1, e2, e3, e4, e5⟩ := fields_wordOf (op := 0x03) (by decide) (show 0 < 2 ^ 8 by decide) (show 0 < 2 ^ 16 by decide) (show 0 < 2 ^ 16 by decide) h
  exact ⟨.colGet c, by simp [encode, decode, fmtF1, e1, e2, e3, e4, e5], rfl⟩

theorem mapCommit : Statement .mapCommit := fun _ => ⟨.mapCommit, by decide, rfl⟩

theorem mapClose : Statement .mapClose := fun _ => ⟨.mapClose, by decide, rfl⟩

theorem bkSet : Statement .bkSet := fun _ => ⟨.bkSet, by decide, rfl⟩

theorem bkAuto : Statement .bkAuto := fun _ => ⟨.bkAuto, by decide, rfl⟩

theorem bkGet : Statement .bkGet := fun _ => ⟨.bkGet, by decide, rfl⟩

theorem bkEnum (i : Nat) : Statement (.bkEnum i) := by
  intro h
  simp only [Instr.wf, fitsField_iff] at h
  obtain ⟨e1, e2, e3, e4, e5⟩ := fields_wordOf (op := 0x13) (by decide) (show 0 < 2 ^ 8 by decide) (show 0 < 2 ^ 16 by decide) (show 0 < 2 ^ 16 by decide) h
  exact ⟨.bkEnum i, by simp [encode, decode, fmtF1, e1, e2, e3, e4, e5], rfl⟩

theorem gfMul (a b : Nat) : Statement (.gfMul a b) := by
  intro h
  simp only [Instr.wf, Bool.and_eq_true, fitsField_iff] at h
  obtain ⟨h0, h1⟩ := h
  obtain ⟨e1, e2, e3, e4, e5⟩ := fields_wordOf (op := 0x20) (by decide) (show 0 < 2 ^ 8 by decide) (show 0 < 2 ^ 16 by decide) h1 h0
  exact ⟨.gfMul a b, by simp [encode, decode, fmtF2, e1, e2, e3, e4, e5], rfl⟩

theorem gfExp2 (a e : Nat) : Statement (.gfExp2 a e) := by
  intro h
  simp only [Instr.wf, Bool.and_eq_true, fitsField_iff] at h
  obtain ⟨h0, h1⟩ := h
  obtain ⟨e1, e2, e3, e4, e5⟩ := fields_wordOf (op := 0x21) (by decide) (show 0 < 2 ^ 8 by decide) (show 0 < 2 ^ 16 by decide) h1 h0
  exact ⟨.gfExp2 a e, by simp [encode, decode, fmtF2, e1, e2, e3, e4, e5], rfl⟩

theorem gfFixexp (bk e : Nat) : Statement (.gfFixexp bk e) := by
  intro h
  simp only [Instr.wf, Bool.and_eq_true, fitsField_iff, fitsMod_iff] at h
  obtain ⟨h0, h1⟩ := h
  obtain ⟨e1, e2, e3, e4, e5⟩ := fields_wordOf (op := 0x22) (by decide) h0 (show 0 < 2 ^ 16 by decide) (show 0 < 2 ^ 16 by decide) h1
  exact ⟨.gfFixexp bk e, by simp [encode, decode, fmtB1, e1, e2, e3, e4, e5], rfl⟩

theorem gfPow2 (k : Nat) : Statement (.gfPow2 k) := by
  intro h
  simp only [Instr.wf, fitsField_iff] at h
  obtain ⟨e1, e2, e3, e4, e5⟩ := fields_wordOf (op := 0x23) (by decide) (show 0 < 2 ^ 8 by decide) (show 0 < 2 ^ 16 by decide) (show 0 < 2 ^ 16 by decide) h
  exact ⟨.gfPow2 k, by simp [encode, decode, fmtF1, e1, e2, e3, e4, e5], rfl⟩

theorem gfLog2 (a : Nat) : Statement (.gfLog2 a) := by
  intro h
  simp only [Instr.wf, fitsField_iff] at h
  obtain ⟨e1, e2, e3, e4, e5⟩ := fields_wordOf (op := 0x24) (by decide) (show 0 < 2 ^ 8 by decide) (show 0 < 2 ^ 16 by decide) (show 0 < 2 ^ 16 by decide) h
  exact ⟨.gfLog2 a, by simp [encode, decode, fmtF1, e1, e2, e3, e4, e5], rfl⟩

theorem laneWidth (bk : Nat) : Statement (.laneWidth bk) := by
  intro h
  simp only [Instr.wf, fitsMod_iff] at h
  obtain ⟨e1, e2, e3, e4, e5⟩ := fields_wordOf (op := 0x30) (by decide) h (show 0 < 2 ^ 16 by decide) (show 0 < 2 ^ 16 by decide) (show 0 < 2 ^ 16 by decide)
  exact ⟨.laneWidth bk, by simp [encode, decode, fmtB0, e1, e2, e3, e4, e5], rfl⟩

theorem laneLoad (bk vd : Nat) : Statement (.laneLoad bk vd) := by
  intro h
  simp only [Instr.wf, Bool.and_eq_true, fitsField_iff, fitsMod_iff] at h
  obtain ⟨h0, h1⟩ := h
  obtain ⟨e1, e2, e3, e4, e5⟩ := fields_wordOf (op := 0x31) (by decide) h0 (show 0 < 2 ^ 16 by decide) (show 0 < 2 ^ 16 by decide) h1
  exact ⟨.laneLoad bk vd, by simp [encode, decode, fmtB1, e1, e2, e3, e4, e5], rfl⟩

theorem laneStore (bk vs : Nat) : Statement (.laneStore bk vs) := by
  intro h
  simp only [Instr.wf, Bool.and_eq_true, fitsField_iff, fitsMod_iff] at h
  obtain ⟨h0, h1⟩ := h
  obtain ⟨e1, e2, e3, e4, e5⟩ := fields_wordOf (op := 0x32) (by decide) h0 (show 0 < 2 ^ 16 by decide) (show 0 < 2 ^ 16 by decide) h1
  exact ⟨.laneStore bk vs, by simp [encode, decode, fmtB1, e1, e2, e3, e4, e5], rfl⟩

theorem laneXor (bk vd v1 v2 : Nat) : Statement (.laneXor bk vd v1 v2) := by
  intro h
  simp only [Instr.wf, Bool.and_eq_true, fitsField_iff, fitsMod_iff] at h
  obtain ⟨⟨⟨h0, h1⟩, h2⟩, h3⟩ := h
  obtain ⟨e1, e2, e3, e4, e5⟩ := fields_wordOf (op := 0x33) (by decide) h0 h3 h2 h1
  exact ⟨.laneXor bk vd v1 v2, by simp [encode, decode, fmtB3, e1, e2, e3, e4, e5], rfl⟩

theorem laneMul2 (bk vd vs : Nat) : Statement (.laneMul2 bk vd vs) := by
  intro h
  simp only [Instr.wf, Bool.and_eq_true, fitsField_iff, fitsMod_iff] at h
  obtain ⟨⟨h0, h1⟩, h2⟩ := h
  obtain ⟨e1, e2, e3, e4, e5⟩ := fields_wordOf (op := 0x34) (by decide) h0 (show 0 < 2 ^ 16 by decide) h2 h1
  exact ⟨.laneMul2 bk vd vs, by simp [encode, decode, fmtB2, e1, e2, e3, e4, e5], rfl⟩

theorem laneMul4 (bk vd vs : Nat) : Statement (.laneMul4 bk vd vs) := by
  intro h
  simp only [Instr.wf, Bool.and_eq_true, fitsField_iff, fitsMod_iff] at h
  obtain ⟨⟨h0, h1⟩, h2⟩ := h
  obtain ⟨e1, e2, e3, e4, e5⟩ := fields_wordOf (op := 0x35) (by decide) h0 (show 0 < 2 ^ 16 by decide) h2 h1
  exact ⟨.laneMul4 bk vd vs, by simp [encode, decode, fmtB2, e1, e2, e3, e4, e5], rfl⟩

theorem laneMulc (bk vd vs e : Nat) : Statement (.laneMulc bk vd vs e) := by
  intro h
  simp only [Instr.wf, Bool.and_eq_true, fitsField_iff, fitsMod_iff] at h
  obtain ⟨⟨⟨h0, h1⟩, h2⟩, h3⟩ := h
  obtain ⟨e1, e2, e3, e4, e5⟩ := fields_wordOf (op := 0x36) (by decide) h0 h3 h2 h1
  exact ⟨.laneMulc bk vd vs e, by simp [encode, decode, fmtB3, e1, e2, e3, e4, e5], rfl⟩

theorem gen : Statement .gen := fun _ => ⟨.gen, by decide, rfl⟩

theorem genP : Statement .genP := fun _ => ⟨.genP, by decide, rfl⟩

theorem genPQ : Statement .genPQ := fun _ => ⟨.genPQ, by decide, rfl⟩

theorem genPQR : Statement .genPQR := fun _ => ⟨.genPQR, by decide, rfl⟩

theorem recList (nt t0 t1 t2 : Nat) : Statement (.recList nt t0 t1 t2) := by
  intro h
  simp only [Instr.wf, Bool.and_eq_true, fitsField_iff, fitsMod_iff] at h
  obtain ⟨⟨⟨h0, h1⟩, h2⟩, h3⟩ := h
  obtain ⟨e1, e2, e3, e4, e5⟩ := fields_wordOf (op := 0x50) (by decide) h0 h3 h2 h1
  exact ⟨.recList nt t0 t1 t2, by simp [encode, decode, fmtT, e1, e2, e3, e4, e5], rfl⟩

theorem recP (x : Nat) : Statement (.recP x) := by
  intro h
  simp only [Instr.wf, fitsField_iff] at h
  obtain ⟨e1, e2, e3, e4, e5⟩ := fields_wordOf (op := 0x51) (by decide) (show 0 < 2 ^ 8 by decide) (show 0 < 2 ^ 16 by decide) (show 0 < 2 ^ 16 by decide) h
  exact ⟨.recP x, by simp [encode, decode, fmtF1, e1, e2, e3, e4, e5], rfl⟩

theorem recQ (x : Nat) : Statement (.recQ x) := by
  intro h
  simp only [Instr.wf, fitsField_iff] at h
  obtain ⟨e1, e2, e3, e4, e5⟩ := fields_wordOf (op := 0x52) (by decide) (show 0 < 2 ^ 8 by decide) (show 0 < 2 ^ 16 by decide) (show 0 < 2 ^ 16 by decide) h
  exact ⟨.recQ x, by simp [encode, decode, fmtF1, e1, e2, e3, e4, e5], rfl⟩

theorem recR (x : Nat) : Statement (.recR x) := by
  intro h
  simp only [Instr.wf, fitsField_iff] at h
  obtain ⟨e1, e2, e3, e4, e5⟩ := fields_wordOf (op := 0x53) (by decide) (show 0 < 2 ^ 8 by decide) (show 0 < 2 ^ 16 by decide) (show 0 < 2 ^ 16 by decide) h
  exact ⟨.recR x, by simp [encode, decode, fmtF1, e1, e2, e3, e4, e5], rfl⟩

theorem recPQ (x y : Nat) : Statement (.recPQ x y) := by
  intro h
  simp only [Instr.wf, Bool.and_eq_true, fitsField_iff] at h
  obtain ⟨h0, h1⟩ := h
  obtain ⟨e1, e2, e3, e4, e5⟩ := fields_wordOf (op := 0x54) (by decide) (show 0 < 2 ^ 8 by decide) (show 0 < 2 ^ 16 by decide) h1 h0
  exact ⟨.recPQ x y, by simp [encode, decode, fmtF2, e1, e2, e3, e4, e5], rfl⟩

theorem recPR (x y : Nat) : Statement (.recPR x y) := by
  intro h
  simp only [Instr.wf, Bool.and_eq_true, fitsField_iff] at h
  obtain ⟨h0, h1⟩ := h
  obtain ⟨e1, e2, e3, e4, e5⟩ := fields_wordOf (op := 0x55) (by decide) (show 0 < 2 ^ 8 by decide) (show 0 < 2 ^ 16 by decide) h1 h0
  exact ⟨.recPR x y, by simp [encode, decode, fmtF2, e1, e2, e3, e4, e5], rfl⟩

theorem recQR (x y : Nat) : Statement (.recQR x y) := by
  intro h
  simp only [Instr.wf, Bool.and_eq_true, fitsField_iff] at h
  obtain ⟨h0, h1⟩ := h
  obtain ⟨e1, e2, e3, e4, e5⟩ := fields_wordOf (op := 0x56) (by decide) (show 0 < 2 ^ 8 by decide) (show 0 < 2 ^ 16 by decide) h1 h0
  exact ⟨.recQR x y, by simp [encode, decode, fmtF2, e1, e2, e3, e4, e5], rfl⟩

theorem recPQR (x y z : Nat) : Statement (.recPQR x y z) := by
  intro h
  simp only [Instr.wf, Bool.and_eq_true, fitsField_iff] at h
  obtain ⟨⟨h0, h1⟩, h2⟩ := h
  obtain ⟨e1, e2, e3, e4, e5⟩ := fields_wordOf (op := 0x57) (by decide) (show 0 < 2 ^ 8 by decide) h2 h1 h0
  exact ⟨.recPQR x y z, by simp [encode, decode, fmtF3, e1, e2, e3, e4, e5], rfl⟩

end Sys2Proof.Laws.Encoding
end

