-- ==== Sys2Proof/Machine/Program.lean ====
section
/-! DEFINITION. Programs as lists of host operations on one context, and the pseudo-instructions with their expansions
(30_encoding R110, R112). The textual syntax of R111 is not part of the machine. -/

namespace Sys2Proof.Machine

/-- `wr Ai, v` on context `x` (30_encoding R110, 10_state R31). -/
def wrA (x i : Nat) (v : Word) : HostOp := .regWrite x (5 + i) v

/-- A command on context `x` (30_encoding R110). -/
def cmd (x : Nat) (i : Instr) : HostOp := .regWrite x 0 (encode i)

/-- `OPEN cols, parity, ioffset, skipstart, bigcols, asize` (30_encoding R112). -/
def asmOpen (x cols parity : Nat) (ioffset skipstart bigcols asize : Word) : List HostOp :=
  [wrA x 0 ioffset, wrA x 1 skipstart, wrA x 2 bigcols, wrA x 3 asize, cmd x (.mapOpen cols parity)]

/-- `COL c, base, size, dev, devoff` (30_encoding R112). -/
def asmCol (x c : Nat) (base size dev devoff : Word) : List HostOp :=
  [wrA x 0 base, wrA x 1 size, wrA x 2 dev, wrA x 3 devoff, cmd x (.colSet c)]

/-- `SELECT "name"` (30_encoding R112). -/
def asmSelect (x : Nat) (name : List Char) : List HostOp := [wrA x 0 (pack name), cmd x .bkSet]

/-- `LOAD.bk Vd, addr` (30_encoding R112). -/
def asmLoad (x bk vd : Nat) (addr : Word) : List HostOp := [wrA x 0 addr, cmd x (.laneLoad bk vd)]

/-- `STORE.bk Vs, addr` (30_encoding R112). -/
def asmStore (x bk vs : Nat) (addr : Word) : List HostOp := [wrA x 0 addr, cmd x (.laneStore bk vs)]

/-- `ZERO.bk Vd` (30_encoding R112). -/
def asmZero (x bk vd : Nat) : List HostOp := [cmd x (.laneXor bk vd vd vd)]

/-- `MOV.bk Vd, Vs` (30_encoding R112). -/
def asmMov (x bk vd vs : Nat) : List HostOp := [cmd x (.laneMulc bk vd vs 0)]

end Sys2Proof.Machine
end

