-- ==== Sys2Proof/Tests/Slice0.lean ====
section
/-! SUPPORT. Own tests: words and results written out in the spec (30_encoding R111, 95_test_vectors sections 2 to 6), each on one
step from a small state, and for every statement with hypotheses a state and operands that meet them. -/

-- One thread for the whole file: its many evaluations would otherwise each claim a stack at the same time.
set_option Elab.async false

namespace Sys2Proof.Tests

open Sys2Proof.Machine

/-! ### Small states -/

/-- The reset state with context 0 replaced. -/
def at0 (c : Context) : State := { State.reset with ctxs := [c, Context.reset] }

/-- Context 0 in map state `NONE` with the operand registers set. -/
def regs (a0 a1 a2 a3 : Word) : State := at0 { Context.reset with a0 := a0, a1 := a1, a2 := a2, a3 := a3 }

/-- A set column. -/
def column (base size : Word) : Col := { dev := 0, devoff := 0, base := base, size := size, set := true }

/-- A map with the given columns. -/
def mapOf (parity : Nat) (psize : Word) (cols : List Col) : ColMap :=
  { ColMap.reset with
    cols := BitVec.ofNat 16 cols.length, parity := BitVec.ofNat 2 parity, psize := psize, backend := 2,
    col := Vector.ofFn fun k : Fin 258 => cols.getD k.val Col.reset }

def openWith (m : ColMap) : State := at0 { Context.reset with mapopen := true, map := m }
def validWith (m : ColMap) : State := at0 { Context.reset with mapv := true, map := m }

/-- The columns of program 5.1 (95_test_vectors section 5.1). -/
def cols51 : List Col :=
  [column 0x1000 128, column 0x1100 128, column 0x1200 128, column 0x1300 128, column 0x1400 64]

/-- The map of program 5.1 before `MAP_COMMIT`, with column `c` changed. -/
def open51 (c : Nat) (col : Col) : State := openWith (mapOf 2 0 (cols51.set c col))

/-- Seven columns, the last one sector short. -/
def cols7 : List Col :=
  [column 0x1000 128, column 0x1080 128, column 0x1100 128, column 0x1180 128, column 0x1200 128, column 0x1280 128,
    column 0x1300 64]

/-- The running example at offset 0 of each column (44_reconstruction R259): parity 38 cf e2, data 80 ff 1d 5a. -/
def mem7 : Memory :=
  [(0x1000, 0x38), (0x1080, 0xcf), (0x1100, 0xe2), (0x1180, 0x80), (0x1200, 0xff), (0x1280, 0x1d), (0x1300, 0x5a)]

/-- A valid map of seven columns with `p` parity columns, on the memory of the running example. -/
def demoOf (p : Nat) : State := { validWith (mapOf p 128 cols7) with mem := mem7 }

/-- The running example: three parity columns, four data columns. -/
def demo : State := demoOf 3

/-- The running example with the byte at `a` overwritten by `b`. -/
def spoilt (as : List Nat) : State := { demo with mem := mem7.map fun c => if c.1 ∈ as then (c.1, 0xaa) else c }

/-- 64 equal bytes from `a` on. -/
def fill (a : Nat) (b : Byte) : Memory := cellsAt a (List.replicate 64 b)

/-- A full memory of five columns of 64 bytes: P, Q, R of the data `80 ff` (95_test_vectors section 3.3, second row) at every
offset, then the data. -/
def mem5 (d3 d4 : Byte) : Memory :=
  fill 0x1000 0x7f ++ fill 0x1040 0xe2 ++ fill 0x1080 0xc5 ++ fill 0x10c0 d3 ++ fill 0x1100 d4

/-- A valid map of five full columns, both data columns overwritten. -/
def lost5 : State :=
  { validWith (mapOf 3 64
      [column 0x1000 64, column 0x1040 64, column 0x1080 64, column 0x10c0 64, column 0x1100 64]) with
    mem := mem5 0xaa 0xbb }

/-! ### What a test looks at -/

def after {α : Type} (r : Result) (f : State → α) : Option α :=
  match r with
  | .next t => some (f t)
  | _ => none

/-- `RES` after a command. -/
def res (i : Instr) (s : State) : Option Word := after (exec i s) fun t => t.here.res

/-- `STATUS`, `FCODE`, `FINFO` after a command. -/
def faults (i : Instr) (s : State) : Option (Word × Word × Word) :=
  after (exec i s) fun t => (t.here.status, t.here.fcode, t.here.finfo)

/-- `STATUS`, `FCODE`, `FINFO` of context 0 after a command word is written to its `CMD`. -/
def faultsOfWord (w : Word) (s : State) : Option (Word × Word × Word) :=
  after (step (s.withFetchWord 64 w.toNat)) fun t => (t.here.status, t.here.fcode, t.here.finfo)

/-- Bytes `ks` of lane register `n` after a command. -/
def lane (i : Instr) (s : State) (n : Nat) (ks : List Nat) : Option (List Byte) :=
  after (exec i s) fun t => ks.map (t.vbyte n)

/-- Some bytes of memory after a command. -/
def bytes (i : Instr) (s : State) (as : List Nat) : Option (List Byte) := after (exec i s) fun t => as.map t.mem.read

/-- `RES`, `MMISSD`, `MMISSP` after a command. -/
def marks (i : Instr) (s : State) : Option (Word × BitVec 2 × BitVec 2) :=
  after (exec i s) fun t => (t.here.res, t.here.map.missingdata, t.here.map.missingparity)

/-! ### WellFormed: an ill-formed term for each check -/

theorem test_wf_map_dispatch :
    (Instr.mapOpen 65536 1).wf = false ∧ (Instr.mapOpen 5 65536).wf = false ∧ (Instr.colSet 65536).wf = false ∧
    (Instr.colGet 65536).wf = false ∧ (Instr.bkEnum 65536).wf = false := by decide

theorem test_wf_field :
    (Instr.gfMul 65536 1).wf = false ∧ (Instr.gfMul 1 65536).wf = false ∧ (Instr.gfExp2 65536 0).wf = false ∧
    (Instr.gfExp2 0 65536).wf = false ∧ (Instr.gfFixexp 256 0).wf = false ∧ (Instr.gfFixexp 0 65536).wf = false ∧
    (Instr.gfPow2 65536).wf = false ∧ (Instr.gfLog2 65536).wf = false := by decide

theorem test_wf_lane :
    (Instr.laneWidth 256).wf = false ∧ (Instr.laneLoad 256 0).wf = false ∧ (Instr.laneLoad 0 65536).wf = false ∧
    (Instr.laneStore 256 0).wf = false ∧ (Instr.laneStore 0 65536).wf = false ∧ (Instr.laneXor 256 0 0 0).wf = false ∧
    (Instr.laneXor 0 65536 0 0).wf = false ∧ (Instr.laneXor 0 0 65536 0).wf = false ∧
    (Instr.laneXor 0 0 0 65536).wf = false ∧ (Instr.laneMul2 256 0 0).wf = false ∧ (Instr.laneMul2 0 65536 0).wf = false ∧
    (Instr.laneMul2 0 0 65536).wf = false ∧ (Instr.laneMul4 256 0 0).wf = false ∧ (Instr.laneMul4 0 65536 0).wf = false ∧
    (Instr.laneMul4 0 0 65536).wf = false ∧ (Instr.laneMulc 256 0 0 0).wf = false ∧ (Instr.laneMulc 0 65536 0 0).wf = false ∧
    (Instr.laneMulc 0 0 65536 0).wf = false ∧ (Instr.laneMulc 0 0 0 65536).wf = false := by decide

theorem test_wf_reconstruction :
    (Instr.recList 256 0 0 0).wf = false ∧ (Instr.recList 1 65536 0 0).wf = false ∧ (Instr.recList 1 0 65536 0).wf = false ∧
    (Instr.recList 1 0 0 65536).wf = false ∧ (Instr.recP 65536).wf = false ∧ (Instr.recQ 65536).wf = false ∧
    (Instr.recR 65536).wf = false ∧ (Instr.recPQ 65536 0).wf = false ∧ (Instr.recPQ 0 65536).wf = false ∧
    (Instr.recPR 65536 0).wf = false ∧ (Instr.recPR 0 65536).wf = false ∧ (Instr.recQR 65536 0).wf = false ∧
    (Instr.recQR 0 65536).wf = false ∧ (Instr.recPQR 65536 0 0).wf = false ∧ (Instr.recPQR 0 65536 0).wf = false ∧
    (Instr.recPQR 0 0 65536).wf = false := by decide

/-! ### Decoding: every constructor from a word of the manual (95_test_vectors sections 2 to 6) -/

theorem test_decode_map_dispatch :
    decode 0x0000000000000000 = some .nop ∧ decode 0x010000000003000A = some (.mapOpen 10 3) ∧
    decode 0x0200000000000004 = some (.colSet 4) ∧ decode 0x030000000000000A = some (.colGet 10) ∧
    decode 0x0400000000000000 = some .mapCommit ∧ decode 0x0500000000000000 = some .mapClose ∧
    decode 0x1000000000000000 = some .bkSet ∧ decode 0x1100000000000000 = some .bkAuto ∧
    decode 0x1200000000000000 = some .bkGet ∧ decode 0x130000000000FFFF = some (.bkEnum 65535) := by decide

theorem test_decode_field :
    decode 0x2000000000CA0053 = some (.gfMul 0x53 0xca) ∧ decode 0x210000000101008E = some (.gfExp2 0x8e 257) ∧
    decode 0x220100000000012C = some (.gfFixexp 1 300) ∧ decode 0x23000000000001FF = some (.gfPow2 511) ∧
    decode 0x2400000000000100 = some (.gfLog2 256) := by decide

theorem test_decode_lane :
    decode 0x30FF000000000000 = some (.laneWidth 255) ∧ decode 0x3101000000000002 = some (.laneLoad 1 2) ∧
    decode 0x3201000000000003 = some (.laneStore 1 3) ∧ decode 0x3301000200010003 = some (.laneXor 1 3 1 2) ∧
    decode 0x3401000000010004 = some (.laneMul2 1 4 1) ∧ decode 0x3501000000010005 = some (.laneMul4 1 5 1) ∧
    decode 0x360101C700010007 = some (.laneMulc 1 7 1 455) := by decide

theorem test_decode_generation_reconstruction :
    decode 0x4000000000000000 = some .gen ∧ decode 0x4100000000000000 = some .genP ∧
    decode 0x4200000000000000 = some .genPQ ∧ decode 0x4300000000000000 = some .genPQR ∧
    decode 0x5003000800050001 = some (.recList 3 1 5 8) ∧ decode 0x5100000000000004 = some (.recP 4) ∧
    decode 0x5200000000000004 = some (.recQ 4) ∧ decode 0x5300000000000005 = some (.recR 5) ∧
    decode 0x5400000000080005 = some (.recPQ 5 8) ∧ decode 0x5500000000080005 = some (.recPR 5 8) ∧
    decode 0x5600000000050003 = some (.recQR 3 5) ∧ decode 0x5700000800050003 = some (.recPQR 3 5 8) := by decide

/-- The words of 95_test_vectors section 6.1, and the ends of the undefined opcode ranges of 30_encoding R98. -/
theorem test_decode_illegal :
    ([0x0600000000000000, 0xFFFFFFFFFFFFFFFF, 0x0000000000000001, 0x0401000000000000, 0x2000000100010001,
      0x5100000000010005, 0x3100000000010000, 0x4000000000000001] : List Word).map decode = List.replicate 8 none ∧
    [0x06, 0x0F, 0x14, 0x1F, 0x25, 0x2F, 0x37, 0x3F, 0x44, 0x4F, 0x58, 0xFF].map (fun op => decode (wordOf op 0 0 0 0)) =
      List.replicate 12 none := by decide +kernel

theorem test_table_word : decodeTableWord 64 0x5002000000080005 = some (.recList 2 5 8 0) := by decide

/-! ### The map commands (95_test_vectors sections 5.1, 6.2, 6.3) -/

theorem test_nop : faults .nop State.reset = some (0, 0, 0) := by decide +kernel

theorem test_map_open_edges :
    faults (.mapOpen 258 3) State.reset = some (2, 0, 0) ∧ faults (.mapOpen 259 3) State.reset = some (1, 4, 0x103) ∧
    faults (.mapOpen 0 0) State.reset = some (1, 3, 0) ∧ faults (.mapOpen 3 3) State.reset = some (1, 4, 3) := by
  decide +kernel

theorem test_map_open_fields :
    after (exec (.mapOpen 5 2) (regs 1 2 3 4)) (fun t => [t.register t.here 11, t.register t.here 12, t.register t.here 13,
      t.register t.here 14, t.register t.here 17, t.register t.here 18, t.register t.here 19, t.register t.here 20]) =
      some [5, 2, 2, 0, 1, 2, 3, 4] := by decide +kernel

theorem test_col_set :
    after (exec (.colSet 3) { openWith (mapOf 2 0 cols51) with
        ctxs := [{ (openWith (mapOf 2 0 cols51)).here with a0 := 0x1300, a1 := 192, a2 := 7, a3 := 9 }, Context.reset] })
      (fun t => (t.here.map.entry 3, t.here.map.entry 2)) =
      some ({ base := 0x1300, size := 192, dev := 7, devoff := 9, set := true }, column 0x1200 128) := by decide +kernel

theorem test_col_set_index : faults (.colSet 5) (openWith (mapOf 2 0 cols51)) = some (3, 5, 5) := by decide +kernel

theorem test_col_get :
    after (exec (.colGet 4) (validWith (mapOf 2 128 cols51))) (fun t => [t.here.a0, t.here.a1, t.here.a2, t.here.a3]) =
      some [0x1400, 64, 0, 0] := by decide +kernel

theorem test_col_get_state : faults (.colGet 0) State.reset = some (1, 2, 0x0300000000000000) := by decide +kernel

theorem test_map_commit :
    after (exec .mapCommit (openWith (mapOf 2 0 cols51))) (fun t => (t.here.status, t.here.map.psize)) = some (4, 128) := by
  decide +kernel

/-- The faulting rows of 95_test_vectors section 6.3. -/
theorem test_map_commit_faults :
    faults .mapCommit (open51 3 Col.reset) = some (3, 12, 3) ∧
    faults .mapCommit (open51 4 (column 0x1404 0)) = some (3, 6, 4) ∧
    faults .mapCommit (open51 4 (column 0x1400 32)) = some (3, 7, 4) ∧
    faults .mapCommit (open51 2 (column 0x1210 128)) = some (3, 7, 2) ∧
    faults .mapCommit (open51 4 (column 0x1ffc0 128)) = some (3, 13, 4) ∧
    faults .mapCommit (open51 4 (column 0x1ffc0 64)) = some (4, 0, 0) ∧
    faults .mapCommit (open51 0 (column 0xFFFFFFFFFFFFFFC0 128)) = some (3, 13, 0) ∧
    faults .mapCommit (open51 3 (column 0x1300 64)) = some (3, 6, 3) ∧
    faults .mapCommit (open51 4 (column 0x1400 192)) = some (3, 6, 4) ∧
    faults .mapCommit (open51 1 (column 0x1100 64)) = some (3, 6, 1) := by decide +kernel

theorem test_map_close :
    after (exec .mapClose (validWith (mapOf 2 128 cols51)))
      (fun t => (t.here.status, t.here.map.ncols, t.here.map.p, t.here.map.psize, t.here.map.entry 1)) =
      some (0, 0, 0, 0, Col.reset) := by decide +kernel

theorem test_map_close_state : faults .mapClose State.reset = some (1, 2, 0x0500000000000000) := by decide +kernel

/-! ### The selection commands (95_test_vectors section 5.4) -/

theorem test_bk_set :
    after (exec .bkSet (regs 0x000072616C616373 0 0 0)) (fun t => (t.here.res, t.bsel)) = some (0, 0) ∧
    after (exec .bkSet (regs 0x1234 0 0 0)) (fun t => (t.here.res, t.bsel)) = some (1, 2) := by decide +kernel

theorem test_bk_set_unavailable :
    after (exec .bkSet { regs 0x0000323135787661 0 0 0 with avail := 0b011, bsel := 1 })
      (fun t => (t.here.res, t.bsel, t.here.fault)) = some (2, 1, false) := by decide +kernel

theorem test_bk_auto :
    after (exec .bkAuto { State.reset with avail := 0b011, bsel := 0 }) (fun t => (t.here.res, t.bsel)) = some (1, 1) := by
  decide +kernel

theorem test_bk_get : res .bkGet { State.reset with bsel := 1 } = some 1 := by decide +kernel

theorem test_bk_enum :
    [0, 1, 2, 3].map (fun i => res (.bkEnum i) { State.reset with avail := 0b011 }) =
      [some 0x000072616C616373, some 0x0000000032787661, some 0, some 0] ∧
    res (.bkEnum 65535) State.reset = some 0 := by decide +kernel

/-! ### The field commands (95_test_vectors section 2) -/

theorem test_gf_mul :
    [(0x00, 0xff), (0x02, 0x80), (0x53, 0xca), (0xff, 0xff), (0x8e, 0x8e), (0xb6, 0x47), (0x03, 0xf4)].map
      (fun p => res (.gfMul p.1 p.2) State.reset) =
      [some 0x00, some 0x1d, some 0x8f, some 0xe2, some 0x47, some 0xa3, some 0x01] := by decide +kernel

theorem test_gf_mul_range : faults (.gfMul 300 301) State.reset = some (1, 11, 0x12c) := by decide +kernel

theorem test_gf_exp2 :
    [(0x00, 65535), (0x01, 8), (0x02, 509), (0x8e, 255), (0x8e, 256), (0xff, 7)].map
      (fun p => res (.gfExp2 p.1 p.2) State.reset) =
      [some 0x00, some 0x1d, some 0x01, some 0x8e, some 0x01, some 0x62] := by decide +kernel

theorem test_gf_exp2_range :
    faults (.gfExp2 0x8e 257) State.reset = some (1, 11, 0x101) ∧
    faults (.gfExp2 256 0) State.reset = some (1, 11, 0x100) := by decide +kernel

theorem test_gf_fixexp :
    [0, 255, 256, 300, 510].map (fun e => res (.gfFixexp 0 e) State.reset) =
      [some 0, some 255, some 1, some 45, some 255] ∧
    [0, 8, 254, 300, 510].map (fun e => res (.gfFixexp 1 e) State.reset) =
      [some 0x01, some 0x1d, some 0x8e, some 0xc1, some 0x01] := by decide +kernel

theorem test_gf_fixexp_order :
    faults (.gfFixexp 3 511) State.reset = some (1, 10, 3) ∧
    faults (.gfFixexp 0 511) State.reset = some (1, 11, 0x1ff) := by decide +kernel

theorem test_gf_pow2 :
    [7, 8, 25, 127, 255, 263, 510].map (fun k => res (.gfPow2 k) State.reset) =
      [some 0x80, some 0x1d, some 0x03, some 0xcc, some 0x01, some 0x1d, some 0x01] ∧
    faults (.gfPow2 511) State.reset = some (1, 11, 0x1ff) := by decide +kernel

theorem test_gf_log2 :
    [0x00, 0x02, 0x03, 0x09, 0x46, 0x8e, 0xff].map (fun a => res (.gfLog2 a) State.reset) =
      [some 0, some 1, some 25, some 223, some 48, some 254, some 175] ∧
    faults (.gfLog2 256) State.reset = some (1, 11, 0x100) := by decide +kernel

/-! ### The lane commands (95_test_vectors sections 3.1, 6.5) -/

/-- Bytes 0 to 15 of `V1`, and of `V2`, of section 3.1. -/
def lanes31 : State :=
  at0 { Context.reset with
    v := (Context.reset.v.set 1 (Vector.ofFn fun k : Fin 64 =>
        ([0x03, 0x14, 0x25, 0x36, 0x47, 0x58, 0x69, 0x7a, 0x8b, 0x9c, 0xad, 0xbe, 0xcf, 0xe0, 0xf1, 0x02] : List Byte).getD
          k.val 0)).set 2 (Vector.ofFn fun k : Fin 64 =>
        ([0xff, 0xfa, 0xf5, 0xf0, 0xeb, 0xe6, 0xe1, 0xdc, 0xd7, 0xd2, 0xcd, 0xc8, 0xc3, 0xbe, 0xb9, 0xb4] : List Byte).getD
          k.val 0) }

theorem test_lane_width :
    [0, 1, 2].map (fun bk => res (.laneWidth bk) State.reset) = [some 8, some 32, some 64] ∧
    faults (.laneWidth 255) State.reset = some (1, 10, 0xff) := by decide +kernel

theorem test_lane_load :
    lane (.laneLoad 0 1) { regs 0x800 0 0 0 with mem := cellsAt 0x800 [0x03, 0x14, 0x25, 0x36, 0x47, 0x58, 0x69, 0x7a, 0x8b] }
      1 [0, 1, 2, 3, 4, 5, 6, 7, 8, 63] = some [0x03, 0x14, 0x25, 0x36, 0x47, 0x58, 0x69, 0x7a, 0, 0] := by decide +kernel

theorem test_lane_load_address :
    faults (.laneLoad 0 0) (regs 0x1004 0 0 0) = some (1, 7, 0x1004) ∧
    faults (.laneLoad 1 0) (regs 0x1020 0 0 0) = some (0, 0, 0) ∧
    faults (.laneLoad 0 0) (regs 0x1fff8 0 0 0) = some (0, 0, 0) ∧
    faults (.laneLoad 2 0) (regs 0x20000 0 0 0) = some (1, 13, 0x20000) ∧
    faults (.laneLoad 0 0) (regs 0x20001 0 0 0) = some (1, 7, 0x20001) := by decide +kernel

theorem test_lane_store :
    bytes (.laneStore 0 2)
      { lanes31 with
        ctxs := [{ lanes31.here with a0 := 0x860 }, Context.reset], mem := [(0x85f, 0x11), (0x860, 0x22), (0x868, 0x33)] }
      [0x85f, 0x860, 0x861, 0x867, 0x868] = some [0x11, 0xff, 0xfa, 0xdc, 0x33] := by decide +kernel

theorem test_lane_store_align : faults (.laneStore 2 0) (regs 0x1020 0 0 0) = some (1, 7, 0x1020) := by decide +kernel

theorem test_lane_xor :
    lane (.laneXor 1 3 1 2) lanes31 3 [0, 1, 2, 3, 7, 8, 15] = some [0xfc, 0xee, 0xd0, 0xc6, 0xa6, 0x5c, 0xb6] ∧
    lane (.laneXor 0 1 1 1) lanes31 1 [0, 7, 8] = some [0, 0, 0] := by decide +kernel

theorem test_lane_xor_order : faults (.laneXor 0 0 17 18) State.reset = some (1, 11, 0x11) := by decide +kernel

theorem test_lane_mul2 :
    lane (.laneMul2 0 1 1) lanes31 1 [0, 1, 2, 3, 4, 5, 6, 7, 8] =
      some [0x06, 0x28, 0x4a, 0x6c, 0x8e, 0xb0, 0xd2, 0xf4, 0] := by decide +kernel

theorem test_lane_mul2_unavailable :
    faults (.laneMul2 2 0 0) { State.reset with avail := 0b011 } = some (1, 10, 2) := by decide +kernel

theorem test_lane_mul4 :
    lane (.laneMul4 1 5 1) lanes31 5 [0, 4, 5, 8, 15] = some [0x0c, 0x01, 0x7d, 0x16, 0x08] := by decide +kernel

theorem test_lane_mulc :
    lane (.laneMulc 1 6 1 200) lanes31 6 [0, 1, 2, 15] = some [0x24, 0xad, 0xcb, 0x38] ∧
    lane (.laneMulc 0 7 1 455) lanes31 7 [0, 1, 2, 8] = some [0x24, 0xad, 0xcb, 0] := by decide +kernel

theorem test_lane_mulc_order : faults (.laneMulc 0 0 16 511) State.reset = some (1, 11, 0x10) := by decide +kernel

/-! ### Generation (95_test_vectors sections 3.2, 3.3, 6.4) -/

theorem test_gen :
    bytes .gen (spoilt [0x1000, 0x1080, 0x1100]) [0x1000, 0x1080, 0x1100, 0x1180] = some [0x38, 0xcf, 0xe2, 0x80] := by
  decide +kernel

theorem test_gen_p :
    bytes .genP (spoilt [0x1000, 0x1080, 0x1100]) [0x1000, 0x1080, 0x1100] = some [0x38, 0xaa, 0xaa] := by decide +kernel

theorem test_gen_pq :
    bytes .genPQ (spoilt [0x1000, 0x1080, 0x1100]) [0x1000, 0x1080, 0x1100] = some [0x38, 0xcf, 0xaa] := by decide +kernel

theorem test_gen_pqr :
    bytes .genPQR (spoilt [0x1000, 0x1080, 0x1100]) [0x1000, 0x1080, 0x1100] = some [0x38, 0xcf, 0xe2] := by decide +kernel

theorem test_gen_width :
    faults .genPQR (demoOf 2) = some (5, 8, 3) ∧ faults .genPQ (demoOf 1) = some (5, 8, 2) ∧
    faults .gen State.reset = some (1, 2, 0x4000000000000000) := by decide +kernel

/-- The short last column: beyond its 64 bytes it counts as zero (95_test_vectors section 3.2, row `80 ff 00`). -/
theorem test_gen_short_column :
    let m := mapOf 3 128 [column 0x1000 128, column 0x1080 128, column 0x1100 128, column 0x1180 128, column 0x1200 128,
      column 0x1280 64]
    let mem : Memory := [(0x1180 + 100, 0x80), (0x1200 + 100, 0xff), (0x1280 + 100, 0xee)]
    bytes .gen { validWith m with mem := mem } [0x1000 + 100, 0x1080 + 100, 0x1100 + 100, 0x1280 + 100] =
      some [0x7f, 0xd9, 0x33, 0xee] := by decide +kernel

/-! ### Reconstruction (95_test_vectors sections 4.1, 4.5, 6.4) -/

theorem test_rec_one :
    bytes (.recP 4) (spoilt [0x1200]) [0x1200] = some [0xff] ∧ bytes (.recQ 4) (spoilt [0x1200]) [0x1200] = some [0xff] ∧
    bytes (.recR 4) (spoilt [0x1200]) [0x1200] = some [0xff] ∧ marks (.recR 4) (spoilt [0x1200]) = some (1, 1, 0) := by
  decide +kernel

theorem test_rec_pq :
    bytes (.recPQ 3 5) (spoilt [0x1180, 0x1280]) [0x1180, 0x1280] = some [0x80, 0x1d] ∧
    marks (.recPQ 3 5) demo = some (3, 2, 0) := by decide +kernel

theorem test_rec_pr :
    bytes (.recPR 3 5) (spoilt [0x1180, 0x1280]) [0x1180, 0x1280] = some [0x80, 0x1d] := by decide +kernel

theorem test_rec_qr :
    bytes (.recQR 3 5) (spoilt [0x1000, 0x1180, 0x1280]) [0x1000, 0x1180, 0x1280] = some [0xaa, 0x80, 0x1d] := by
  decide +kernel

theorem test_rec_pqr :
    bytes (.recPQR 3 4 6) (spoilt [0x1180, 0x1200, 0x1300]) [0x1180, 0x1200, 0x1300] = some [0x80, 0xff, 0x5a] ∧
    marks (.recPQR 3 4 6) demo = some (7, 3, 0) := by decide +kernel

theorem test_rec_list :
    bytes (.recList 3 0 3 5) (spoilt [0x1000, 0x1180, 0x1280]) [0x1000, 0x1180, 0x1280] = some [0xaa, 0x80, 0x1d] ∧
    marks (.recList 3 0 3 5) demo = some (3, 2, 1) ∧ marks (.recList 3 0 1 5) demo = some (1, 1, 2) := by decide +kernel

theorem test_rec_explicit_faults :
    faults (.recQ 5) (demoOf 1) = some (5, 8, 2) ∧ faults (.recR 5) (demoOf 2) = some (5, 8, 3) ∧
    faults (.recPQ 2 5) demo = some (5, 5, 2) ∧ faults (.recPQ 12 11) demo = some (5, 5, 0xc) ∧
    faults (.recPQ 5 5) demo = some (5, 9, 0x5400000000050005) ∧
    faults (.recPQR 3 5 5) demo = some (5, 9, 0x5700000500050003) := by decide +kernel

theorem test_rec_list_faults :
    faults (.recList 0 0 0 0) demo = some (5, 9, 0x5000000000000000) ∧
    faults (.recList 1 5 8 0) demo = some (5, 9, 0x5001000000080005) ∧
    faults (.recList 2 5 10 0) demo = some (5, 5, 10) ∧ faults (.recList 3 0 1 2) demo = some (5, 9, 0x5003000200010000) ∧
    faults (.recList 3 0 5 6) (demoOf 2) = some (5, 8, 2) ∧ faults (.recList 2 0 5 0) (demoOf 1) = some (5, 8, 1) := by
  decide +kernel

/-! ### The step, the port, reset, faults (95_test_vectors sections 5.4, 6.1) -/

theorem test_illegal_words :
    faultsOfWord 0x0600000000000000 State.reset = some (1, 1, 0x0600000000000000) ∧
    faultsOfWord 0x0401000000000000 (openWith (mapOf 2 0 cols51)) = some (3, 1, 0x0401000000000000) ∧
    faultsOfWord 0x4000000000000001 State.reset = some (1, 1, 0x4000000000000001) := by decide +kernel

theorem test_fetch_word :
    after (step (State.reset.withFetchWord 64 0x2000000000800002)) (fun t => t.here.res) = some 0x1d := by decide +kernel

/-- Context 0 of program 5.4 after row 14: faulted with a valid map. -/
def stopped : State :=
  at0 { Context.reset with
    a0 := 0x40c0, fault := true, fcode := 8, finfo := 2, mapv := true,
    map := mapOf 1 64 [column 0x4000 64, column 0x4040 64, column 0x4080 64, column 0x40c0 64] }

theorem test_faulted_context_ignores_writes :
    after (step { stopped with pending := [wrA 0 0 0x1234] }) (fun t => t.here.a0) = some 0x40c0 ∧
    after (step { stopped with pending := [cmd 0 .mapClose] })
      (fun t => [1, 11, 12, 14, 3, 4].map (t.register t.here)) = some [5, 4, 1, 64, 8, 2] := by decide +kernel

theorem test_other_context_runs :
    after (step { stopped with pending := [cmd 1 (.gfMul 2 0x80)] }) (fun t => (t.here.res, t.here.status)) =
      some (0x1d, 0) := by decide +kernel

theorem test_register_read :
    after (step { stopped with pending := [.regRead 0 1] }) (fun t => t.readBack) = some (some 5) ∧
    after (step { State.reset with pending := [.regRead 1 9] }) (fun t => t.readBack) = some (some 2) := by decide +kernel

/-- 20_memory R65 on words of 95_test_vectors: the name "avx2" stored to `A0` of context 0, first character at the lowest offset,
and the word of `GF_MUL 2, 0x80` stored to `CMD` of context 1. -/
theorem test_mapped_write :
    mappedWrite 0x28 [0x61, 0x76, 0x78, 0x32, 0, 0, 0, 0] = some (.regWrite 0 5 0x0000000032787661) ∧
    mappedWrite 0x1000 [0x02, 0, 0x80, 0, 0, 0, 0, 0x20] = some (.regWrite 1 0 0x2000000000800002) ∧
    mappedWrite 0x28 [0x61] = none ∧ mappedWrite 0x2c [0x61, 0x76, 0x78, 0x32, 0, 0, 0, 0] = none := by decide

/-- `RES = 0x000072616C616373` ("scalar") loaded through a memory-mapped port. -/
theorem test_mapped_read :
    mappedRead 0x10 8 = some (.regRead 0 2) ∧ mappedRead 0x10 4 = none ∧
    after (step { at0 { Context.reset with res := 0x000072616C616373 } with pending := [.regRead 0 2] }) State.mappedBytes =
      some (some [0x73, 0x63, 0x61, 0x6c, 0x61, 0x72, 0, 0]) := by decide +kernel

theorem test_host_memory :
    after (step { State.reset with pending := [.memWrite 0x1fffe [0x11, 0x22]] }) (fun t => t.mem) =
      some [(0x1fffe, 0x11), (0x1ffff, 0x22)] ∧
    after (step { State.reset with pending := [.memWrite 0x1ffff [0x11, 0x22]] }) (fun t => t.mem) = none := by
  decide +kernel

theorem test_reset :
    after (step { stopped with pending := [.reset 0b011] }) (fun t => (t.avail, t.bsel, t.here.status, t.here.map.p)) =
      some (0b011, 1, 0, 0) := by decide +kernel

/-- `OPEN 5, 2` and `SELECT "avx2"` expand as 30_encoding R112 says. -/
theorem test_pseudo_instructions :
    asmOpen 0 5 2 0 0 0 0 = [.regWrite 0 5 0, .regWrite 0 6 0, .regWrite 0 7 0, .regWrite 0 8 0,
      .regWrite 0 0 0x0100000000020005] ∧
    asmSelect 0 ['a', 'v', 'x', '2'] = [.regWrite 0 5 0x0000000032787661, .regWrite 0 0 0x1000000000000000] := by
  decide

/-! ### The field -/

/-- 40_field R121, R132 and 95_test_vectors section 2.3. -/
theorem test_field_values :
    ([0x00, 0x01, 0x40, 0x7f, 0x80, 0x8e, 0xc3, 0xff] : List Byte).map dbl =
      [0x00, 0x02, 0x80, 0xfe, 0x1d, 0x01, 0x9b, 0xe3] ∧
    ([0x02, 0x03, 0x1d, 0xff, 0x01] : List Byte).map inv = [0x8e, 0xf4, 0x83, 0xfd, 0x01] := by decide +kernel

/-! ### Witnesses: a state and operands that meet the hypotheses of each statement -/

theorem ok_reset : Context.reset.Ok Config.vectors 0b111 where
  guard_clear := rfl
  not_both := by decide
  no_fault := fun _ => ⟨rfl, rfl⟩
  fault_code := by decide
  map_none := fun _ => rfl
  unset_zero := fun k h _ => by simp [Context.reset, ColMap.reset]
  map_header := fun h => absurd h (by decide)
  map_valid := fun h => absurd h (by decide)

/-- A state that is `State.reset` but for context 0 and memory has the invariant when the two do. -/
theorem inv_at0 {c : Context} {m : Memory} (hc : c.Ok Config.vectors 0b111) (hm : m.wf = true)
    (hb : m.below 0x20000 = true) : State.Inv { at0 c with mem := m } where
  params := (by decide : Config.vectors.wf = true)
  contexts := rfl
  addressed := (by decide : 0 < 2)
  scalar_available := (by decide : registered 0b111 0 = true)
  available_compiled := fun b h => by
    have : ∀ b < 3, registered 0b111 b = true → compiledIn 0b111 b = true := by decide
    exact this b (by simp [registered] at h; exact h.1) h
  selected := (by decide : registered 0b111 (BitVec.toNat (BitVec.ofNat 8 (best (availMask 0b111 0b111)))) = true)
  mem_wf := hm
  mem_below := hb
  each := fun x hx => by
    rcases List.mem_pair.1 hx with rfl | rfl
    · exact hc
    · exact ok_reset

theorem inv_reset : State.reset.Inv := inv_at0 ok_reset (by decide) (by decide)

theorem ready_reset : State.reset.Ready := ⟨by decide, rfl, rfl⟩

/-- The conditions of a valid map's layout, as bounded questions. -/
theorem layout_of {m : ColMap} (h : (decide (1 ≤ m.p) && decide (m.p + 1 ≤ m.ncols) && decide (m.ncols ≤ m.p + ndataMax)
    && decide (∀ c < m.ncols, 0 < m.size c ∧ m.size c % 64 = 0 ∧ m.base c % wmax = 0 ∧ m.base c + m.size c ≤ 0x20000 ∧
      (m.p ≤ c → c + 1 < m.ncols → m.size c = m.psize.toNat) ∧ (c < m.p → m.size c = m.psize.toNat))
    && (decide (m.size (m.ncols - 1) = m.psize.toNat) ||
      decide (m.p + 2 ≤ m.ncols ∧ m.size (m.ncols - 1) + 64 = m.psize.toNat))) = true) : m.Layout Config.vectors := by
  simp only [Bool.and_eq_true, Bool.or_eq_true, decide_eq_true_eq] at h
  obtain ⟨⟨⟨⟨h1, h2⟩, h3⟩, h4⟩, h5⟩ := h
  exact {
    parity_pos := h1, data_pos := h2, data_le := h3
    size_pos := fun c hc => (h4 c hc).1
    size_sector := fun c hc => (h4 c hc).2.1
    base_aligned := fun c hc => (h4 c hc).2.2.1
    in_memory := fun c hc => (h4 c hc).2.2.2.1
    data_full := fun c hp hc => (h4 c (by omega)).2.2.2.2.1 hp hc
    last_size := h5
    parity_full := fun c hc => (h4 c (by omega)).2.2.2.2.2 hc }

theorem unset_mapOf (parity : Nat) (psize : Word) (cols : List Col) (hs : ∀ x ∈ cols, x.set = true) (k : Nat) (h : k < 258)
    (hk : (mapOf parity psize cols).col[k].set = false) : (mapOf parity psize cols).col[k] = Col.reset := by
  simp only [mapOf, Vector.getElem_ofFn, List.getD_eq_getElem?_getD] at hk ⊢
  cases hc : cols[k]? with
  | none => rfl
  | some x => simp [hc, hs x (List.mem_of_getElem? hc)] at hk

theorem ok_valid {m : ColMap} (hl : m.Layout Config.vectors) (hb : registered 0b111 m.backend.toNat = true)
    (hu : ∀ k (h : k < 258), m.col[k].set = false → m.col[k] = Col.reset) :
    ({ Context.reset with mapv := true, map := m } : Context).Ok Config.vectors 0b111 where
  guard_clear := rfl
  not_both := by simp [Context.reset]
  no_fault := fun _ => ⟨rfl, rfl⟩
  fault_code := by simp [Context.reset]
  map_none := by simp [Context.mapNone, Context.reset]
  unset_zero := hu
  map_header := fun _ => ⟨hl.parity_pos, hl.data_pos, hl.data_le, hb⟩
  map_valid := fun _ => hl

theorem demo_computes {p : Nat} (h : p = 1 ∨ p = 2 ∨ p = 3) : (demoOf p).Computes := by
  rcases h with rfl | rfl | rfl <;> exact {
    inv := inv_at0 (ok_valid (layout_of (by decide +kernel)) (by decide +kernel) (unset_mapOf _ _ _ (by decide))) (by decide +kernel) (by decide +kernel)
    running := rfl, valid := rfl, own := ⟨by decide +kernel, by decide +kernel, by decide +kernel⟩ }

theorem lost5_computes : lost5.Computes where
  inv := inv_at0 (ok_valid (layout_of (by decide +kernel)) (by decide +kernel) (unset_mapOf _ _ _ (by decide))) (by decide +kernel) (by decide +kernel)
  running := rfl
  valid := rfl
  own := ⟨by decide +kernel, by decide +kernel, by decide +kernel⟩

theorem open51_inv : (openWith (mapOf 2 0 cols51)).Inv :=
  inv_at0 (c := { Context.reset with mapopen := true, map := mapOf 2 0 cols51 }) (m := []) {
    guard_clear := rfl, not_both := by decide +kernel, no_fault := fun _ => ⟨rfl, rfl⟩, fault_code := by decide +kernel
    map_none := fun h => absurd h (by decide)
    unset_zero := unset_mapOf _ _ _ (by decide)
    map_header := fun _ => ⟨by decide +kernel, by decide +kernel, by decide +kernel, by decide +kernel⟩
    map_valid := fun h => absurd h (by decide) } (by decide) (by decide)

theorem of_after {α : Type} {r : Result} {f : State → α} {v : α} (h : after r f = some v) : ∃ t, r = .next t ∧ f t = v := by
  cases r with
  | next t => exact ⟨t, rfl, by simpa [after] using h⟩
  | fault _ => simp [after] at h
  | refused _ => simp [after] at h

theorem ready_of {s : State} (h : (decide (s.cur < s.ctxs.length) && !s.here.fault && !s.here.vguard) = true) : s.Ready := by
  simp only [Bool.and_eq_true, decide_eq_true_eq, Bool.not_eq_true'] at h
  exact ⟨h.1.1, h.1.2, h.2⟩

theorem test_meets_DecodeOfEncode :
    (Instr.recPQR 65535 0 65535).wf = true ∧ (Instr.laneMulc 255 65535 65535 65535).wf = true := by decide

theorem test_meets_DecodeIsTheUniqueRow :
    (∃ r ∈ opcodeMap, r.accepts 0x0100000000020005 = true) ∧ (∃ r ∈ opcodeMap, r.accepts 0x50FFFFFFFFFFFFFF = true) ∧
    ∀ r ∈ opcodeMap, r.accepts 0x0600000000000000 = false := by decide

theorem test_meets_IllegalWordFaults :
    [opField 0x0600000000000000, opField 0x0FFFFFFFFFFFFFFF, opField 0x1400000000000000, opField 0x58FFFFFFFFFFFFFF] =
      [0x06, 0x0F, 0x14, 0x58] ∧
    (∃ r ∈ opcodeMap, r.pattern = Word.ofNat (opField 0x0000000000000001 * 2 ^ 56) ∧ r.accepts 0x0000000000000001 = false) ∧
    1 < State.reset.ctxs.length ∧ 1 < State.reset.cfg.nctx ∧ State.reset.ctxs[1].fault = false ∧
    decode 0x0000000000000001 = none := by decide

theorem test_meets_StepRunsDecodedCommand :
    0 < State.reset.cfg.nctx ∧ 1 < State.reset.cfg.nctx ∧ decode 0x2000000000800002 = some (.gfMul 2 0x80) ∧
    decodeTableWord 64 0x2000000000800002 = some (.gfMul 2 0x80) := by decide

theorem test_meets_FaultedContextIgnoresWrites :
    0 < stopped.ctxs.length ∧ 0 < stopped.cfg.nctx ∧ stopped.ctxs[0].fault = true := by decide

theorem test_meets_RegisterPortAccess :
    ¬ (2 < State.reset.cfg.nctx ∧ 0 < 512) ∧ ¬ (1 < State.reset.cfg.nctx ∧ 512 < 512) ∧
    (1 < State.reset.ctxs.length ∧ 1 < State.reset.cfg.nctx ∧ 511 < 512 ∧ 511 ∉ [0, 5, 6, 7, 8]) ∧
    State.reset.ctxs[1].fault = false := by decide

theorem test_meets_RegisterTable : portOffset 1 511 = 0x1FF8 ∧ portAt 0x1FF8 = some (1, 511) ∧ portOffset 0 20 = 0xA0 ∧
    1 < State.reset.ctxs.length ∧ 1 < State.reset.cfg.nctx ∧ 511 < 512 ∧
    (([0x61] : List Byte).length ≠ 8 ∨ 0 % 8 ≠ 0) ∧ ((regBytes 0).length ≠ 8 ∨ 0x2c % 8 ≠ 0) ∧
    ['a', 'v', 'x', '5', '1', '2'].length ≤ 8 := by decide

theorem test_meets_HostMemoryAccess :
    0x1fffe + [0x11, 0x22].length ≤ State.reset.cfg.memLimit ∧ State.reset.cfg.memLimit < 0x1ffff + [0x11, 0x22].length ∧
    0x1ffff < State.reset.cfg.memLimit ∧ State.reset.cfg.memLimit ≤ 0x20000 := by decide

theorem test_meets_ResetEventClears : ({ stopped with pending := [.reset 0b011] } : State).pending = .reset 0b011 :: [] := rfl

theorem test_meets_ResetSatisfiesInv :
    Config.vectors.wf = true ∧ Memory.wf [(5, 1), (0x1ffff, 2)] = true ∧
    Memory.below [(5, 1), (0x1ffff, 2)] Config.vectors.memLimit = true ∧
    Config.wf { sector := 64, memLimit := 2 ^ 64, nctx := 1, ci := 0b000 } = true := by decide

theorem test_meets_StepKeepsInv : State.reset.Inv ∧ (∃ t, step State.reset = .next t) ∧ demo.Inv ∧ ∃ t, exec .gen demo = .next t :=
  ⟨inv_reset, ⟨_, rfl⟩, (demo_computes (by decide)).inv,
    let ⟨t, h, _⟩ := of_after (f := fun _ => ()) (by decide +kernel : after (exec .gen demo) (fun _ => ()) = some ()); ⟨t, h⟩⟩

theorem test_meets_FaultEntryChangesNothingElse :
    State.reset.Ready ∧ ∃ t, exec (.gfMul 300 301) State.reset = .next t ∧ t.here.fault = true :=
  ⟨ready_reset, of_after (by decide +kernel)⟩

theorem test_meets_IllegalMapStateFaults :
    decode 0x4000000000000000 = some .gen ∧ Instr.gen.legalIn Context.reset = false ∧
    decode 0x2000000000010100 = some (.gfMul 256 1) ∧ (Instr.gfMul 256 1).legalIn Context.reset = true ∧
    ∃ t, step { State.reset with pending := [.regWrite 0 0 0x2000000000010100] } = .next t ∧ t.here.fault = true :=
  ⟨by decide, rfl, by decide, rfl, of_after (by decide +kernel)⟩

theorem test_meets_FaultStaysUntilReset :
    (∃ t, step { stopped with pending := [cmd 0 .mapClose] } = .next t) ∧ (stopped.ctxs[0]?).map Context.fault = some true ∧
    ∃ t, step { stopped with pending := [.reset 0b111] } = .next t :=
  ⟨⟨_, rfl⟩, rfl, ⟨_, rfl⟩⟩

theorem test_meets_ContextsIndependent :
    let s' : State := { State.reset with bsel := 0, ctxs := [Context.reset, { Context.reset with res := 9 }] }
    State.reset.cur < State.reset.ctxs.length ∧ s'.cur < s'.ctxs.length ∧ State.reset.cfg = s'.cfg ∧
    State.reset.avail = s'.avail ∧ State.reset.mem = s'.mem ∧ State.reset.here = s'.here ∧
    ((∀ c p, Instr.gfMul 2 3 ≠ .mapOpen c p) ∧ Instr.gfMul 2 3 ≠ .bkGet) ∧
    (∃ t, exec (.gfMul 2 3) State.reset = .next t) ∧ ∃ t, exec (.gfMul 2 3) s' = .next t :=
  ⟨by decide, by decide, rfl, rfl, rfl, rfl, by simp, ⟨_, rfl⟩, ⟨_, rfl⟩⟩

theorem test_meets_FaultsIgnoreData :
    State.reset.Ready ∧ exec (.gfMul 300 301) State.reset = .next (State.reset.takeFault .range 300) ∧
    ∃ t, exec (.gfMul 2 3) State.reset = .next t ∧ t.here.fault = false :=
  ⟨ready_reset, rfl, of_after (by decide +kernel)⟩

/-- A valid map whose two columns are the same buffer. -/
def overlapping : State := validWith (mapOf 1 64 [column 0x1000 64, column 0x1000 64])

/-- Two contexts with a valid map on the same buffers. -/
def sharing : State :=
  let c := { Context.reset with mapv := true, map := mapOf 1 64 [column 0x1000 64, column 0x1040 64] }
  { State.reset with ctxs := [c, c] }

def stop (r : Result) : Option (Fault ⊕ Refusal) :=
  match r with
  | .next _ => none
  | .fault e => some (.inl e)
  | .refused e => some (.inr e)

theorem overlapping_inv : overlapping.Inv :=
  inv_at0 (m := []) (ok_valid (layout_of (by decide +kernel)) (by decide +kernel) (unset_mapOf _ _ _ (by decide))) (by decide) (by decide)

theorem sharing_inv : sharing.Inv :=
  { inv_reset with
    contexts := rfl
    each := fun x hx => by
      rcases List.mem_pair.1 hx with rfl | rfl <;>
        exact ok_valid (layout_of (by decide +kernel)) (by decide +kernel) (unset_mapOf _ _ _ (by decide)) }

theorem test_meets_StopsOnlyOutsideDuties :
    (State.reset.Inv ∧ stop (step { State.reset with pending := [.memRead 0x20000] }) = some (.inl .hostAddress)) ∧
    stop (step { State.reset with pending := [.regRead 2 0] }) = some (.inr .outsideBlock) ∧
    (overlapping.Inv ∧ stop (exec .gen overlapping) = some (.inr .overlappingColumns)) ∧
    (sharing.Inv ∧ stop (exec .gen sharing) = some (.inr .overlapsOtherMap)) :=
  ⟨⟨inv_reset, by decide +kernel⟩, by decide +kernel, ⟨overlapping_inv, by decide +kernel⟩, sharing_inv, by decide +kernel⟩

theorem test_meets_SelectionNeverTouchesMaps :
    (∃ t, exec .bkAuto State.reset = .next t) ∧ ∃ t, exec (.gfMul 2 3) State.reset = .next t :=
  ⟨⟨_, rfl⟩, ⟨_, rfl⟩⟩

theorem test_meets_ResWriters :
    (Instr.nop.writesRes = false ∧ ∃ t, exec .nop State.reset = .next t) ∧
    (Instr.gfMul 2 3).writesRes = true ∧ State.reset.Ready ∧
    ∃ t, exec (.gfMul 2 3) State.reset = .next t ∧ t.here.fault = false :=
  ⟨⟨rfl, _, rfl⟩, rfl, ready_reset, of_after (by decide +kernel)⟩

theorem test_meets_OperandsAndLanesFrame :
    Instr.laneWritten (.laneXor 1 3 1 2) ≠ some 1 ∧ State.reset.here.vguard = false ∧
    ∃ t, exec (.laneXor 1 3 1 2) State.reset = .next t ∧ t.here.fault = State.reset.here.fault :=
  ⟨by decide, rfl, of_after (by decide +kernel)⟩

theorem test_meets_MapStateTransitions :
    (∃ t, exec (.mapOpen 5 2) State.reset = .next t ∧ t.here.fault = false) ∧
    (∃ t, exec .mapCommit (openWith (mapOf 2 0 cols51)) = .next t ∧ t.here.fault = false) ∧
    (∃ t, exec .mapClose demo = .next t ∧ t.here.fault = false) ∧
    (∃ t, exec .genPQ (demoOf 1) = .next t ∧ t.here.fault = true) ∧
    State.reset.Ready ∧ demo.Ready ∧ (openWith (mapOf 2 0 cols51)).Ready ∧ demo.here.mapValid = true :=
  ⟨of_after (by decide +kernel), of_after (by decide +kernel), of_after (by decide +kernel), of_after (by decide +kernel),
    ready_reset, ready_of (by decide +kernel), ready_of (by decide +kernel), rfl⟩

theorem test_meets_NonStoringCommandsKeepMemory :
    Instr.mapCommit.compute = false ∧ (∀ bk vs, Instr.mapCommit ≠ .laneStore bk vs) ∧
    ∃ t, exec .mapCommit State.reset = .next t :=
  ⟨rfl, by simp, ⟨_, rfl⟩⟩

theorem test_meets_MapOpenEffect :
    State.reset.Ready ∧ State.reset.here.mapNone = true ∧ demo.here.mapNone = false ∧ (0 < 1 ∨ 3 < 0) ∧ (4 < 1 ∨ 3 < 4) ∧
    (3 ≤ 3 ∨ 255 < 3 - 3) ∧ (259 ≤ 3 ∨ 255 < 259 - 3) ∧ (1 ≤ 3 ∧ 3 ≤ 3 ∧ 3 < 258 ∧ 258 - 3 ≤ 255) :=
  ⟨ready_reset, rfl, rfl, by decide, by decide, by decide, by decide, by decide⟩

theorem test_meets_ColSetEffect :
    let s := openWith (mapOf 2 0 cols51)
    s.Ready ∧ s.here.map.ncols = 5 ∧ s.here.map.ncols ≤ maxCols ∧ s.here.mapIsOpen = true ∧
    State.reset.here.mapIsOpen = false ∧ State.reset.here.map.ncols ≤ maxCols :=
  ⟨ready_of (by decide +kernel), by decide +kernel, by decide +kernel, rfl, rfl, by decide⟩

/-- Map state `OPEN` right after `MAP_OPEN 5, 2`: no column is set. -/
def opened : State := openWith { ColMap.reset with cols := 5, parity := 2, backend := 2 }

theorem opened_inv : opened.Inv :=
  inv_at0 (c := { Context.reset with mapopen := true, map := { ColMap.reset with cols := 5, parity := 2, backend := 2 } })
    (m := []) {
    guard_clear := rfl, not_both := by decide +kernel, no_fault := fun _ => ⟨rfl, rfl⟩, fault_code := by decide +kernel
    map_none := fun h => absurd h (by decide)
    unset_zero := fun k h _ => by simp [ColMap.reset]
    map_header := fun _ => ⟨by decide +kernel, by decide +kernel, by decide +kernel, by decide +kernel⟩
    map_valid := fun h => absurd h (by decide) } (by decide) (by decide)

theorem test_meets_ColGetEffect :
    (opened.Inv ∧ opened.here.mapIsOpen = true ∧ 4 < opened.here.map.ncols ∧ (opened.here.map.entry 4).set = false) ∧
    demo.Ready ∧ demo.here.mapValid = true ∧ demo.here.map.ncols = 7 ∧ State.reset.here.mapIsOpen = false ∧
    State.reset.here.mapValid = false :=
  ⟨⟨opened_inv, rfl, by decide +kernel, by decide +kernel⟩, ready_of (by decide +kernel), rfl, by decide +kernel, rfl, rfl⟩

/-- The clauses of `MAP_COMMIT` on the maps of 95_test_vectors section 6.3; what each raises is `test_map_commit_faults`. -/
theorem test_meets_MapCommitChecksInOrder :
    (open51 3 Col.reset).Ready ∧ (open51 3 Col.reset).here.mapIsOpen = true ∧ State.reset.here.mapIsOpen = false ∧
    (let m := (open51 3 Col.reset).here.map;
      (m.entry 3).set = false ∧ ∀ d < 3, (m.entry d).set = true) ∧
    (let m := (open51 4 (column 0x1ffc0 128)).here.map;
      (∀ c < m.ncols, (m.entry c).set = true) ∧
      (∀ d < 4, m.size d ≠ 0 ∧ m.size d % 64 = 0 ∧ m.base d % 64 = 0 ∧ m.base d + m.size d ≤ 0x20000) ∧
      m.size 4 ≠ 0 ∧ m.size 4 % 64 = 0 ∧ m.base 4 % 64 = 0 ∧ 0x20000 < m.base 4 + m.size 4) ∧
    ((open51 4 (column 0x1404 0)).here.map.size 4 = 0 ∧
      (open51 4 (column 0x1400 32)).here.map.size 4 ≠ 0 ∧ (open51 4 (column 0x1400 32)).here.map.size 4 % 64 ≠ 0 ∧
      (open51 2 (column 0x1210 128)).here.map.size 2 % 64 = 0 ∧ (open51 2 (column 0x1210 128)).here.map.base 2 % 64 ≠ 0) ∧
    (let m := (open51 3 (column 0x1300 64)).here.map;
      m.p < 3 ∧ 3 < m.ncols - 1 ∧ m.size 3 ≠ m.size m.p ∧
      ∀ c < m.ncols, m.size c ≠ 0 ∧ m.size c % 64 = 0 ∧ m.base c % 64 = 0 ∧ m.base c + m.size c ≤ 0x20000) ∧
    (let m := (open51 4 (column 0x1400 192)).here.map;
      m.p < 4 ∧ m.size 3 = m.size m.p ∧ m.size 4 ≠ m.size m.p ∧ m.size 4 + 64 ≠ m.size m.p) ∧
    (let m := (open51 1 (column 0x1100 64)).here.map;
      1 < m.p ∧ m.size 4 + 64 = m.size m.p ∧ m.size 0 = m.size m.p ∧ m.size 1 ≠ m.size m.p) :=
  ⟨ready_of (by decide +kernel), by decide +kernel, rfl, by decide +kernel, by decide +kernel, by decide +kernel,
    by decide +kernel, by decide +kernel, by decide +kernel⟩

theorem test_meets_CommitMeansLayout :
    (openWith (mapOf 2 0 cols51)).Inv ∧ (openWith (mapOf 2 0 cols51)).here.fault = false ∧
    (openWith (mapOf 2 0 cols51)).here.mapIsOpen = true :=
  ⟨open51_inv, rfl, rfl⟩

theorem test_meets_MapCloseEffect :
    demo.Ready ∧ demo.here.mapValid = true ∧ (openWith (mapOf 2 0 cols51)).here.mapIsOpen = true ∧
    (State.reset.here.mapIsOpen = false ∧ State.reset.here.mapValid = false) :=
  ⟨ready_of (by decide +kernel), rfl, rfl, rfl, rfl⟩

theorem test_meets_BkSetEffect :
    let s := regs 0x0000323135787661 0 0 0
    s.Ready ∧ pack (bkd 2).name = s.here.a0 ∧ compiledIn s.cfg.ci 2 = true ∧ registered s.avail 2 = true ∧
    registered 0b011 2 = false ∧ (∀ b < nbk, pack (bkd b).name = 0x1234 → compiledIn s.cfg.ci b = false) ∧
    ∀ b < nbk, pack (bkd b).name = 0x0000323135787661 → compiledIn 0b011 b = false :=
  ⟨ready_of (by decide +kernel), by decide, by decide, by decide, by decide, by decide, by decide⟩

theorem test_meets_BkAutoGetEnumEffect :
    State.reset.Ready ∧ registered State.reset.avail 2 = true ∧ ∀ b', registered State.reset.avail b' = true → b' ≤ 2 :=
  ⟨ready_reset, by decide, fun b' h => by simp [registered, nbk] at h; omega⟩

theorem test_meets_GfMulEffect : State.reset.Ready ∧ 255 < 256 ∧ (255 ≤ 255 ∧ 255 < 256) ∧ (255 ≤ 255 ∧ 0 ≤ 255) :=
  ⟨ready_reset, by decide, by decide, by decide⟩

theorem test_meets_GfExp2Effect :
    State.reset.Ready ∧ 255 < 256 ∧ (0 < 0x8e ∧ 0x8e ≤ 255 ∧ 510 < 257 + (log2 (BitVec.ofNat 8 0x8e)).toNat) ∧
    256 + (log2 (BitVec.ofNat 8 0x8e)).toNat ≤ 510 :=
  ⟨ready_reset, by decide, by decide +kernel, by decide +kernel⟩

theorem test_meets_GfFixexpEffect :
    State.reset.Ready ∧ registered State.reset.avail 3 = false ∧ registered State.reset.avail 0 = true ∧
    registered State.reset.avail 2 = true ∧ 510 < 511 ∧ 510 ≤ 510 :=
  ⟨ready_reset, by decide, by decide, by decide, by decide, by decide⟩

theorem test_meets_TableReadEffect : State.reset.Ready ∧ 510 < 511 ∧ 510 ≤ 510 ∧ 255 < 256 ∧ 255 ≤ 255 :=
  ⟨ready_reset, by decide, by decide, by decide, by decide⟩

theorem test_meets_field_statements :
    (254 - 1 < 254 ∧ 255 ≤ 510 ∧ pow2 0 = pow2 0) ∧ ((0x8e : Byte) ≠ 0 ∧ (0x53 : Byte) ≠ 0) ∧ (253 < 254 ∧ 254 ≤ 254) ∧
    (2 < nbk ∧ 510 ≤ 510) ∧ 7 < 8 := by decide

theorem test_meets_LaneWidthEffect :
    State.reset.Ready ∧ registered State.reset.avail 3 = false ∧ registered State.reset.avail 0 = true ∧
    registered State.reset.avail 1 = true ∧ registered State.reset.avail 2 = true :=
  ⟨ready_reset, by decide, by decide, by decide, by decide⟩

/-- For `LaneLoadEffect`, `LaneStoreEffect` and `LaneArithmeticEffect`: the last legal lane of the widest backend. -/
theorem test_meets_lane_statements :
    let s := regs 0x1ffc0 0 0 0
    s.Ready ∧ registered s.avail 2 = true ∧ s.here.a0.toNat % (bkd 2).width = 0 ∧
    s.here.a0.toNat + (bkd 2).width ≤ s.cfg.memLimit ∧ 15 ≤ 15 ∧ 510 ≤ 510 :=
  ⟨ready_of (by decide +kernel), by decide, by decide, by decide, by decide, by decide⟩

theorem test_meets_LaneChecksInOrder :
    State.reset.Ready ∧ registered State.reset.avail 3 = false ∧ registered State.reset.avail 1 = true ∧ 15 < 16 ∧
    510 < 511 ∧ ((regs 0x1008 0 0 0).Ready ∧ (0x1008 : Word).toNat % (bkd 1).width ≠ 0) ∧
    ((0x20000 : Word).toNat % (bkd 1).width = 0 ∧ State.reset.cfg.memLimit < (0x20000 : Word).toNat + (bkd 1).width) :=
  ⟨ready_reset, by decide, by decide, by decide, by decide, ⟨ready_of (by decide +kernel), by decide⟩, by decide⟩

theorem test_meets_LaneBytesIgnoreWidth :
    State.reset.Ready ∧ registered State.reset.avail 0 = true ∧ registered State.reset.avail 2 = true ∧
    (bkd 0).width ≤ (bkd 2).width ∧
    (∃ t, exec (.laneXor 0 3 1 2) State.reset = .next t ∧ t.here.fault = false) ∧
    ∃ t, exec (.laneXor 2 3 1 2) State.reset = .next t ∧ t.here.fault = false :=
  ⟨ready_reset, by decide, by decide, by decide, of_after (by decide +kernel), of_after (by decide +kernel)⟩

theorem test_meets_GenerationEffect :
    demo.Computes ∧ 2 ≤ demo.here.map.p ∧ demo.here.map.p = 3 ∧ (demoOf 1).Computes ∧ (demoOf 1).here.map.p < 2 :=
  ⟨demo_computes (by decide), by decide, by decide, demo_computes (by decide), by decide⟩

theorem test_meets_GenerationRepeats :
    demo.Computes ∧ registered demo.avail 0 = true ∧ (∃ t, exec .gen demo = .next t ∧ t.here.fault = false) ∧ (spoilt [0x1000]).mem.wf = true ∧
    (∀ a, a ≠ 0x1000 → (spoilt [0x1000]).mem.read a = demo.mem.read a) ∧
    ∃ t', exec .gen ((spoilt [0x1000]).onBackend 0) = .next t' :=
  ⟨demo_computes (by decide), by decide, of_after (by decide +kernel), by decide +kernel,
    fun a h => by
      simp [spoilt, demo, demoOf, mem7, Memory.read, List.lookup_cons, beq_eq_false_iff_ne.2 h],
    let ⟨t, h, _⟩ := of_after (f := fun _ => ())
      (by decide +kernel : after (exec .gen ((spoilt [0x1000]).onBackend 0)) (fun _ => ()) = some ()); ⟨t, h⟩⟩

theorem test_meets_ParityIsLinear :
    let m := mapOf 1 64 [column 0x1000 64, column 0x1040 64]
    m.ncols = m.p + 1 ∧ m.padded [(0x1040, 0xff)] 1 0 = m.padded [(0x1040, 0x0f)] 1 0 ^^^ m.padded [(0x1040, 0xf0)] 1 0 ∧
    m.padded [(0x1040, 0)] 1 0 = 0 := by decide +kernel

/-- For `RecOneTarget`, `RecTwoTargets` and `RecThreeTargets`, first and last data column among the targets. -/
theorem test_meets_rec_statements :
    demo.Computes ∧ demo.here.map.p = 3 ∧ demo.here.map.ncols = 7 ∧ (3 ≤ 3 ∧ 3 < 6 ∧ 6 < 7) ∧
    ((demoOf 1).Computes ∧ (demoOf 1).here.map.p = 1) ∧ (demoOf 2).Computes ∧ (demoOf 2).here.map.p = 2 :=
  ⟨demo_computes (by decide), by decide, by decide +kernel, by decide, ⟨demo_computes (by decide), by decide⟩,
    demo_computes (by decide), by decide⟩

theorem test_meets_RecSelects :
    demo.Computes ∧ (demoOf 2).Computes ∧
    (let m := demo.here.map
      let ts := damagedList 3 1 3 6
      (∀ t ∈ ts, t < m.ncols) ∧ ts.Pairwise (· < ·) ∧ m.damagedData ts ≠ [] ∧
      recTable m.p (m.damagedParity ts) (m.damagedData ts) = some (.pr 3 6)) ∧
    (let m := (demoOf 2).here.map
      let ts := damagedList 3 0 5 6
      (∀ t ∈ ts, t < m.ncols) ∧ ts.Pairwise (· < ·) ∧ m.damagedData ts ≠ [] ∧
      recTable m.p (m.damagedParity ts) (m.damagedData ts) = none) :=
  ⟨demo_computes (by decide), demo_computes (by decide), by decide +kernel, by decide +kernel⟩

theorem test_meets_ComputeChecksInOrder :
    demo.Ready ∧ demo.here.mapValid = true ∧ (demoOf 1).here.map.p < (RecCase.pq 1 5).needs ∧
    (demoOf 2).here.map.p < 3 ∧ (RecCase.pq 12 11).targets = [] ++ 12 :: [11] ∧ ¬ (3 ≤ 12 ∧ 12 < demo.here.map.ncols) ∧
    ¬ (RecCase.pq 5 5).targets.Pairwise (· < ·) ∧ ¬ (1 ≤ 4 ∧ 4 ≤ 3) ∧
    (damagedList 2 5 7 0 = [5] ++ 7 :: [] ∧ demo.here.map.ncols ≤ 7) ∧
    demo.here.map.damagedData (damagedList 3 0 1 2) = [] ∧
    (let m := (demoOf 2).here.map;
      m.p < (m.damagedParity (damagedList 3 0 5 6)).length + (m.damagedData (damagedList 3 0 5 6)).length) :=
  ⟨ready_of (by decide +kernel), rfl, by decide, by decide, by decide, by decide +kernel, by decide, by decide,
    by decide +kernel, by decide +kernel, by decide +kernel⟩

theorem test_meets_SolveIsTheUniqueSolution : (RecCase.pqr 3 4 6).Fits demo.here.map ∧ demo.here.map.ncols ≤ demo.here.map.p + 255 :=
  ⟨⟨by decide, by decide +kernel, by decide⟩, by decide +kernel⟩

theorem test_meets_ReconstructionRoundTrip :
    lost5.Computes ∧ (RecCase.pq 3 4).Fits lost5.here.map ∧
    lost5.here.map.ConsistentOn (mem5 0x80 0xff) (RecCase.pq 3 4).rows ∧
    (∀ c < lost5.here.map.ncols, lost5.here.map.p ≤ c → c ∈ (RecCase.pq 3 4).targets) ∧
    ∀ o < 192, lost5.mem.read (0x1000 + o) = (mem5 0x80 0xff).read (0x1000 + o) := by
  refine ⟨lost5_computes, ⟨by decide, by decide +kernel, by decide⟩, ?_, by decide +kernel, by decide +kernel⟩
  have hP : ∀ o < 64, lost5.here.map.stored (mem5 0x80 0xff) .P o = lost5.here.map.sumByte (mem5 0x80 0xff) .P o := by
    decide +kernel
  have hQ : ∀ o < 64, lost5.here.map.stored (mem5 0x80 0xff) .Q o = lost5.here.map.sumByte (mem5 0x80 0xff) .Q o := by
    decide +kernel
  intro j hj
  simp only [RecCase.rows, List.mem_cons, List.not_mem_nil, or_false] at hj
  rcases hj with rfl | rfl
  · exact hP
  · exact hQ

theorem test_meets_CrossBackendEquivalence :
    Instr.gen.compute = true ∧ demo.Ready ∧ registered demo.avail 0 = true ∧ registered demo.avail 2 = true ∧
    (∃ t, exec .gen (demo.onBackend 0) = .next t) ∧
    stop (exec .gen (overlapping.onBackend 0)) = some (.inr .overlappingColumns) ∧
    stop (exec .gen ((validWith (mapOf 1 64 [column 0x1000 64, column 0x20000 64])).onBackend 0)) =
      some (.inl .bufferOutsideMemory) :=
  ⟨rfl, ready_of (by decide +kernel), by decide, by decide,
    let ⟨t, h, _⟩ := of_after (f := fun _ => ())
      (by decide +kernel : after (exec .gen (demo.onBackend 0)) (fun _ => ()) = some ()); ⟨t, h⟩,
    by decide +kernel, by decide +kernel⟩

end Sys2Proof.Tests
end

section
/-! SUPPORT. What one operation of the host does at the register port (10_state R46), and the reset event (10_state R45):
one rule per operation and outcome, then the statements on them. -/

namespace Sys2Proof.Machine

/-! ### A step performs the next operation of the host -/

theorem step_of_pending {s : State} {op : HostOp} {rest : List HostOp} (hp : s.pending = op :: rest) :
    step s = { s with pending := rest }.perform op := by
  simp [step, State.hostStep, hp]

/-- The context the host has just addressed. -/
theorem here_addressed (s : State) (rest : List HostOp) {x : Nat} (h : x < s.ctxs.length) :
    ({ s with pending := rest, cur := x } : State).here = s.ctxs[x] :=
  here_eq { s with pending := rest, cur := x } h

/-! ### The register port (10_state R31, R46) -/

theorem onPort_iff (s : State) (x num : Nat) : s.onPort x num = true ↔ x < s.cfg.nctx ∧ num < 512 := by
  simp [State.onPort]

theorem onPort_eq_false_iff (s : State) (x num : Nat) : s.onPort x num = false ↔ ¬ (x < s.cfg.nctx ∧ num < 512) := by
  rw [← onPort_iff, Bool.not_eq_true]

@[simp] theorem onPort_pending (s : State) (rest : List HostOp) (x num : Nat) :
    ({ s with pending := rest } : State).onPort x num = s.onPort x num := rfl

theorem register_above (s : State) (c : Context) {num : Nat} (h : 20 < num) : s.register c num = 0 := by
  obtain ⟨k, rfl⟩ : ∃ k, num = k + 21 := ⟨num - 21, by omega⟩
  rfl

theorem step_regRead_outside {s : State} {x num : Nat} {rest : List HostOp} (hout : ¬ (x < s.cfg.nctx ∧ num < 512))
    (hp : s.pending = .regRead x num :: rest) : step s = .refused .outsideBlock := by
  simp [step_of_pending hp, State.perform, (onPort_eq_false_iff s x num).2 hout]

theorem step_regWrite_outside {s : State} {x num : Nat} {v : Word} {rest : List HostOp}
    (hout : ¬ (x < s.cfg.nctx ∧ num < 512)) (hp : s.pending = .regWrite x num v :: rest) :
    step s = .refused .outsideBlock := by
  simp [step_of_pending hp, State.perform, State.regWrite, (onPort_eq_false_iff s x num).2 hout]

/-- A read answers the register's value, whether or not the context is faulted, and changes no state of the engine. -/
theorem step_regRead_inside {s : State} {x num : Nat} {rest : List HostOp} (h : x < s.ctxs.length) (hx : x < s.cfg.nctx)
    (hn : num < 512) (hp : s.pending = .regRead x num :: rest) :
    step s = .next { s with pending := rest, readBack := some (s.register s.ctxs[x] num) } := by
  have hread : ({ s with pending := rest } : State).regRead x num = s.register s.ctxs[x] num := by
    simp only [State.regRead, List.getD_eq_getElem _ _ h]
    rfl
  simp [step_of_pending hp, State.perform, (onPort_iff s x num).2 ⟨hx, hn⟩, hread]

theorem step_regWrite_command {s : State} {x : Nat} {v : Word} {rest : List HostOp} (hx : x < s.cfg.nctx)
    (hp : s.pending = .regWrite x 0 v :: rest) : step s = { s with pending := rest, cur := x }.commandWrite v := by
  simp [step_of_pending hp, State.perform, State.regWrite, (onPort_iff s x 0).2 ⟨hx, by decide⟩]

theorem step_regWrite_operand {s : State} {x num : Nat} {v : Word} {rest : List HostOp} (hx : x < s.cfg.nctx)
    (hn : num < 512) (h0 : num ≠ 0) (hp : s.pending = .regWrite x num v :: rest) :
    step s = .next ({ s with pending := rest, cur := x }.operandWrite num v) := by
  simp [step_of_pending hp, State.perform, State.regWrite, (onPort_iff s x num).2 ⟨hx, hn⟩, h0]

theorem operandWrite_faulted {s : State} (num : Nat) (v : Word) (hf : s.here.fault = true) : s.operandWrite num v = s := by
  simp [State.operandWrite, hf]

/-- The context with operand register `num` set to `v`: `A0` .. `A3` are the numbers 5 .. 8, no other number names one. -/
def Context.setOperand (c : Context) (num : Nat) (v : Word) : Context :=
  match num with
  | 5 => { c with a0 := v }
  | 6 => { c with a1 := v }
  | 7 => { c with a2 := v }
  | 8 => { c with a3 := v }
  | _ => c

theorem setOperand_other (c : Context) {num : Nat} (v : Word) (h : num ∉ [5, 6, 7, 8]) : c.setOperand num v = c := by
  unfold Context.setOperand
  split <;> simp_all

theorem operandWrite_running {s : State} (num : Nat) (v : Word) (hf : s.here.fault = false) :
    s.operandWrite num v = s.put (s.here.setOperand num v) := by
  unfold State.operandWrite Context.setOperand
  simp only [hf, Bool.false_eq_true, if_false]
  split <;> simp

theorem operandWrite_other (s : State) {num : Nat} (v : Word) (h : num ∉ [5, 6, 7, 8]) : s.operandWrite num v = s := by
  cases hf : s.here.fault with
  | true => exact operandWrite_faulted num v hf
  | false => rw [operandWrite_running num v hf, setOperand_other _ v h, put_here]

/-- A write to a register other than `CMD` of a context that is not faulted sets that operand register and nothing else. -/
theorem step_regWrite_running {s : State} {x num : Nat} {v : Word} {rest : List HostOp} (h : x < s.ctxs.length)
    (hx : x < s.cfg.nctx) (hn : num < 512) (h0 : num ≠ 0) (hf : s.ctxs[x].fault = false)
    (hp : s.pending = .regWrite x num v :: rest) :
    step s = .next { s with pending := rest, cur := x, ctxs := s.ctxs.set x (s.ctxs[x].setOperand num v) } := by
  have hhere := here_addressed s rest h
  rw [step_regWrite_operand hx hn h0 hp, operandWrite_running num v (by rw [hhere, hf]), hhere]
  rfl

/-! ### What the probe makes available (10_state R33, R280) and the largest available backend (45_dispatch R284) -/

theorem availMask_zero (ci feat : BitVec 3) : (availMask ci feat).getLsbD 0 = true := by
  simp [availMask]

theorem availMask_pos (ci feat : BitVec 3) {b : Nat} (h0 : 0 < b) :
    (availMask ci feat).getLsbD b = (ci.getLsbD b && feat.getLsbD b) := by
  have h1 : (1#3).getLsbD b = false := by simp [BitVec.getLsbD_one]; omega
  simp [availMask, h1]

/-- The scalar backend is in the registered list whatever the probe finds (45_dispatch R280). -/
theorem registered_availMask_zero (ci feat : BitVec 3) : registered (availMask ci feat) 0 = true := by
  simp [registered, availMask_zero]

theorem lt_nbk_of_registered {avail : BitVec 3} {b : Nat} (h : registered avail b = true) : b < nbk := by
  simp only [registered, Bool.and_eq_true, decide_eq_true_eq] at h
  exact h.1

/-- The list that `best` takes the last entry of. -/
theorem mem_registered_list (avail : BitVec 3) (b : Nat) :
    b ∈ (List.range nbk).filter (registered avail) ↔ registered avail b = true := by
  rw [List.mem_filter, List.mem_range]
  exact ⟨And.right, fun h => ⟨lt_nbk_of_registered h, h⟩⟩

theorem best_eq_getLast {avail : BitVec 3} (hne : (List.range nbk).filter (registered avail) ≠ []) :
    best avail = ((List.range nbk).filter (registered avail)).getLast hne := by
  rw [best, List.getLastD_eq_getLast?, List.getLast?_eq_some_getLast hne, Option.getD_some]

theorem registered_best {avail : BitVec 3} (h : registered avail 0 = true) : registered avail (best avail) = true := by
  have hne := List.ne_nil_of_mem ((mem_registered_list avail 0).2 h)
  rw [← mem_registered_list, best_eq_getLast hne]
  exact List.getLast_mem hne

theorem le_best {avail : BitVec 3} {b : Nat} (h : registered avail b = true) : b ≤ best avail := by
  have hmem := (mem_registered_list avail b).2 h
  have hsorted : ((List.range nbk).filter (registered avail)).Pairwise (· ≤ ·) := List.pairwise_le_range.filter _
  rw [best_eq_getLast (List.ne_nil_of_mem hmem)]
  exact hsorted.rel_getLast hmem

/-- `BSEL` holds the largest available id without losing a bit. -/
theorem toNat_ofNat_best {avail : BitVec 3} (h : registered avail 0 = true) :
    (BitVec.ofNat 8 (best avail)).toNat = best avail := by
  have hlt : best avail < 3 := lt_nbk_of_registered (registered_best h)
  rw [BitVec.toNat_ofNat, Nat.mod_eq_of_lt (by omega)]

/-! ### The reset event (10_state R45, 70_reset R340) -/

theorem step_reset {s : State} {feat : BitVec 3} {rest : List HostOp} (hp : s.pending = .reset feat :: rest) :
    step s = .next ({ s with pending := rest }.blockReset feat) :=
  step_of_pending hp

@[simp] theorem blockReset_bsel (s : State) (f : BitVec 3) :
    (s.blockReset f).bsel = BitVec.ofNat 8 (best (availMask s.cfg.ci f)) := rfl

theorem cleared_reset : Context.reset.Cleared where
  operands := ⟨rfl, rfl, rfl, rfl⟩
  result := rfl
  flags := ⟨rfl, rfl, rfl, rfl⟩
  cause := ⟨rfl, rfl⟩
  header := ⟨rfl, rfl, rfl, rfl⟩
  bookkeeping := ⟨rfl, rfl, rfl, rfl, rfl, rfl⟩
  columns := fun k h => Vector.getElem_replicate h
  lanes := fun i hi k hk => by simp [Context.reset, Lane.zero]

theorem cleared_of_mem_replicate {n : Nat} {c : Context} (h : c ∈ List.replicate n Context.reset) : c.Cleared :=
  List.eq_of_mem_replicate h ▸ cleared_reset

/-! ### The statements -/

/-- Settles O7: each access is the rule of the port for its register number. -/
theorem registerPortAccess : Obligations.RegisterPortAccess := by
  intro s x num v rest
  refine ⟨fun hout => ⟨step_regRead_outside hout, step_regWrite_outside hout⟩, fun h hx hn =>
    ⟨step_regRead_inside h hx hn, register_above s _, rfl, fun hp => ⟨?command, fun hf => ?operands, fun hother => ?ignored⟩⟩⟩
  case command =>
    rintro rfl
    exact step_regWrite_command hx hp
  case operands =>
    have hset := fun h0 : num ≠ 0 => step_regWrite_running h hx hn h0 hf hp
    refine ⟨?_, ?_, ?_, ?_⟩ <;> rintro rfl <;> exact hset (by decide)
  case ignored =>
    rw [List.mem_cons, not_or] at hother
    obtain ⟨h0, hothers⟩ := hother
    rw [step_regWrite_operand hx hn h0 hp, operandWrite_other _ v hothers]

/-- Settles O10: `AVAIL` is the probe's mask, `BSEL` its largest id, and every context is the cleared one. -/
theorem resetEventClears : Obligations.ResetEventClears := by
  refine ⟨fun s feat rest hp => ?_, List.length_replicate, fun c hc => cleared_of_mem_replicate hc⟩
  have hscalar := registered_availMask_zero s.cfg.ci feat
  have hsel := toNat_ofNat_best hscalar
  refine ⟨_, step_reset hp, rfl, availMask_zero _ _, fun b h0 _ => availMask_pos _ _ h0, ?selected, fun b hb => ?largest,
    List.length_replicate, fun c hc => cleared_of_mem_replicate hc⟩
  case selected => simpa [hsel] using registered_best hscalar
  case largest => simpa [hsel] using le_best hb

end Sys2Proof.Machine
end

section
/-! SUPPORT. The opcode map row by row (30_encoding R92, R93, R95, R98): a row as a name, an opcode and the fields its format
uses; what the decoder answers on the words of a row's opcode and on the words of no row; then the statements on them. -/

namespace Sys2Proof

/-! ### A word is its five fields (30_encoding R91) -/

theorem wordOf_fields (w : Word) : wordOf (opField w) (mField w) (f2Field w) (f1Field w) (f0Field w) = w := by
  unfold wordOf opField mField f2Field f1Field f0Field
  simp only [slice_toNat]
  apply BitVec.eq_of_toNat_eq
  rw [BitVec.toNat_ofNat]
  omega

theorem opField_lt (w : Word) : opField w < 2 ^ 8 := BitVec.isLt _
theorem mField_lt (w : Word) : mField w < 2 ^ 8 := BitVec.isLt _
theorem f2Field_lt (w : Word) : f2Field w < 2 ^ 16 := BitVec.isLt _
theorem f1Field_lt (w : Word) : f1Field w < 2 ^ 16 := BitVec.isLt _
theorem f0Field_lt (w : Word) : f0Field w < 2 ^ 16 := BitVec.isLt _

@[simp] theorem fitsMod_mField (w : Word) : fitsMod (mField w) = true := (fitsMod_iff _).2 (mField_lt w)
@[simp] theorem fitsField_f2Field (w : Word) : fitsField (f2Field w) = true := (fitsField_iff _).2 (f2Field_lt w)
@[simp] theorem fitsField_f1Field (w : Word) : fitsField (f1Field w) = true := (fitsField_iff _).2 (f1Field_lt w)
@[simp] theorem fitsField_f0Field (w : Word) : fitsField (f0Field w) = true := (fitsField_iff _).2 (f0Field_lt w)

theorem word_eq_iff_fields (w v : Word) :
    w = v ↔ opField w = opField v ∧ mField w = mField v ∧ f2Field w = f2Field v ∧ f1Field w = f1Field v ∧
      f0Field w = f0Field v := by
  refine ⟨by rintro rfl; simp, fun ⟨hop, hm, h2, h1, h0⟩ => ?_⟩
  rw [← wordOf_fields w, hop, hm, h2, h1, h0, wordOf_fields]

theorem fields_and (w v : Word) :
    opField (w &&& v) = opField w &&& opField v ∧ mField (w &&& v) = mField w &&& mField v ∧
      f2Field (w &&& v) = f2Field w &&& f2Field v ∧ f1Field (w &&& v) = f1Field w &&& f1Field v ∧
      f0Field (w &&& v) = f0Field w &&& f0Field v := by
  simp [opField, mField, f2Field, f1Field, f0Field, BitVec.extractLsb'_and, BitVec.toNat_and]

/-! ### Formats (30_encoding R92) and the rows made of them -/

/-- The fields a format uses; the others must be 0. The opcode is always compared. -/
structure Format where
  m  : Bool
  f2 : Bool
  f1 : Bool
  f0 : Bool

namespace Format

def Z : Format := ⟨false, false, false, false⟩
def F1 : Format := ⟨false, false, false, true⟩
def F2 : Format := ⟨false, false, true, true⟩
def F3 : Format := ⟨false, true, true, true⟩
def B0 : Format := ⟨true, false, false, false⟩
def B1 : Format := ⟨true, false, false, true⟩
def B2 : Format := ⟨true, false, true, true⟩
/-- Formats `B3` and `T`: a command of format `T` checks the fields beyond its count itself (44_reconstruction R262). -/
def B3 : Format := ⟨true, true, true, true⟩

/-- The bits of a field of `len` bits that a mask compares: none when the format uses the field. -/
def bits (used : Bool) (len : Nat) : Nat := if used then 0 else 2 ^ len - 1

theorem bits_lt (used : Bool) (len : Nat) : bits used len < 2 ^ len := by
  cases used <;> simp [bits]

/-- Comparing the unused bits of a field with 0 says that an unused field is 0. -/
theorem and_bits_eq_zero {used : Bool} {len n : Nat} (hn : n < 2 ^ len) :
    n &&& bits used len = 0 ↔ (used = false → n = 0) := by
  cases used with
  | true => simp [bits]
  | false => simp [bits, Nat.and_two_pow_sub_one_of_lt_two_pow hn]

/-- Every field the format does not use is 0. -/
def unusedZero (f : Format) (w : Word) : Bool :=
  (f.m || mField w == 0) && (f.f2 || f2Field w == 0) && (f.f1 || f1Field w == 0) && (f.f0 || f0Field w == 0)

theorem unusedZero_iff (f : Format) (w : Word) : f.unusedZero w = true ↔
    (f.m = false → mField w = 0) ∧ (f.f2 = false → f2Field w = 0) ∧ (f.f1 = false → f1Field w = 0) ∧
      (f.f0 = false → f0Field w = 0) := by
  simp [unusedZero, or_iff_not_imp_left, and_assoc]

/-- The row of the opcode map with a name, an opcode and a format. -/
def row (f : Format) (name : String) (op : Nat) : OpRow :=
  ⟨name, wordOf op 0 0 0 0, wordOf (2 ^ 8 - 1) (bits f.m 8) (bits f.f2 16) (bits f.f1 16) (bits f.f0 16)⟩

theorem opField_row_pattern (f : Format) (name : String) {op : Nat} (hop : op < 2 ^ 8) :
    opField (f.row name op).pattern = op :=
  (fields_wordOf hop (by decide) (by decide) (by decide) (by decide)).1

/-- `w & mask = match` field by field. -/
theorem row_accepts_iff (f : Format) (name : String) {op : Nat} (hop : op < 2 ^ 8) (w : Word) :
    (f.row name op).accepts w = true ↔ opField w = op ∧ f.unusedZero w = true := by
  have hw : opField w &&& (2 ^ 8 - 1) = opField w := Nat.and_two_pow_sub_one_of_lt_two_pow (opField_lt w)
  obtain ⟨aop, am, a2, a1, a0⟩ := fields_and w (f.row name op).mask
  obtain ⟨mop, mm, m2, m1, m0⟩ := fields_wordOf (op := 2 ^ 8 - 1) (by decide) (bits_lt f.m 8) (bits_lt f.f2 16)
    (bits_lt f.f1 16) (bits_lt f.f0 16)
  obtain ⟨pop, pm, p2, p1, p0⟩ := fields_wordOf hop (m := 0) (f2 := 0) (f1 := 0) (f0 := 0) (by decide) (by decide)
    (by decide) (by decide)
  rw [OpRow.accepts, beq_iff_eq, word_eq_iff_fields, aop, am, a2, a1, a0]
  simp only [row, mop, mm, m2, m1, m0, pop, pm, p2, p1, p0, hw, and_bits_eq_zero (mField_lt w),
    and_bits_eq_zero (f2Field_lt w), and_bits_eq_zero (f1Field_lt w), and_bits_eq_zero (f0Field_lt w), unusedZero_iff]

end Format

open Format

/-- The masks and patterns of the opcode map are those of the rows' formats and opcodes (30_encoding R92, R95). -/
theorem opcodeMap_eq : opcodeMap =
    [ Z.row "NOP" 0x00, F2.row "MAP_OPEN" 0x01, F1.row "COL_SET" 0x02, F1.row "COL_GET" 0x03, Z.row "MAP_COMMIT" 0x04,
      Z.row "MAP_CLOSE" 0x05, Z.row "BK_SET" 0x10, Z.row "BK_AUTO" 0x11, Z.row "BK_GET" 0x12, F1.row "BK_ENUM" 0x13,
      F2.row "GF_MUL" 0x20, F2.row "GF_EXP2" 0x21, B1.row "GF_FIXEXP" 0x22, F1.row "GF_POW2" 0x23, F1.row "GF_LOG2" 0x24,
      B0.row "LANE_WIDTH" 0x30, B1.row "LANE_LOAD" 0x31, B1.row "LANE_STORE" 0x32, B3.row "LANE_XOR" 0x33,
      B2.row "LANE_MUL2" 0x34, B2.row "LANE_MUL4" 0x35, B3.row "LANE_MULC" 0x36, Z.row "GEN" 0x40, Z.row "GEN_P" 0x41,
      Z.row "GEN_PQ" 0x42, Z.row "GEN_PQR" 0x43, B3.row "REC" 0x50, F1.row "REC_P" 0x51, F1.row "REC_Q" 0x52,
      F1.row "REC_R" 0x53, F2.row "REC_PQ" 0x54, F2.row "REC_PR" 0x55, F2.row "REC_QR" 0x56, F3.row "REC_PQR" 0x57 ] := by
  decide

/-- What a row says of a word, in the decoder's answer `d`: an accepted word is a well-formed command of the row's name whose
word it is, any other word is illegal. -/
def OpRow.Reads (r : OpRow) (w : Word) (d : Option Instr) : Prop :=
  (r.accepts w = true → ∃ i, d = some i ∧ i.mnemonic = r.mnemonic ∧ i.wf = true ∧ encode i = w) ∧
    (r.accepts w = false → d = none)

namespace Format

/-! ### What reading a word in a format answers -/

/-- The command `i` made of the word's fields, if the fields the format does not use are 0. -/
def read (f : Format) (w : Word) (i : Instr) : Option Instr := if f.unusedZero w then some i else none

theorem fmtZ_eq (w : Word) (i : Instr) : fmtZ w i = Z.read w i := by
  simp [fmtZ, read, unusedZero, Z, and_assoc]

theorem fmtF1_eq (w : Word) (k : Nat → Instr) : fmtF1 w k = F1.read w (k (f0Field w)) := by
  simp [fmtF1, read, unusedZero, F1, and_assoc]

theorem fmtF2_eq (w : Word) (k : Nat → Nat → Instr) : fmtF2 w k = F2.read w (k (f0Field w) (f1Field w)) := by
  simp [fmtF2, read, unusedZero, F2]

theorem fmtF3_eq (w : Word) (k : Nat → Nat → Nat → Instr) :
    fmtF3 w k = F3.read w (k (f0Field w) (f1Field w) (f2Field w)) := by
  simp [fmtF3, read, unusedZero, F3]

theorem fmtB0_eq (w : Word) (k : Nat → Instr) : fmtB0 w k = B0.read w (k (mField w)) := by
  simp [fmtB0, read, unusedZero, B0, and_assoc]

theorem fmtB1_eq (w : Word) (k : Nat → Nat → Instr) : fmtB1 w k = B1.read w (k (mField w) (f0Field w)) := by
  simp [fmtB1, read, unusedZero, B1]

theorem fmtB2_eq (w : Word) (k : Nat → Nat → Nat → Instr) :
    fmtB2 w k = B2.read w (k (mField w) (f0Field w) (f1Field w)) := by
  simp [fmtB2, read, unusedZero, B2]

theorem fmtB3_eq (w : Word) (k : Nat → Nat → Nat → Nat → Instr) :
    fmtB3 w k = B3.read w (k (mField w) (f0Field w) (f1Field w) (f2Field w)) := rfl

theorem fmtT_eq (w : Word) (k : Nat → Nat → Nat → Nat → Instr) :
    fmtT w k = B3.read w (k (mField w) (f0Field w) (f1Field w) (f2Field w)) := rfl

/-- The word with opcode `op` that agrees with `w` in the fields the format uses and is 0 in the others. -/
def wordIn (f : Format) (op : Nat) (w : Word) : Word :=
  wordOf op (if f.m then mField w else 0) (if f.f2 then f2Field w else 0) (if f.f1 then f1Field w else 0)
    (if f.f0 then f0Field w else 0)

/-- A word whose unused fields are 0 has nothing but its opcode and the fields its format uses. -/
theorem wordIn_opField {f : Format} {w : Word} (h : f.unusedZero w = true) : f.wordIn (opField w) w = w := by
  obtain ⟨hm, h2, h1, h0⟩ := (unusedZero_iff f w).1 h
  have field {used : Bool} {n : Nat} (hn : used = false → n = 0) : (if used then n else 0) = n := by
    cases used with
    | true => rfl
    | false => exact (hn rfl).symm
  rw [wordIn, field hm, field h2, field h1, field h0, wordOf_fields]

/-- A command whose word has its operands in the fields of the format is read as the row says. -/
theorem reads_read {f : Format} {name : String} {op : Nat} {w : Word} {i : Instr} (h : opField w = op)
    (hname : i.mnemonic = name) (hwf : i.wf = true) (henc : encode i = f.wordIn op w) :
    (f.row name op).Reads w (f.read w i) := by
  subst h
  have hacc : (f.row name (opField w)).accepts w = f.unusedZero w := by
    rw [Bool.eq_iff_iff, row_accepts_iff f name (opField_lt w), and_iff_right rfl]
  rw [OpRow.Reads, hacc]
  exact ⟨fun hz => ⟨i, if_pos hz, hname, hwf, henc.trans (wordIn_opField hz)⟩, fun hz => by simp [read, hz]⟩

end Format

/-! ### The decoder, opcode by opcode (30_encoding R95, R98) -/

/-- On the words with a row's opcode the decoder reads as the row says: for each row, the arm of the decoder reads in the row's
format a command of the row's name, and encoding it puts the operands into the fields of that format. -/
theorem reads_decode {w : Word} : ∀ r ∈ opcodeMap, opField w = opField r.pattern → r.Reads w (decode w) := by
  simp only [opcodeMap_eq, List.forall_mem_cons, opField_row_pattern, Nat.reducePow, Nat.reduceLT, List.not_mem_nil,
    false_imp_iff, implies_true, and_true]
  and_intros <;> intro h <;>
    simp only [decode, h, fmtZ_eq, fmtF1_eq, fmtF2_eq, fmtF3_eq, fmtB0_eq, fmtB1_eq, fmtB2_eq, fmtB3_eq, fmtT_eq]
  all_goals exact reads_read h rfl (by simp [Instr.wf]) rfl

/-- A word whose opcode is in no row is illegal: the decoder has no other arm. -/
theorem decode_undefined_opcode {w : Word} (h : ∀ r ∈ opcodeMap, opField w ≠ opField r.pattern) : decode w = none := by
  simp only [opcodeMap_eq, List.forall_mem_cons, opField_row_pattern, Nat.reducePow, Nat.reduceLT] at h
  unfold decode
  split
  case h_35 => rfl
  all_goals
    rename_i hop
    simp [hop] at h

/-! ### Which rows accept a word (30_encoding R93) -/

/-- Every row compares the whole opcode. -/
theorem opField_of_accepts {r : OpRow} {w : Word} (hr : r ∈ opcodeMap) (ha : r.accepts w = true) :
    opField w = opField r.pattern := by
  have hmask : ∀ r ∈ opcodeMap, opField r.mask = 2 ^ 8 - 1 := by decide
  have hop := congrArg opField (beq_iff_eq.1 ha)
  rwa [(fields_and w r.mask).1, hmask r hr, Nat.and_two_pow_sub_one_of_lt_two_pow (opField_lt w)] at hop

/-- `match = op * 2^56` (30_encoding R93). -/
theorem pattern_eq_opField : ∀ r ∈ opcodeMap, r.pattern = Word.ofNat (opField r.pattern * 2 ^ 56) := by decide

theorem opField_ofNat {op : Nat} (hop : op < 2 ^ 8) : opField (Word.ofNat (op * 2 ^ 56)) = op := by
  obtain ⟨h, -⟩ := fields_wordOf hop (m := 0) (f2 := 0) (f1 := 0) (f0 := 0) (by decide) (by decide) (by decide) (by decide)
  simpa [wordOf] using h

/-- No two rows have the same opcode (30_encoding R95). -/
theorem row_eq_of_opField : ∀ r ∈ opcodeMap, ∀ r' ∈ opcodeMap, opField r.pattern = opField r'.pattern → r = r' := by
  decide

/-- No row has an opcode of the undefined ranges (30_encoding R95, R98). -/
theorem row_opcode_defined : ∀ r ∈ opcodeMap,
    ¬ ((0x06 ≤ opField r.pattern ∧ opField r.pattern ≤ 0x0F) ∨ (0x14 ≤ opField r.pattern ∧ opField r.pattern ≤ 0x1F) ∨
      (0x25 ≤ opField r.pattern ∧ opField r.pattern ≤ 0x2F) ∨ (0x37 ≤ opField r.pattern ∧ opField r.pattern ≤ 0x3F) ∨
      (0x44 ≤ opField r.pattern ∧ opField r.pattern ≤ 0x4F) ∨ (0x58 ≤ opField r.pattern ∧ opField r.pattern ≤ 0xFF)) := by
  decide

theorem decode_rejected {w : Word} (h : ∀ r ∈ opcodeMap, r.accepts w = false) : decode w = none := by
  by_cases hop : ∃ r ∈ opcodeMap, opField w = opField r.pattern
  · obtain ⟨r, hr, he⟩ := hop
    exact (reads_decode r hr he).2 (h r hr)
  · exact decode_undefined_opcode fun r hr he => hop ⟨r, hr, he⟩

end Sys2Proof

namespace Sys2Proof.Machine

/-! ### Executing an illegal word (30_encoding R98) -/

theorem commandWrite_illegal {s : State} {w : Word} (hf : s.here.fault = false) (hd : decode w = none) :
    s.commandWrite w = .next (s.takeFault .illegal w) := by
  rw [State.commandWrite, hd]
  exact issue_raises _ hf [] [] _ rfl (by simp) rfl

theorem step_illegal {s : State} {x : Nat} {w : Word} {rest : List HostOp} (h : x < s.ctxs.length)
    (hp : s.pending = .regWrite x 0 w :: rest) (hx : x < s.cfg.nctx) (hf : s.ctxs[x].fault = false)
    (hd : decode w = none) :
    step s = .next { s with
      pending := rest, cur := x
      ctxs := s.ctxs.set x { s.ctxs[x] with fault := true, fcode := 1, finfo := w } } := by
  have hhere := here_addressed s rest h
  rw [step_regWrite_command hx hp, commandWrite_illegal (by rw [hhere, hf]) hd, takeFault_eq, hhere]
  rfl

/-! ### The statements -/

/-- Settles O2: the rows are told apart by their opcodes, and on the words of a row's opcode the decoder reads as it says. -/
theorem decodeIsTheUniqueRow : Obligations.DecodeIsTheUniqueRow := by
  refine fun w => ⟨fun r hr ha => ?accepted, decode_rejected, fun r hr r' hr' ha ha' => ?unique⟩
  case accepted =>
    have hop := opField_of_accepts hr ha
    exact ⟨hop ▸ pattern_eq_opField r hr, (reads_decode r hr hop).1 ha⟩
  case unique =>
    exact row_eq_of_opField r hr r' hr' ((opField_of_accepts hr ha).symm.trans (opField_of_accepts hr' ha'))

/-- Settles O4: an undefined opcode is in no row, a row that rejects a word of its opcode says that the word is illegal, and the
one check of an illegal word raises its fault. -/
theorem illegalWordFaults : Obligations.IllegalWordFaults := by
  refine ⟨fun w hw => ?undefinedOpcode, fun w r hr hpat hrej => ?unusedField, fun s x w rest h hp hx hf hd =>
    step_illegal h hp hx hf hd⟩
  case undefinedOpcode =>
    exact decode_undefined_opcode fun r hr hop => row_opcode_defined r hr (hop ▸ hw)
  case unusedField =>
    have hop : opField w = opField r.pattern := by rw [hpat, opField_ofNat (opField_lt w)]
    exact (reads_decode r hr hop).2 hrej

end Sys2Proof.Machine
end

section
/-! SUPPORT. Which commands write `RES` (30_encoding R97, 10_state R23): what the effects of the others keep, and that the
effects of the listed ones overwrite it unread. -/

namespace Sys2Proof.Machine

/-! ### What leaves `RES` alone -/

/-- Replacing the addressed context keeps `RES` when the new context has the old `RES`. -/
theorem put_res {s : State} {c : Context} (h : c.res = s.here.res) : (s.put c).here.res = s.here.res := by
  by_cases hc : s.cur < s.ctxs.length
  · rw [here_put s c hc, h]
  · rw [State.put, List.set_eq_of_length_le (Nat.le_of_not_lt hc)]

theorem setGuard_res (s : State) (b : Bool) : (s.setGuard b).here.res = s.here.res := put_res rfl

/-- An effect that keeps `RES` keeps it inside the vector guard too. -/
theorem guarded_res {f : State → State} (hf : ∀ t, (f t).here.res = t.here.res) (s : State) (bk : Nat) :
    (s.guarded bk f).here.res = s.here.res := by
  unfold State.guarded
  split
  · exact hf s
  · rw [setGuard_res, hf, setGuard_res]

theorem putLane_res (s : State) (vd w : Nat) (r : Nat → Byte) : (s.putLane vd w r).here.res = s.here.res := put_res rfl

theorem generateEffect_res {s t : State} {k : Nat} (h : generateEffect s k = .next t) : t.here.res = s.here.res := by
  obtain ⟨-, hr⟩ | ⟨-, hr | hr⟩ | ⟨-, hr⟩ := onBuffers_cases h <;> cases hr
  exact guarded_res (f := fun t => t.generate k) (fun _ => rfl) s _

/-- The effect of a command that is not a writer of `RES` leaves it. -/
theorem effectOf_res {i : Instr} {s t : State} (hi : i.writesRes = false) (h : effectOf i s = .next t) :
    t.here.res = s.here.res := by
  cases i
  case gen | genP | genPQ | genPQR => exact generateEffect_res h
  case nop =>
    cases h
    rfl
  case mapOpen | colSet | colGet | mapCommit | mapClose =>
    cases h
    exact put_res rfl
  case laneLoad | laneXor | laneMul2 | laneMul4 | laneMulc =>
    cases h
    exact guarded_res (fun t => putLane_res t _ _ _) s _
  case laneStore =>
    cases h
    refine guarded_res ?_ s _
    exact fun _ => rfl
  all_goals cases hi

theorem exec_res {i : Instr} {s t : State} (hi : i.writesRes = false) (h : exec i s = .next t) :
    t.here.res = s.here.res := by
  obtain ⟨-, hr⟩ | ⟨-, k, -, -, hr⟩ | ⟨-, -, hr⟩ := exec_cases h
  · cases hr
    rfl
  · cases hr
    exact put_res rfl
  · exact effectOf_res hi hr.symm

/-! ### What a writer of `RES` leaves does not depend on the old `RES` -/

theorem here_setRes {s : State} (v : Word) (hc : s.cur < s.ctxs.length) : (s.setRes v).here = { s.here with res := v } :=
  here_put _ _ hc

theorem ready_setRes {s : State} (hs : s.Ready) (v : Word) : (s.setRes v).Ready := by
  obtain ⟨hc, hf, hg⟩ := hs
  exact ⟨by simpa using hc, by rw [here_setRes v hc]; exact hf, by rw [here_setRes v hc]; exact hg⟩

theorem setRes_setRes {s : State} (v u : Word) (hc : s.cur < s.ctxs.length) : (s.setRes v).setRes u = s.setRes u := by
  rw [setRes_eq (s.setRes v), here_setRes v hc, setRes_eq, put_put, setRes_eq]

/-- No check reads `RES`. -/
theorem checksOf_setRes {s : State} (i : Instr) (v : Word) (hc : s.cur < s.ctxs.length) :
    checksOf i (s.setRes v) = checksOf i s := by
  cases i <;> simp only [checksOf, State.laneAddressChecks, State.explicitChecks, State.recListChecks, here_setRes v hc] <;>
    rfl

/-- The premise on the buffers does not read `RES`. -/
theorem onBuffers_setRes {s : State} (v : Word) (hc : s.cur < s.ctxs.length) (effect : Result) :
    (s.setRes v).onBuffers effect = s.onBuffers effect := by
  have helse : (s.setRes v).mapsElsewhere = s.mapsElsewhere := by
    simp [State.mapsElsewhere, List.eraseIdx_set_eq]
  simp only [State.onBuffers, helse, here_setRes v hc]
  rfl

theorem reconstruct_setRes {s : State} (v : Word) (k : RecCase) (np : Nat) (hc : s.cur < s.ctxs.length) :
    (s.setRes v).reconstruct k np = s.reconstruct k np := by
  rw [State.reconstruct, here_setRes v hc, setRes_eq, put_put]
  rfl

theorem recoverEffect_setRes {s : State} (v : Word) (k : RecCase) (np : Nat) (hs : s.Ready) :
    recoverEffect (s.setRes v) k np = recoverEffect s k np := by
  have hs' := ready_setRes hs v
  rw [recoverEffect, onBuffers_setRes v hs.present, guarded_reconstruct _ k np hs'.present hs'.outside,
    reconstruct_setRes v k np hs.present, recoverEffect, guarded_reconstruct _ k np hs.present hs.outside]

/-- The effect of a writer of `RES` overwrites it without reading it. -/
theorem effectOf_setRes {i : Instr} {s : State} (v : Word) (hi : i.writesRes = true) (hs : s.Ready) :
    effectOf i (s.setRes v) = effectOf i s := by
  have hc := hs.present
  have hs' := ready_setRes hs v
  cases i
  case recList =>
    rw [effectOf, recoverEffect_setRes v _ _ hs, here_setRes v hc]
    rfl
  case recP | recQ | recR | recPQ | recPR | recQR | recPQR => exact recoverEffect_setRes v _ _ hs
  case laneWidth bk =>
    rw [effectOf, effectOf, guarded_setRes bk _ hs'.present hs'.outside, guarded_setRes bk _ hc hs.outside,
      setRes_setRes v _ hc]
  case bkSet =>
    simp only [effectOf, setRes_setRes v _ hc, here_setRes v hc]
    rfl
  case bkAuto =>
    simp only [effectOf, setRes_setRes v _ hc]
    rfl
  case bkGet | bkEnum | gfMul | gfExp2 | gfFixexp | gfPow2 | gfLog2 => exact congrArg Host.Outcome.next (setRes_setRes v _ hc)
  all_goals cases hi

theorem exec_setRes {i : Instr} {s t : State} (h : exec i s = .next t) (hi : i.writesRes = true) (hs : s.Ready)
    (ht : t.here.fault = false) (v : Word) : exec i (s.setRes v) = .next t := by
  obtain ⟨hf, -⟩ | ⟨-, k, -, -, hr⟩ | ⟨-, hpass, hr⟩ := exec_cases h
  · exact absurd hs.running (by simp [hf])
  · cases hr
    rw [takeFault_eq, here_put _ _ hs.present] at ht
    cases ht
  · rw [exec_passed (ready_setRes hs v).running (checksOf_setRes i v hs.present ▸ hpass), effectOf_setRes v hi hs, hr]

/-! ### The statement -/

/-- Settles O20: a command outside the list puts back the `RES` it found, whether it is ignored, faults or has its effect; one of
the list has checks that do not read `RES` and an effect that overwrites it. -/
theorem resWriters : Obligations.ResWriters :=
  fun _ _ _ h => ⟨fun hi => exec_res hi h, exec_setRes h⟩

end Sys2Proof.Machine
end

section
/-! SUPPORT. The field commands (40_field section 5): when their operand checks fail, what the field functions answer on the
operands that pass, then the statements on the commands. -/

namespace Sys2Proof.Machine

/-! ### The operand checks -/

@[simp] theorem byteOperand_bad (a : Nat) : (Check.byteOperand a).bad = decide (255 < a) := rfl
@[simp] theorem exponent_bad (e : Nat) : (Check.exponent e).bad = decide (510 < e) := rfl
@[simp] theorem backendId_bad (avail : BitVec 3) (bk : Nat) : (Check.backendId avail bk).bad = !registered avail bk := rfl

/-! ### A command whose first or second check fails -/

theorem exec_raises_first {i : Instr} {s : State} {k : Check} {after : List Check} (hs : s.Ready)
    (hchecks : checksOf i s = k :: after) (hk : k.bad = true) : exec i s = .next (s.takeFault k.cause k.info) :=
  exec_raises hs.running [] after k hchecks (by simp) hk

theorem exec_raises_second {i : Instr} {s : State} {c k : Check} {after : List Check} (hs : s.Ready)
    (hchecks : checksOf i s = c :: k :: after) (hc : c.bad = false) (hk : k.bad = true) :
    exec i s = .next (s.takeFault k.cause k.info) :=
  exec_raises hs.running [c] after k hchecks (by simpa using hc) hk

/-! ### The field functions on checked operands (40_field R126, R127) -/

theorem byteOf_ne_zero {a : Nat} (h0 : 0 < a) (h : a ≤ 255) : byteOf a ≠ 0 := by
  intro hz
  have hmod : a % 256 = 0 := by simpa [byteOf] using congrArg BitVec.toNat hz
  omega

theorem exp2_zero (e : Nat) : exp2 0 e = 0 := if_pos rfl

theorem exp2_of_ne_zero {a : Byte} (h : a ≠ 0) (e : Nat) : exp2 a e = pow2 (e + lg a) := if_neg h

theorem fold_le {e : Nat} (h : e ≤ 510) : fold e ≤ 255 := by
  unfold fold
  split <;> omega

/-- A number that fits a byte is the register value of that byte. -/
theorem zext_ofNat {n : Nat} (h : n ≤ 255) : zext (BitVec.ofNat 8 n) = Word.ofNat n := by
  apply BitVec.eq_of_toNat_eq
  simp [zext, Word.ofNat]
  omega

/-- The scalar backend multiplies by logs, the wide ones by antilogs (00_scope R8). -/
theorem form_of_lt_nbk : ∀ bk < nbk, (bkd bk).form = if bk = 0 then Form.log else Form.antilog := by decide

/-- The normalised exponent of an available backend, as a register value. -/
theorem zext_fixMulExp {avail : BitVec 3} {bk e : Nat} (hbk : registered avail bk = true) (he : e ≤ 510) :
    zext (fixMulExp (bkd bk).form e) = if bk = 0 then Word.ofNat (fold e) else zext (pow2 e) := by
  rw [form_of_lt_nbk bk (lt_nbk_of_registered hbk)]
  split
  case isTrue => exact zext_ofNat (fold_le he)
  case isFalse => rfl

/-! ### The statements -/

/-- Settles O33: the two operand checks in order, then the product. -/
theorem gfMulEffect : Obligations.GfMulEffect := by
  refine fun s a b hs => ⟨fun ha => ?firstRange, fun ha hb => ?secondRange, fun ha hb => ?product⟩
  case firstRange => exact exec_raises_first (k := Check.byteOperand a) hs rfl (by simpa using ha)
  case secondRange =>
    exact exec_raises_second (k := Check.byteOperand b) hs rfl (by simpa using ha) (by simpa using hb)
  case product => exact exec_passed hs.running (by simp [checksOf, ha, hb])

/-- Settles O34: a zero `a` passes the index check whatever `e` is, and a byte above 0 is a non-zero field element. -/
theorem gfExp2Effect : Obligations.GfExp2Effect := by
  refine fun s a e hs =>
    ⟨fun ha => ?operandRange, fun ha => ?zero, fun h0 ha he => ?indexRange, fun h0 ha he => ?power⟩
  case operandRange => exact exec_raises_first (k := Check.byteOperand a) hs rfl (by simpa using ha)
  case zero =>
    subst ha
    exact exec_passed hs.running (by simp [checksOf, byteOf])
  case indexRange =>
    have hz := byteOf_ne_zero h0 ha
    have hindex : 510 < e + lg (byteOf a) := he
    exact (exec_raises_second (i := .gfExp2 a e) hs rfl (by simpa using ha) (by simpa [hindex] using hz) :)
  case power =>
    have hz := byteOf_ne_zero h0 ha
    have hindex : e + lg (byteOf a) ≤ 510 := he
    rw [exec_passed hs.running (by simp [checksOf, ha, hindex]), effectOf, exp2_of_ne_zero hz]
    rfl

/-- Settles O35: the backend is checked before the exponent, and its form decides how the exponent is normalised. -/
theorem gfFixexpEffect : Obligations.GfFixexpEffect := by
  refine fun s bk e hs => ⟨fun hbk => ?backend, fun hbk he => ?range, fun hbk he => ?normalised⟩
  case backend => exact exec_raises_first (k := Check.backendId s.avail bk) hs rfl (by simpa using hbk)
  case range =>
    exact exec_raises_second (k := Check.exponent e) hs rfl (by simpa using hbk) (by simpa using he)
  case normalised =>
    rw [exec_passed hs.running (by simp [checksOf, hbk, he]), effectOf, zext_fixMulExp hbk he]
    rfl

/-- Settles O36: each read has the one check of its index, then its effect. -/
theorem tableReadEffect : Obligations.TableReadEffect := by
  refine fun s k hs => ⟨fun hk => ?powRange, fun hk => ?pow, fun hk => ?logRange, fun hk => ?log⟩
  case powRange => exact exec_raises_first (k := Check.exponent k) hs rfl (by simpa using hk)
  case pow => exact exec_passed hs.running (by simp [checksOf, hk])
  case logRange => exact exec_raises_first (k := Check.byteOperand k) hs rfl (by simpa using hk)
  case log => exact exec_passed hs.running (by simp [checksOf, hk])

end Sys2Proof.Machine
end

section
/-! SUPPORT. The lane commands with one register operand (41_lane R152 to R154): when their checks pass, what lies below the
width of an available backend, then the statements on the commands. -/

namespace Sys2Proof.Machine

/-! ### The checks of a lane load or store -/

@[simp] theorem laneNumber_bad (v : Nat) : (Check.laneNumber v).bad = decide (15 < v) := rfl
@[simp] theorem laneAlign_bad (a0 : Word) (w : Nat) : (Check.laneAlign a0 w).bad = decide (a0.toNat % w ≠ 0) := rfl
@[simp] theorem laneRange_bad (a0 : Word) (w limit : Nat) :
    (Check.laneRange a0 w limit).bad = decide (limit < a0.toNat + w) := rfl

/-- Both commands with an address in `A0` have these checks (41_lane R151). -/
theorem laneAddressChecks_passed {s : State} {bk v : Nat} (hbk : registered s.avail bk = true) (hv : v ≤ 15)
    (halign : s.here.a0.toNat % (bkd bk).width = 0) (hlimit : s.here.a0.toNat + (bkd bk).width ≤ s.cfg.memLimit) :
    ∀ k ∈ Check.backendId s.avail bk :: s.laneAddressChecks bk v, k.bad = false := by
  simp [State.laneAddressChecks, hbk, hv, halign, hlimit]

/-! ### Widths and lane bytes -/

/-- The lane widths of the backend table (00_scope R8). -/
theorem width_of_lt_nbk : ∀ bk < nbk, (bkd bk).width = if bk = 0 then 8 else if bk = 1 then 32 else 64 := by decide

/-- The width of an available backend, as a register value. -/
theorem ofNat_width {avail : BitVec 3} {bk : Nat} (hbk : registered avail bk = true) :
    Word.ofNat (bkd bk).width = if bk = 0 then 8 else if bk = 1 then 32 else 64 := by
  rw [width_of_lt_nbk bk (lt_nbk_of_registered hbk)]
  split_ifs <;> rfl

theorem vbyte_eq (s : State) {i k : Nat} (hi : i < 16) (hk : k < 64) : s.vbyte i k = (s.here.v[i])[k] := by
  rw [State.vbyte, lane_eq _ hi, laneByte_eq _ hk]

/-- No lane byte depends on the vector guard. -/
theorem vbyte_setGuard {s : State} (hc : s.cur < s.ctxs.length) (b : Bool) : (s.setGuard b).vbyte = s.vbyte := by
  funext i k
  rw [State.vbyte, setGuard_eq, here_put _ _ hc]
  rfl

/-! ### The effects, without the guard around them (41_lane R165) -/

theorem effectOf_laneWidth {s : State} (hs : s.Ready) (bk : Nat) :
    effectOf (.laneWidth bk) s = .next (s.setRes (Word.ofNat (bkd bk).width)) := by
  rw [effectOf, guarded_setRes bk _ hs.present hs.outside]

theorem effectOf_laneLoad {s : State} (hs : s.Ready) (bk vd : Nat) :
    effectOf (.laneLoad bk vd) s =
      .next (s.putLane vd (bkd bk).width fun k => s.mem.read (s.here.a0.toNat + k)) := by
  have hread : (s.setGuard true).here.a0 = s.here.a0 := by rw [setGuard_eq, here_put _ _ hs.present]
  rw [effectOf, guarded_putLane bk vd _ (fun t k => t.mem.read (t.here.a0.toNat + k)) hs.present hs.outside
    (by rw [hread]; rfl)]

/-- The memory after a store of lane `vs` at width `w`. -/
def State.storeLane (s : State) (w vs : Nat) : Memory :=
  s.mem.write s.here.a0.toNat ((List.range w).map (s.vbyte vs))

theorem effectOf_laneStore {s : State} (hs : s.Ready) (bk vs : Nat) :
    effectOf (.laneStore bk vs) s = .next { s with mem := s.storeLane (bkd bk).width vs } := by
  have hguard : (s.setGuard true).storeLane (bkd bk).width vs = s.storeLane (bkd bk).width vs := by
    rw [State.storeLane, vbyte_setGuard hs.present, setGuard_eq, here_put _ _ hs.present]
    rfl
  exact congrArg Host.Outcome.next (guarded_mem bk (fun t => t.storeLane (bkd bk).width vs) hs.outside hguard)

/-! ### Memory after a store (41_lane R154) -/

theorem read_storeLane_in (s : State) {w vs k : Nat} (hk : k < w) :
    (s.storeLane w vs).read (s.here.a0.toNat + k) = s.vbyte vs k := by
  rw [State.storeLane, read_write_in _ _ _ rfl (by simpa using hk)]
  simp [List.getD_eq_getElem?_getD, hk]

theorem read_storeLane_out (s : State) {w vs a : Nat} (ha : ¬ (s.here.a0.toNat ≤ a ∧ a < s.here.a0.toNat + w)) :
    (s.storeLane w vs).read a = s.mem.read a :=
  read_write_out _ _ _ (by simpa using ha)

/-! ### The statements -/

/-- Settles O43: the one check is of the backend, and the table gives the width of an available one. -/
theorem laneWidthEffect : Obligations.LaneWidthEffect := by
  refine fun s bk hs => ⟨fun hbk => ?backend, fun hbk => ?width⟩
  case backend => exact exec_raises_first (k := Check.backendId s.avail bk) hs rfl (by simpa using hbk)
  case width =>
    rw [exec_passed hs.running (by simp [checksOf, hbk]), effectOf_laneWidth hs, ofNat_width hbk]
    rfl

/-- Settles O44: the new lane is `laneOf` of the bytes at `A0`. -/
theorem laneLoadEffect : Obligations.LaneLoadEffect := by
  intro s bk vd hs hbk hvd halign hlimit
  refine ⟨laneOf (bkd bk).width fun k => s.mem.read (s.here.a0.toNat + k), ?effect, getElem_laneOf _ _⟩
  case effect =>
    rw [exec_passed (i := .laneLoad bk vd) hs.running (laneAddressChecks_passed hbk hvd halign hlimit),
      effectOf_laneLoad hs]
    rfl

/-- Settles O45: the new memory is `storeLane`, which holds the lane's bytes inside `[A0, A0 + W)` and the old ones outside. -/
theorem laneStoreEffect : Obligations.LaneStoreEffect := by
  intro s bk vs hs hbk hvs halign hlimit
  refine ⟨s.storeLane (bkd bk).width vs, ?effect, fun k hk hw => ?inside, fun a ha => read_storeLane_out s ha⟩
  case effect =>
    rw [exec_passed (i := .laneStore bk vs) hs.running (laneAddressChecks_passed hbk hvs halign hlimit),
      effectOf_laneStore hs]
  case inside => rw [read_storeLane_in s hw, vbyte_eq s (Nat.lt_succ_of_le hvs) hk]

end Sys2Proof.Machine
end

section
/-! SUPPORT. Legality and the map state (42_map R180, R183): which check of a command raises `E_STATE`, what the effects keep of
the fault flag, the map state and the map, then the statements on them. -/

namespace Sys2Proof

/-- The commands that build, commit or close a map. -/
def Instr.editsMap : Instr → Bool
  | .mapOpen _ _ | .colSet _ | .mapCommit | .mapClose => true
  | _ => false

end Sys2Proof

namespace Sys2Proof.Machine

/-! ### The check on the map state (42_map R183) -/

@[simp] theorem mapState_bad (legal : Bool) (i : Instr) : (Check.mapState legal i).bad = !legal := rfl
@[simp] theorem mapState_cause (legal : Bool) (i : Instr) : (Check.mapState legal i).cause = .state := rfl
@[simp] theorem byteOperand_cause (a : Nat) : (Check.byteOperand a).cause = .range := rfl
@[simp] theorem exponent_cause (e : Nat) : (Check.exponent e).cause = .range := rfl
@[simp] theorem laneNumber_cause (v : Nat) : (Check.laneNumber v).cause = .range := rfl
@[simp] theorem backendId_cause (avail : BitVec 3) (bk : Nat) : (Check.backendId avail bk).cause = .backend := rfl
@[simp] theorem laneAlign_cause (a0 : Word) (w : Nat) : (Check.laneAlign a0 w).cause = .align := rfl
@[simp] theorem laneRange_cause (a0 : Word) (w limit : Nat) : (Check.laneRange a0 w limit).cause = .addr := rfl
@[simp] theorem column_cause (m : ColMap) (c : Nat) : (Check.column m c).cause = .colidx := rfl
@[simp] theorem dataTarget_cause (m : ColMap) (t : Nat) : (Check.dataTarget m t).cause = .colidx := rfl
@[simp] theorem parityWidth_cause (m : ColMap) (n : Nat) : (Check.parityWidth m n).cause = .parityWidth := rfl
@[simp] theorem targets_cause (ok : Bool) (i : Instr) : (Check.targets ok i).cause = .targets := rfl

/-- A command that is not legal in every map state checks the map state before anything else. -/
theorem checksOf_illegal {i : Instr} {s : State} (h : i.legalIn s.here = false) :
    ∃ after, checksOf i s = Check.mapState (i.legalIn s.here) i :: after := by
  cases i
  case mapOpen | colSet | colGet | mapCommit | mapClose => exact ⟨_, rfl⟩
  case gen | genP | genPQ | genPQR => exact ⟨_, rfl⟩
  case recList | recP | recQ | recR | recPQ | recPR | recQR | recPQR => exact ⟨_, rfl⟩
  all_goals cases h

theorem legal_of_passed {i : Instr} {s : State} (h : ∀ k ∈ checksOf i s, k.bad = false) : i.legalIn s.here = true := by
  by_contra hl
  rw [Bool.not_eq_true] at hl
  obtain ⟨after, hchecks⟩ := checksOf_illegal hl
  have hbad := h (Check.mapState (i.legalIn s.here) i) (hchecks ▸ List.mem_cons_self)
  simp [hl] at hbad

theorem commitChecks_cause (cfg : Config) (m : ColMap) : ∀ k ∈ commitChecks cfg m, k.cause ≠ .state := by
  simp only [commitChecks, commitColumnChecks, commitSizeCheck, List.forall_mem_append, List.forall_mem_map,
    List.forall_mem_flatMap, List.forall_mem_cons]
  simp

/-- No check but the one on the map state raises `E_STATE`. -/
theorem bad_of_state_cause (i : Instr) (s : State) :
    ∀ k ∈ checksOf i s, k.cause = .state → k.bad = !i.legalIn s.here := by
  cases i
  case mapCommit =>
    exact List.forall_mem_cons.2 ⟨fun _ => rfl, fun k hk hc => absurd hc (commitChecks_cause _ _ k hk)⟩
  all_goals
    simp only [checksOf, State.laneAddressChecks, State.explicitChecks, State.recListChecks, List.forall_mem_append,
      List.forall_mem_map, List.forall_mem_cons]
    simp [Instr.legalIn]

/-! ### A running context answers a fault or the effect -/

theorem takeFault_here {s : State} (hc : s.cur < s.ctxs.length) (e : Cause) (v : Word) :
    (s.takeFault e v).here = { s.here with fault := true, fcode := Word.ofNat e.code, finfo := v } :=
  here_put _ _ hc

/-- A fault entry changes neither the map state nor the map (60_exceptions R320). -/
theorem takeFault_map {s : State} (hc : s.cur < s.ctxs.length) (e : Cause) (v : Word) :
    (s.takeFault e v).here.mapopen = s.here.mapopen ∧ (s.takeFault e v).here.mapv = s.here.mapv ∧
      (s.takeFault e v).here.map = s.here.map := by
  rw [takeFault_here hc]
  exact ⟨rfl, rfl, rfl⟩

/-! ### What the effects keep of the flags and the map -/

/-- What `f` reads of the addressed context stays when the new context has it too. -/
theorem put_keeps {α : Type} (f : Context → α) {s : State} {c : Context} (h : f c = f s.here) :
    f (s.put c).here = f s.here := by
  by_cases hc : s.cur < s.ctxs.length
  · rw [here_put s c hc, h]
  · rw [State.put, List.set_eq_of_length_le (Nat.le_of_not_lt hc)]

/-- What an effect keeps it keeps inside the vector guard, if it is not the guard itself. -/
theorem guarded_keeps {α : Type} (f : Context → α) (hf : ∀ c b, f { c with vguard := b } = f c) {g : State → State}
    (hg : ∀ t, f (g t).here = f t.here) (s : State) (bk : Nat) : f (s.guarded bk g).here = f s.here := by
  have hguard (t : State) (b : Bool) : f (t.setGuard b).here = f t.here := put_keeps f (hf _ b)
  unfold State.guarded
  split
  · exact hg s
  · rw [hguard, hg, hguard]

/-- The map without its missing counts. -/
def ColMap.uncounted (m : ColMap) : ColMap := { m with missingdata := 0, missingparity := 0 }

theorem eq_counts_of_uncounted {m n : ColMap} (h : n.uncounted = m.uncounted) :
    n = { m with missingdata := n.missingdata, missingparity := n.missingparity } := by
  cases n
  cases m
  simp_all [ColMap.uncounted]

/-- The fault flag, the map state and the map without its missing counts. -/
def Context.mapPart (c : Context) : Bool × Bool × Bool × ColMap := (c.fault, c.mapopen, c.mapv, c.map.uncounted)

theorem onBuffers_next {s t u : State} (h : s.onBuffers (.next u) = .next t) : t = u := by
  obtain ⟨-, hr⟩ | ⟨-, hr | hr⟩ | ⟨-, hr⟩ := onBuffers_cases h <;> cases hr
  rfl

theorem generateEffect_mapPart {s t : State} {k : Nat} (h : generateEffect s k = .next t) :
    t.here.mapPart = s.here.mapPart := by
  rw [onBuffers_next h]
  refine guarded_keeps Context.mapPart (fun _ _ => rfl) ?_ s _
  exact fun _ => rfl

theorem recoverEffect_mapPart {s t : State} {k : RecCase} {np : Nat} (h : recoverEffect s k np = .next t) :
    t.here.mapPart = s.here.mapPart := by
  rw [onBuffers_next h]
  refine guarded_keeps Context.mapPart (fun _ _ => rfl) ?_ s _
  exact fun _ => put_keeps Context.mapPart rfl

/-- A command that does not edit the map leaves the map state, and of the map all but the missing counts. -/
theorem effectOf_mapPart {i : Instr} {s t : State} (hi : i.editsMap = false) (h : effectOf i s = .next t) :
    t.here.mapPart = s.here.mapPart := by
  cases i
  case mapOpen | colSet | mapCommit | mapClose => cases hi
  case gen | genP | genPQ | genPQR => exact generateEffect_mapPart h
  case recList | recP | recQ | recR | recPQ | recPR | recQR | recPQR => exact recoverEffect_mapPart h
  case nop =>
    cases h
    rfl
  case bkSet =>
    cases h
    dsimp only
    split
    · exact put_keeps Context.mapPart rfl
    · split <;> exact put_keeps Context.mapPart rfl
  case colGet | bkAuto | bkGet | bkEnum | gfMul | gfExp2 | gfFixexp | gfPow2 | gfLog2 =>
    cases h
    exact put_keeps Context.mapPart rfl
  case laneStore =>
    cases h
    refine guarded_keeps Context.mapPart (fun _ _ => rfl) ?_ s _
    exact fun _ => rfl
  case laneWidth | laneLoad | laneXor | laneMul2 | laneMul4 | laneMulc =>
    cases h
    refine guarded_keeps Context.mapPart (fun _ _ => rfl) ?_ s _
    exact fun _ => put_keeps Context.mapPart rfl

/-- No effect raises a fault: only checks do (60_exceptions R310). -/
theorem effectOf_fault {i : Instr} {s t : State} (h : effectOf i s = .next t) : t.here.fault = s.here.fault := by
  cases hi : i.editsMap with
  | false => exact congrArg Prod.fst (effectOf_mapPart hi h)
  | true =>
    cases i
    case mapOpen | colSet | mapCommit | mapClose =>
      cases h
      exact put_keeps Context.fault rfl
    all_goals cases hi

/-- A running context either takes the fault of a failing check, or every check passes, the command is legal and the answer is
that of the effect, without a fault. -/
theorem exec_running {i : Instr} {s t : State} (hc : s.cur < s.ctxs.length) (hf : s.here.fault = false)
    (h : exec i s = .next t) :
    (t.here.fault = true ∧ ∃ k ∈ checksOf i s, k.bad = true ∧ t = s.takeFault k.cause k.info) ∨
    (t.here.fault = false ∧ i.legalIn s.here = true ∧ effectOf i s = .next t) := by
  obtain ⟨hfault, -⟩ | ⟨-, k, hk, hbad, hr⟩ | ⟨-, hpass, hr⟩ := exec_cases h
  · simp [hf] at hfault
  · cases hr
    exact .inl ⟨by rw [takeFault_here hc], k, hk, hbad, rfl⟩
  · exact .inr ⟨(effectOf_fault hr.symm).trans hf, legal_of_passed hpass, hr.symm⟩

/-! ### The map state after an effect (42_map R180) -/

theorem effectOf_mapOpen_state {s t : State} {cols parity : Nat} (hc : s.cur < s.ctxs.length) (hn : s.here.mapNone = true)
    (h : effectOf (.mapOpen cols parity) s = .next t) : t.here.mapIsOpen = true := by
  obtain ⟨-, hv⟩ := (mapNone_iff _).1 hn
  cases h
  rw [here_put _ _ hc, mapIsOpen_iff]
  exact ⟨rfl, hv⟩

/-- Only `MAP_OPEN`, `MAP_COMMIT` and `MAP_CLOSE` change the map state. -/
theorem effectOf_map_state {i : Instr} {s t : State} (hopen : ∀ c p, i ≠ .mapOpen c p) (hcommit : i ≠ .mapCommit)
    (hclose : i ≠ .mapClose) (h : effectOf i s = .next t) :
    t.here.mapopen = s.here.mapopen ∧ t.here.mapv = s.here.mapv := by
  cases hi : i.editsMap with
  | false =>
    have hpart := effectOf_mapPart hi h
    exact ⟨congrArg (fun p => p.2.1) hpart, congrArg (fun p => p.2.2.1) hpart⟩
  | true =>
    cases i
    case mapOpen c p => exact absurd rfl (hopen c p)
    case mapCommit => exact absurd rfl hcommit
    case mapClose => exact absurd rfl hclose
    case colSet =>
      cases h
      exact ⟨put_keeps Context.mapopen rfl, put_keeps Context.mapv rfl⟩
    all_goals cases hi

/-- `MAP_CLOSE` is the only command that edits the map and is legal on a valid one (42_map R183). -/
theorem editsMap_of_legal_valid {i : Instr} {c : Context} (hl : i.legalIn c = true) (hv : c.mapValid = true)
    (hclose : i ≠ .mapClose) : i.editsMap = false := by
  obtain ⟨hopen, hvalid⟩ := (mapValid_iff c).1 hv
  cases i
  case mapOpen | colSet | mapCommit => simp [Instr.legalIn, Context.mapNone, Context.mapIsOpen, hopen, hvalid] at hl
  case mapClose => exact absurd rfl hclose
  all_goals rfl

/-! ### Writing a command word -/

/-- The decoded command is the written word's only one (30_encoding R93). -/
theorem encode_of_decode {w : Word} {i : Instr} (h : decode w = some i) : encode i = w := by
  obtain ⟨haccepted, hrejected, -⟩ := decodeIsTheUniqueRow w
  by_cases hr : ∃ r ∈ opcodeMap, r.accepts w = true
  · obtain ⟨r, hr, ha⟩ := hr
    obtain ⟨-, j, hj, -, -, henc⟩ := haccepted r hr ha
    rw [h, Option.some_inj] at hj
    rw [hj, henc]
  · rw [hrejected fun r hr' => Bool.eq_false_iff.2 fun ha => hr ⟨r, hr', ha⟩] at h
    cases h

theorem commandWrite_decoded {s : State} {w : Word} {i : Instr} (h : decode w = some i) : s.commandWrite w = exec i s := by
  rw [State.commandWrite, h]

theorem exec_illegal {i : Instr} {s : State} (hf : s.here.fault = false) (hl : i.legalIn s.here = false) :
    exec i s = .next (s.takeFault .state (encode i)) := by
  obtain ⟨after, hchecks⟩ := checksOf_illegal hl
  exact exec_raises hf [] after _ hchecks (by simp) (by simp [hl])

theorem code_eq_state_iff (e : Cause) : Word.ofNat e.code = 2 ↔ e = .state := by
  cases e <;> decide

/-- A legal command never raises `E_STATE`: the only check with that cause passes. -/
theorem exec_legal_fcode {i : Instr} {s t : State} (hc : s.cur < s.ctxs.length) (hf : s.here.fault = false)
    (hl : i.legalIn s.here = true) (h : exec i s = .next t) (ht : t.here.fault = true) : t.here.fcode ≠ 2 := by
  obtain ⟨-, k, hk, hbad, rfl⟩ | ⟨hrun, -, -⟩ := exec_running hc hf h
  · rw [takeFault_here hc]
    intro hcode
    rw [bad_of_state_cause i s k hk ((code_eq_state_iff k.cause).1 hcode), hl] at hbad
    cases hbad
  · simp [hrun] at ht

/-! ### The statements -/

/-- Settles O14: the check on the map state is the first of a command that is not legal everywhere, and no other check has its
cause. -/
theorem illegalMapStateFaults : Obligations.IllegalMapStateFaults := by
  intro s x w rest i h hp hx hf hd
  have hhere := here_addressed s rest h
  have hstep : step s = exec i { s with pending := rest, cur := x } := by
    rw [step_regWrite_command hx hp, commandWrite_decoded hd]
  refine ⟨fun hl => ?illegal, fun hl t ht => ?legal⟩
  case illegal =>
    rw [hstep, exec_illegal (by rw [hhere, hf]) (by rw [hhere, hl]), encode_of_decode hd, takeFault_eq, hhere]
    rfl
  case legal => exact exec_legal_fcode h (by rw [hhere, hf]) (by rw [hhere, hl]) (hstep ▸ ht)

/-- Settles O22: a fault entry keeps the map; a completed command was legal, and the map commands apart an effect keeps the map
but for its missing counts. -/
theorem mapStateTransitions : Obligations.MapStateTransitions := by
  refine ⟨fun i s t hs h => ?command, fun s feat c hc => ?reset⟩
  case reset =>
    rw [List.eq_of_mem_replicate hc]
    rfl
  case command =>
    obtain ⟨ht, k, -, -, rfl⟩ | ⟨ht, hl, heff⟩ := exec_running hs.present hs.running h
    · obtain ⟨hopen, hv, hmap⟩ := takeFault_map hs.present k.cause k.info
      exact ⟨fun _ => ⟨hopen, hv⟩, fun hrun => absurd (ht.symm.trans hrun) (by decide), fun _ _ => by rw [hmap]⟩
    · refine ⟨fun hfault => absurd (ht.symm.trans hfault) (by decide),
        fun _ => ⟨?opens, ?commits, ?closes, fun hno hnc hncl => ?others⟩, fun hv hncl => ?valid⟩
      case opens =>
        rintro c p rfl
        exact ⟨hl, effectOf_mapOpen_state hs.present hl heff⟩
      case commits =>
        rintro rfl
        cases heff
        exact ⟨hl, by rw [here_put _ _ hs.present]; rfl⟩
      case closes =>
        rintro rfl
        cases heff
        exact ⟨by simpa [Instr.legalIn] using hl, by rw [here_put _ _ hs.present]; rfl⟩
      case others => exact effectOf_map_state hno hnc hncl heff
      case valid =>
        have hpart := effectOf_mapPart (editsMap_of_legal_valid hl hv hncl) heff
        exact eq_counts_of_uncounted (congrArg (fun p => p.2.2.2) hpart)

end Sys2Proof.Machine
end

section
/-! SUPPORT. The map commands (42_map R181 to R188): the checks of `MAP_COMMIT` as stages over column numbers, the columns of a
map in use, then the statements on the commands. -/

namespace Sys2Proof.Machine

@[simp] theorem column_bad (m : ColMap) (c : Nat) : (Check.column m c).bad = decide (m.ncols ≤ c) := rfl

/-! ### The first failing check of a stage -/

theorem find?_bad_eq_none {checks : List Check} : checks.find? Check.bad = none ↔ ∀ k ∈ checks, k.bad = false := by
  simp

/-- Two stages one after the other: the second is made when the first passes. -/
theorem find?_bad_after {first second : List Check} (h : ∀ k ∈ first, k.bad = false) :
    (first ++ second).find? Check.bad = second.find? Check.bad := by
  rw [List.find?_append, find?_bad_eq_none.2 h, Option.none_or]

theorem find?_bad_first {first second : List Check} {k : Check} (h : first.find? Check.bad = some k) :
    (first ++ second).find? Check.bad = some k := by
  rw [List.find?_append, h, Option.some_or]

theorem range'_split {a n c : Nat} (ha : a ≤ c) (hn : c < a + n) :
    List.range' a n = List.range' a (c - a) ++ c :: List.range' (c + 1) (a + n - 1 - c) := by
  have hlen : n = (c - a) + (a + n - 1 - c + 1) := by omega
  conv_lhs => rw [hlen, ← List.range'_append_1, Nat.add_sub_cancel' ha, List.range'_succ]

/-- A stage over column numbers passes when the checks of each column do. -/
theorem columns_passed {f : Nat → List Check} {a n : Nat} (h : ∀ c, a ≤ c → c < a + n → ∀ k ∈ f c, k.bad = false) :
    ∀ k ∈ (List.range' a n).flatMap f, k.bad = false := by
  rw [List.forall_mem_flatMap]
  intro c hc
  obtain ⟨ha, hn⟩ := List.mem_range'_1.1 hc
  exact h c ha hn

/-- A stage over column numbers fails at the first column one of whose checks fails. -/
theorem find?_bad_columns {f : Nat → List Check} {a n c : Nat} {k : Check} (ha : a ≤ c) (hn : c < a + n)
    (hbefore : ∀ d, a ≤ d → d < c → ∀ j ∈ f d, j.bad = false) (hk : (f c).find? Check.bad = some k) :
    ((List.range' a n).flatMap f).find? Check.bad = some k := by
  rw [range'_split ha hn, List.flatMap_append, List.flatMap_cons, find?_bad_after, find?_bad_first hk]
  exact columns_passed fun d had hd => hbefore d had (by omega)

/-! ### The stages of `MAP_COMMIT` (42_map R187) -/

/-- Column `c` has been set (42_map R187 (2)). -/
def unsetCheck (m : ColMap) (c : Nat) : Check := { bad := !(m.entry c).set, cause := .incomplete, info := Word.ofNat c }

/-- The last column has the size of the first data column or is one sector short (42_map R187 (5)). -/
def lastSizeCheck (cfg : Config) (m : ColMap) : Check :=
  { bad := decide (m.p < m.ncols - 1) && decide (m.size (m.ncols - 1) ≠ m.size m.p)
      && decide (m.size (m.ncols - 1) + cfg.sector ≠ m.size m.p),
    cause := .size, info := Word.ofNat (m.ncols - 1) }

/-- Every column has been set (42_map R187 (2)). -/
def setStage (m : ColMap) : List Check := (List.range' 0 m.ncols).flatMap fun c => [unsetCheck m c]

/-- The tests on each column alone (42_map R187 (3)). -/
def columnStage (cfg : Config) (m : ColMap) : List Check := (List.range' 0 m.ncols).flatMap (commitColumnChecks cfg m)

/-- The data columns between the first and the last (42_map R187 (4)). -/
def middleStage (m : ColMap) : List Check :=
  (List.range' (m.p + 1) (m.ncols - 1 - (m.p + 1))).flatMap fun c => [commitSizeCheck m c]

/-- The parity columns (42_map R187 (6)). -/
def parityStage (m : ColMap) : List Check := (List.range' 0 m.p).flatMap fun c => [commitSizeCheck m c]

theorem commitChecks_eq (cfg : Config) (m : ColMap) : commitChecks cfg m =
    setStage m ++ (columnStage cfg m ++ (middleStage m ++ ([lastSizeCheck cfg m] ++ parityStage m))) := by
  simp [commitChecks, setStage, columnStage, middleStage, parityStage, List.range_eq_range', List.map_eq_flatMap,
    unsetCheck, lastSizeCheck]

/-- What the tests on one column ask of it (42_map R187 (3)). -/
structure ColMap.ColumnFits (cfg : Config) (m : ColMap) (c : Nat) : Prop where
  size_pos : m.size c ≠ 0
  size_sector : m.size c % cfg.sector = 0
  base_aligned : m.base c % wmax = 0
  in_memory : m.base c + m.size c ≤ cfg.memLimit

theorem commitColumnChecks_passed {cfg : Config} {m : ColMap} {c : Nat} (h : m.ColumnFits cfg c) :
    ∀ k ∈ commitColumnChecks cfg m c, k.bad = false := by
  obtain ⟨hpos, hsector, hbase, hmem⟩ := h
  simp [commitColumnChecks, hpos, hsector, hbase, hmem]

theorem setStage_passed {m : ColMap} (h : ∀ c, c < m.ncols → (m.entry c).set = true) : ∀ k ∈ setStage m, k.bad = false :=
  columns_passed fun c _ hc => by simp [unsetCheck, h c (by omega)]

theorem columnStage_passed {cfg : Config} {m : ColMap} (h : ∀ c, c < m.ncols → m.ColumnFits cfg c) :
    ∀ k ∈ columnStage cfg m, k.bad = false :=
  columns_passed fun c _ hc => commitColumnChecks_passed (h c (by omega))

theorem middleStage_passed {m : ColMap} (h : ∀ c, m.p < c → c < m.ncols - 1 → m.size c = m.size m.p) :
    ∀ k ∈ middleStage m, k.bad = false :=
  columns_passed fun c hp hc => by simp [commitSizeCheck, h c hp (by omega)]

theorem lastSizeCheck_passed {cfg : Config} {m : ColMap}
    (h : m.p < m.ncols - 1 → m.size (m.ncols - 1) = m.size m.p ∨ m.size (m.ncols - 1) + cfg.sector = m.size m.p) :
    ∀ k ∈ [lastSizeCheck cfg m], k.bad = false := by
  simpa [lastSizeCheck, or_iff_not_imp_left] using h

theorem parityStage_passed {m : ColMap} (h : ∀ c, c < m.p → m.size c = m.size m.p) : ∀ k ∈ parityStage m, k.bad = false :=
  columns_passed fun c _ hc => by simp [commitSizeCheck, h c (by omega)]

/-- A column that differs in size from the first data column fails its size check. -/
theorem find?_commitSizeCheck {m : ColMap} {c : Nat} (h : m.size c ≠ m.size m.p) :
    [commitSizeCheck m c].find? Check.bad = some (commitSizeCheck m c) := by
  simp [commitSizeCheck, h]

theorem exec_mapCommit_raises {s : State} {k : Check} (hs : s.Ready) (ho : s.here.mapIsOpen = true)
    (hk : (commitChecks s.cfg s.here.map).find? Check.bad = some k) :
    exec .mapCommit s = .next (s.takeFault k.cause k.info) := by
  obtain ⟨hbad, before, after, hsplit, hbefore⟩ := List.find?_eq_some_iff_append.1 hk
  refine exec_raises hs.running (Check.mapState s.here.mapIsOpen .mapCommit :: before) after k ?_ ?_ hbad
  · exact congrArg _ hsplit
  · simpa [ho] using hbefore

/-! ### The column array (10_state R35) -/

theorem entry_eq (m : ColMap) {c : Nat} (h : c < 258) : m.entry c = m.col[c] := by
  simp [ColMap.entry, h]

/-- A map under construction or valid has no column beyond the array (10_state R35). -/
theorem ncols_le {avail : BitVec 3} {m : ColMap} (h : m.Header avail) : m.ncols ≤ maxCols := by
  have hp : m.p < 4 := m.parity.isLt
  have hle : m.ncols ≤ m.p + 255 := h.data_le
  show m.ncols ≤ 258
  omega

/-! ### The statements -/

/-- Settles O28: the checks are five stages, and a failing check is found in the first stage that does not pass, at the first
column of that stage that does not. -/
theorem mapCommitChecksInOrder : Obligations.MapCommitChecksInOrder := by
  intro s hs m last S raises allSet good allGood middle lastFits
  have hfits : ∀ c, good c → m.ColumnFits s.cfg c := fun _ ⟨hpos, hsector, hbase, hmem⟩ => ⟨hpos, hsector, hbase, hmem⟩
  have hcolumns (h : allGood) := columnStage_passed fun c hc => hfits c (h c hc)
  have raises_first {k : Check} (ho : s.here.mapIsOpen = true) (hk : (commitChecks s.cfg m).find? Check.bad = some k) :
      exec .mapCommit s = .next (s.takeFault k.cause k.info) := exec_mapCommit_raises hs ho hk
  refine ⟨fun hclosed => exec_illegal hs.running hclosed, fun ho => ⟨fun c hc hunset hbefore => ?unset,
    fun hset c hc hbefore => ?column, fun hset hgood c hp hl hsize hbefore => ?middle,
    fun hset hgood hmid hp hS hshort => ?last, fun hset hgood hmid hlast c hp hsize hbefore => ?parity,
    fun hset hgood hmid hlast hpar => ?effect⟩⟩
  case unset =>
    refine raises_first (k := unsetCheck m c) ho ?_
    rw [commitChecks_eq]
    refine find?_bad_first (find?_bad_columns c.zero_le (by omega) (fun d _ hd => ?_) ?_)
    · simpa [unsetCheck] using hbefore d hd
    · simp [unsetCheck, hunset]
  case column =>
    have hfound {e : Cause} (hk : (commitColumnChecks s.cfg m c).find? Check.bad = some ⟨true, e, Word.ofNat c⟩) :
        raises e c := by
      refine raises_first ho (?_ : _ = some ⟨true, e, Word.ofNat c⟩)
      rw [commitChecks_eq, find?_bad_after (setStage_passed hset)]
      exact find?_bad_first (find?_bad_columns c.zero_le (by omega)
        (fun d _ hd => commitColumnChecks_passed (hfits d (hbefore d hd))) hk)
    refine ⟨fun hz => hfound ?_, fun hz hsec => hfound ?_, fun hz hsec hb => hfound ?_, fun hz hsec hb hm => hfound ?_⟩
    · simp [commitColumnChecks, hz]
    · simp [commitColumnChecks, hz, hsec]
    · simp [commitColumnChecks, hz, hsec, hb]
    · simp [commitColumnChecks, hz, hsec, hb, hm]
  case middle =>
    refine raises_first (k := commitSizeCheck m c) ho ?_
    rw [commitChecks_eq, find?_bad_after (setStage_passed hset), find?_bad_after (hcolumns hgood)]
    refine find?_bad_first (find?_bad_columns hp (by omega) (fun d hpd hd => ?_) (find?_commitSizeCheck hsize))
    simpa [commitSizeCheck] using hbefore d hpd hd
  case last =>
    refine raises_first (k := lastSizeCheck s.cfg m) ho ?_
    rw [commitChecks_eq, find?_bad_after (setStage_passed hset), find?_bad_after (hcolumns hgood),
      find?_bad_after (middleStage_passed hmid)]
    refine find?_bad_first ?_
    simpa [lastSizeCheck, and_assoc] using ⟨hp, hS, hshort⟩
  case parity =>
    refine raises_first (k := commitSizeCheck m c) ho ?_
    rw [commitChecks_eq, find?_bad_after (setStage_passed hset), find?_bad_after (hcolumns hgood),
      find?_bad_after (middleStage_passed hmid), find?_bad_after (lastSizeCheck_passed hlast)]
    refine find?_bad_columns c.zero_le (by omega) (fun d _ hd => ?_) (find?_commitSizeCheck hsize)
    simpa [commitSizeCheck] using hbefore d hd
  case effect =>
    refine exec_passed hs.running (List.forall_mem_cons.2 ⟨by simp [ho], ?_⟩)
    simp only [commitChecks_eq, List.forall_mem_append]
    exact ⟨setStage_passed hset, hcolumns hgood, middleStage_passed hmid, lastSizeCheck_passed hlast,
      parityStage_passed hpar⟩

/-- Settles O24: `NOP` has no check, and it is ignored or has no effect. -/
theorem nopDoesNothing : Obligations.NopDoesNothing := by
  intro s
  obtain ⟨-, h⟩ | ⟨-, k, hk, -⟩ | ⟨-, -, h⟩ := exec_cases (rfl : exec .nop s = exec .nop s)
  · exact h
  · cases hk
  · exact h

/-- Settles O25: the operands that pass the checks fit the header fields, and the fresh map is the reset one with its header
filled in. -/
theorem mapOpenEffect : Obligations.MapOpenEffect := by
  refine fun s cols parity hs => ⟨fun hn => exec_illegal hs.running hn, fun hn hp => ?parityRange,
    fun hn h1 h3 hcols => ?colsRange, fun hn h1 h3 hpos hle => ?opened⟩
  case parityRange =>
    have hbad : (decide (parity < 1) || decide (3 < parity)) = true := by
      simpa only [Bool.or_eq_true, decide_eq_true_eq] using hp
    exact (exec_raises_second (i := .mapOpen cols parity) hs rfl (by simp [hn]) hbad :)
  case colsRange =>
    have hparity : parity ≠ 0 := by omega
    exact exec_raises hs.running [_, _] [] ⟨_, .colsRange, Word.ofNat cols⟩ rfl (by simp [hn, hparity, h3])
      (by simpa using hcols)
  case opened =>
    have hparity : parity ≠ 0 := by omega
    refine ⟨_, exec_passed hs.running (by simp [checksOf, hn, hparity, h3, hpos, hle]), ?_, ?_, rfl, rfl, rfl, rfl, rfl, rfl,
      rfl, rfl, fun c hc => Vector.getElem_replicate hc⟩
    · exact Nat.mod_eq_of_lt (by omega)
    · exact Nat.mod_eq_of_lt (by omega)

/-- Settles O26: below `MAP.cols` the index is inside the column array. -/
theorem colSetEffect : Obligations.ColSetEffect := by
  refine fun s c hs hmax => ⟨fun ho => exec_illegal hs.running ho, fun ho hc => ?index, fun ho hc => ?set⟩
  case index => exact exec_raises_second (k := Check.column s.here.map c) hs rfl (by simp [ho]) (by simpa using hc)
  case set =>
    refine ⟨_, exec_passed hs.running (by simp [checksOf, ho, hc]), ?_, fun d hd => ?_⟩
    · simp [hc.trans_le hmax]
    · simp [hd.symm]

/-- Settles O27: the array entry is what `COL_GET` reads, and in a reachable state an unset entry is the reset one. -/
theorem colGetEffect : Obligations.ColGetEffect := by
  intro s c hs
  have hget (hl : s.here.mapIsOpen = true ∨ s.here.mapValid = true) (hc : c < s.here.map.ncols) :
      exec (.colGet c) s = effectOf (.colGet c) s :=
    exec_passed hs.running (by simp [checksOf, Bool.or_eq_true_iff.2 hl, hc])
  refine ⟨fun ho hv => exec_illegal hs.running (by simp [Instr.legalIn, ho, hv]), fun hl hc => ?index,
    fun hl hc h => ?get, fun hinv ho hc hunset => ?unset⟩
  case index =>
    exact exec_raises_second (k := Check.column s.here.map c) hs rfl (by simp [Bool.or_eq_true_iff.2 hl]) (by simpa using hc)
  case get => rw [hget hl hc, effectOf, entry_eq _ h]
  case unset =>
    have hok := hinv.each _ (here_mem s hs.present)
    have hnotNone : s.here.mapNone = false := by simp [Context.mapNone, ((mapIsOpen_iff _).1 ho).1]
    have hsmall := ncols_le (hok.map_header hnotNone)
    have hreset : s.here.map.entry c = Col.reset := by
      rw [entry_eq _ (hc.trans_le hsmall)] at hunset ⊢
      exact hok.unset_zero c _ hunset
    rw [hget (.inl ho) hc, effectOf, hreset]
    rfl

/-- Settles O30: the map after `MAP_CLOSE` is the one after reset. -/
theorem mapCloseEffect : Obligations.MapCloseEffect := by
  refine fun s hs => ⟨fun ho hv => exec_illegal hs.running (by simp [Instr.legalIn, ho, hv]), fun hl => ?closed⟩
  case closed => exact exec_passed hs.running (by simp [checksOf, Bool.or_eq_true_iff.2 hl])

end Sys2Proof.Machine
end

section
/-! SUPPORT. The parity generator (43_generation): repeated doubling is the product with a power of 2, so the recurrence is the
sum; writing the same bytes twice is writing them once; what a generation command leaves in memory; then the statements. -/

namespace Sys2Proof

/-- The parity columns a generation command writes on a map: its own count, for `GEN` as many as the map has (R217 to R220). -/
def Instr.genWidth (i : Instr) (m : Machine.ColMap) : Nat :=
  match i with
  | .gen => m.p
  | .genP => 1
  | .genPQ => 2
  | .genPQR => 3
  | _ => 0

end Sys2Proof

namespace Sys2Proof.Machine

/-! ### Powers of 2 are repeated doublings (40_field R121, R122, R125) -/

theorem dbl_xor (a b : Byte) : dbl (a ^^^ b) = dbl a ^^^ dbl b := by
  have hreduce : (if (a ^^^ b).getLsbD 7 then 0x1d#8 else 0#8) =
      (if a.getLsbD 7 then 0x1d#8 else 0#8) ^^^ (if b.getLsbD 7 then 0x1d#8 else 0#8) := by
    rw [BitVec.getLsbD_xor]
    cases a.getLsbD 7 <;> cases b.getLsbD 7 <;> rfl
  rw [dbl, hreduce, BitVec.shiftLeft_xor_distrib, dbl, dbl]
  ac_rfl

theorem dbl_iterate_xor (e : Nat) (a b : Byte) : dbl^[e] (a ^^^ b) = dbl^[e] a ^^^ dbl^[e] b :=
  Function.Semiconj₂.iterate dbl_xor e a b

theorem dbl_iterate_zero (e : Nat) : dbl^[e] 0 = 0#8 := Function.iterate_fixed (by decide) e

theorem pow2_mod (k : Nat) : pow2 (k % 255) = pow2 k := by rw [pow2, Nat.mod_mod, ← pow2]

/-- The rows of `pow2` and `log2` against each other and against doubling, entry by entry (40_field R122, R124). -/
theorem pow2_rows : ∀ r < 255, pow2 (r + 1) = dbl (pow2 r) ∧ pow2 r ≠ 0 ∧ lg (pow2 r) = r := by decide +kernel

theorem pow2_lg : ∀ a : Byte, a ≠ 0 → pow2 (lg a) = a := by decide +kernel

theorem pow2_succ (k : Nat) : pow2 (k + 1) = dbl (pow2 k) := by
  obtain ⟨hsucc, -, -⟩ := pow2_rows (k % 255) (Nat.mod_lt k (by decide))
  rw [← pow2_mod k, ← hsucc, ← pow2_mod (k % 255 + 1), Nat.mod_add_mod, pow2_mod]

theorem pow2_ne_zero (k : Nat) : pow2 k ≠ 0 := by
  obtain ⟨-, hne, -⟩ := pow2_rows (k % 255) (Nat.mod_lt k (by decide))
  rwa [pow2_mod] at hne

theorem lg_pow2 (k : Nat) : lg (pow2 k) = k % 255 := by
  obtain ⟨-, -, hlg⟩ := pow2_rows (k % 255) (Nat.mod_lt k (by decide))
  rwa [pow2_mod] at hlg

theorem pow2_add (k e : Nat) : pow2 (k + e) = dbl^[e] (pow2 k) := by
  induction e with
  | zero => rfl
  | succ e ih => rw [Function.iterate_succ_apply', ← ih, ← Nat.add_assoc, pow2_succ]

theorem gfmul_zero_left (b : Byte) : gfmul 0 b = 0#8 := if_pos (.inl rfl)

theorem gfmul_of_ne_zero {a b : Byte} (ha : a ≠ 0) (hb : b ≠ 0) : gfmul a b = pow2 (lg a + lg b) :=
  if_neg (not_or.2 ⟨ha, hb⟩)

/-- The product with `2^e` is `e` doublings. -/
theorem gfmul_pow2 (v : Byte) (e : Nat) : gfmul v (pow2 e) = dbl^[e] v := by
  by_cases hv : v = 0
  · rw [hv, gfmul_zero_left, dbl_iterate_zero]
  · calc gfmul v (pow2 e) = pow2 (lg v + e % 255) := by rw [gfmul_of_ne_zero hv (pow2_ne_zero e), lg_pow2]
      _ = pow2 (lg v + e) := by rw [← pow2_mod, Nat.add_mod_mod, pow2_mod]
      _ = dbl^[e] v := by rw [pow2_add, pow2_lg v hv]

/-! ### The recurrence computes the sum (43_generation R212, R213) -/

/-- The doublings one step of a parity column's recurrence makes. -/
def Par.doublings : Par → Nat
  | .P => 0
  | .Q => 1
  | .R => 2

theorem step_eq (k : Par) (acc d : Byte) : k.step acc d = dbl^[k.doublings] acc ^^^ d := by cases k <;> rfl

/-- Every coefficient is a power of 2: as many doublings as the steps after its column make. -/
theorem coef_eq_pow2 (m : ColMap) (k : Par) (c : Nat) : m.coef k c = pow2 (k.doublings * m.dist c) := by
  cases k
  case P =>
    rw [Par.doublings, Nat.zero_mul]
    exact (by decide : (1 : Byte) = pow2 0)
  case Q =>
    rw [Par.doublings, Nat.one_mul]
    rfl
  case R =>
    have hmod : m255 (2 * (m.dist c : Int)) = 2 * m.dist c % 255 := by
      unfold m255
      omega
    rw [ColMap.coef, ColMap.bCoef, hmod, pow2_mod, Par.doublings]

theorem xorSum_cons (b : Byte) (l : List Byte) : xorSum (b :: l) = b ^^^ xorSum l := rfl

/-- The recurrence over the columns from `a` on: each byte is doubled once for every later column's step. -/
theorem foldl_step (k : Par) (D : Nat → Byte) (n a : Nat) (acc : Byte) :
    ((List.range' a n).map D).foldl k.step acc = dbl^[k.doublings * n] acc ^^^
      xorSum ((List.range' a n).map fun c => dbl^[k.doublings * (a + n - 1 - c)] (D c)) := by
  induction n generalizing a acc with
  | zero => exact (BitVec.xor_zero (x := acc)).symm
  | succ n ih =>
    have hlater : a + 1 + n - 1 = a + (n + 1) - 1 := by omega
    have hhere : a + (n + 1) - 1 - a = n := by omega
    rw [List.range'_succ, List.map_cons, List.foldl_cons, ih, step_eq, dbl_iterate_xor, ← Function.iterate_add_apply,
      ← Nat.mul_succ, List.map_cons, xorSum_cons, hlater, hhere, BitVec.xor_assoc]

/-- The recurrence may as well start from 0. -/
theorem horner_eq_foldl (k : Par) (l : List Byte) : k.horner l = l.foldl k.step 0 := by
  cases l with
  | nil => rfl
  | cons d ds => rw [List.foldl_cons, step_eq, dbl_iterate_zero, BitVec.zero_xor, Par.horner]

theorem genByte_eq_sumByte (m : ColMap) (mem : Memory) (j : Par) (o : Nat) : m.genByte mem j o = m.sumByte mem j o := by
  rw [ColMap.genByte, ColMap.sumByte, horner_eq_foldl, ColMap.dataCols, foldl_step, dbl_iterate_zero, BitVec.zero_xor]
  refine congrArg xorSum (List.map_congr_left fun c hc => ?_)
  have hdist : m.p + (m.ncols - m.p) - 1 - c = m.dist c := by
    rw [List.mem_range'_1] at hc
    unfold ColMap.dist
    omega
  rw [hdist, coef_eq_pow2, gfmul_pow2]

/-! ### Writing the same bytes twice (20_memory R63) -/

theorem lookup_write (m : Memory) (addr : Nat) (bytes : List Byte) (a : Nat) :
    (m.write addr bytes).lookup a = ((cellsAt addr bytes).lookup a).or (m.lookup a) := by
  have hbelow := @lookup_filter_of_pos m (fun x => decide (x < addr)) a
  have hnotBelow := @lookup_filter_of_neg m (fun x => decide (x < addr)) a
  have habove := @lookup_filter_of_pos m (fun x => decide (addr + bytes.length ≤ x)) a
  have hnotAbove := @lookup_filter_of_neg m (fun x => decide (addr + bytes.length ≤ x)) a
  simp only [decide_eq_true_eq, decide_eq_false_iff_not] at hbelow hnotBelow habove hnotAbove
  rw [Memory.write, List.lookup_append, List.lookup_append, lookup_cellsAt]
  rcases Nat.lt_or_ge a addr with h | h
  · rw [hbelow h, hnotAbove (by omega), if_neg (by omega), Option.or_none, Option.or_none, Option.none_or]
  · rw [hnotBelow (by omega), if_pos h, Option.none_or]
    rcases Nat.lt_or_ge a (addr + bytes.length) with h2 | h2
    · rw [List.getElem?_eq_getElem (by omega : a - addr < bytes.length), Option.some_or, Option.some_or]
    · rw [habove h2]

/-- What several writes leave at an address: what they leave on empty memory, else the old byte. -/
theorem lookup_writes (m : Memory) (l : List (Nat × List Byte)) (a : Nat) :
    (m.writes l).lookup a = ((Memory.writes [] l).lookup a).or (m.lookup a) := by
  induction l generalizing m with
  | nil => rfl
  | cons p l ih =>
    rw [writes_cons, writes_cons, ih, ih (Memory.write [] _ _), lookup_write, lookup_write, List.lookup_nil, Option.or_none,
      Option.or_assoc]

theorem mem_iff_lookup {m : Memory} (h : m.wf = true) (c : Host.Cell) : c ∈ m ↔ m.lookup c.1 = some c.2 := by
  rw [wf_iff] at h
  induction m with
  | nil => simp
  | cons d m ih =>
    obtain ⟨hd, hm⟩ := List.pairwise_cons.1 h
    rw [List.mem_cons, lookup_cell, ih hm]
    by_cases heq : c.1 = d.1
    · have hnot : c ∉ m := fun hc => (hd c hc).ne' heq
      rw [← ih hm, if_pos heq, Prod.ext_iff, Option.some_inj]
      simp [heq, hnot, eq_comm]
    · rw [if_neg heq, or_iff_right (fun h => heq (congrArg Prod.fst h))]

/-- In canonical form a memory is given by what its addresses hold. -/
theorem eq_of_lookup {m n : Memory} (hm : m.wf = true) (hn : n.wf = true) (h : ∀ a, m.lookup a = n.lookup a) : m = n := by
  have hmem (c : Host.Cell) : c ∈ m ↔ c ∈ n := by rw [mem_iff_lookup hm, mem_iff_lookup hn, h]
  rw [wf_iff] at hm hn
  have hnodup {l : Memory} (hl : l.Pairwise fun x y => x.1 < y.1) : l.Nodup :=
    hl.imp fun hlt heq => hlt.ne (congrArg Prod.fst heq)
  exact ((List.perm_ext_iff_of_nodup (hnodup hm) (hnodup hn)).2 hmem).eq_of_pairwise
    (fun x y _ _ hxy hyx => absurd hyx hxy.asymm) hm hn

theorem writes_writes {m : Memory} (l : List (Nat × List Byte)) (h : m.wf = true) : (m.writes l).writes l = m.writes l := by
  refine eq_of_lookup (writes_wf l (writes_wf l h)) (writes_wf l h) fun a => ?_
  rw [lookup_writes (m.writes l), lookup_writes m, ← Option.or_assoc, Option.or_self]

/-! ### Generation reads the data columns only (43_generation R211, R222) -/

/-- Two memories agree on the data columns of a map. -/
def ColMap.SameData (m : ColMap) (mem mem' : Memory) : Prop :=
  ∀ c, m.p ≤ c → c < m.ncols → ∀ a, m.holds c a → mem'.read a = mem.read a

theorem genByte_congr {m : ColMap} {mem mem' : Memory} (h : m.SameData mem mem') (j : Par) (o : Nat) :
    m.genByte mem' j o = m.genByte mem j o := by
  refine congrArg j.horner (List.map_congr_left fun c hc => ?_)
  obtain ⟨hp, hn⟩ := (mem_dataCols m c).1 hc
  unfold ColMap.padded
  split
  · exact h c hp hn _ ⟨by omega, by omega⟩
  · rfl

/-- A generated column is the recurrence at each of its offsets (43_generation R213, R214). -/
theorem genColumn_eq {m : ColMap} {mem : Memory} (hwf : mem.wf = true) (hdata : m.p < m.ncols) (k : Par) (n : Nat) :
    m.genColumn mem k n = (List.range n).map (m.genByte mem k) := by
  obtain ⟨hlen, hget⟩ := genColumn_getD hwf hdata k n
  refine List.ext_getElem (by simpa using hlen) fun o ho _ => ?_
  rw [List.getElem_map, List.getElem_range, ← hget o (hlen ▸ ho), List.getD_eq_getElem _ _ ho]

/-! ### What a generation leaves in memory (43_generation R215, R216) -/

/-- The writes of a generation of `k` parity columns. -/
def ColMap.parityWrites (m : ColMap) (mem : Memory) (k : Nat) : List (Nat × List Byte) :=
  ([Par.P, .Q, .R].take k).map fun j => (m.base j.index, m.genColumn mem j m.psize.toNat)

theorem generate_eq (s : State) (k : Nat) :
    s.generate k = { s with mem := s.mem.writes (s.here.map.parityWrites s.mem k) } :=
  congrArg (fun mem : Memory => { s with mem := mem }) (generate_mem s k)

theorem mem_first_parities (k : Nat) (j : Par) : j ∈ [Par.P, .Q, .R].take k ↔ j.index < k := by
  match k with
  | 0 | 1 | 2 => cases j <;> decide
  | k + 3 => cases j <;> simp [Par.index]

theorem index_injective : Function.Injective Par.index := by
  intro i j
  cases i <;> cases j <;> simp [Par.index]

theorem exists_parity {j : Nat} (h : j < 3) : ∃ q : Par, q.index = j := by
  match j with
  | 0 => exact ⟨.P, rfl⟩
  | 1 => exact ⟨.Q, rfl⟩
  | 2 => exact ⟨.R, rfl⟩

/-- The writes depend on the data only. -/
theorem parityWrites_congr {m : ColMap} {mem mem' : Memory} (hwf : mem.wf = true) (hwf' : mem'.wf = true)
    (hdata : m.p < m.ncols) (h : m.SameData mem mem') (k : Nat) : m.parityWrites mem' k = m.parityWrites mem k := by
  refine List.map_congr_left fun j _ => ?_
  rw [genColumn_eq hwf hdata, genColumn_eq hwf' hdata, funext (genByte_congr h j)]

section
variable {cfg : Config} {m : ColMap} {mem : Memory} {k : Nat}

theorem mem_parityWrites (hwf : mem.wf = true) (hl : m.Layout cfg) {w : Nat × List Byte} (hw : w ∈ m.parityWrites mem k) :
    ∃ j : Par, j.index < k ∧ w.1 = m.base j.index ∧ w.2.length = m.psize.toNat := by
  obtain ⟨j, hj, rfl⟩ := List.mem_map.1 hw
  exact ⟨j, (mem_first_parities k j).1 hj, rfl, (genColumn_getD hwf hl.data_pos j _).1⟩

/-- Bytes outside the written parity columns stay. -/
theorem read_parityWrites_out (hwf : mem.wf = true) (hl : m.Layout cfg) {a : Nat}
    (ha : ∀ j, j < k → ¬ (m.base j ≤ a ∧ a < m.base j + m.psize.toNat)) :
    (mem.writes (m.parityWrites mem k)).read a = mem.read a := by
  refine writes_out _ fun w hw => ?_
  obtain ⟨j, hj, haddr, hlen⟩ := mem_parityWrites hwf hl hw
  rw [haddr, hlen]
  exact ha j.index hj

theorem holds_parity (hl : m.Layout cfg) {c : Nat} (hc : c < m.p) (a : Nat) :
    m.holds c a ↔ m.base c ≤ a ∧ a < m.base c + m.psize.toNat := by
  rw [ColMap.holds, hl.parity_full c hc]

theorem parityWrites_disjoint (hwf : mem.wf = true) (hl : m.Layout cfg) (hd : m.disjointCols = true) (hk : k ≤ m.p) :
    (m.parityWrites mem k).Pairwise fun p q => ∀ a, p.1 ≤ a ∧ a < p.1 + p.2.length → ¬ (q.1 ≤ a ∧ a < q.1 + q.2.length) := by
  have hnodup : ([Par.P, .Q, .R].take k).Nodup := List.Nodup.sublist (List.take_sublist _ _) (by decide)
  have hp := hl.data_pos
  refine List.pairwise_map.2 (hnodup.imp_of_mem fun {i j} hi hj hij a => ?_)
  have hi' := (mem_first_parities k i).1 hi
  have hj' := (mem_first_parities k j).1 hj
  rw [(genColumn_getD hwf hp i _).1, (genColumn_getD hwf hp j _).1, ← holds_parity hl (by omega), ← holds_parity hl (by omega)]
  exact disjointCols_holds hd (by omega) (by omega) (index_injective.ne hij)

/-- A written parity column holds the recurrence on the old data. -/
theorem read_parityWrites_in (hwf : mem.wf = true) (hl : m.Layout cfg) (hd : m.disjointCols = true) (hk : k ≤ m.p) {j : Par}
    (hj : j.index < k) {o : Nat} (ho : o < m.psize.toNat) :
    (mem.writes (m.parityWrites mem k)).read (m.base j.index + o) = m.genByte mem j o := by
  obtain ⟨hlen, hget⟩ := genColumn_getD hwf hl.data_pos j m.psize.toNat
  have hmem := List.mem_map_of_mem (f := fun j : Par => (m.base j.index, m.genColumn mem j m.psize.toNat))
    ((mem_first_parities k j).2 hj)
  exact (writes_in _ _ hmem (hlen.symm ▸ ho) (parityWrites_disjoint hwf hl hd hk)).trans (hget o ho)

/-- Generation leaves the data columns alone. -/
theorem parityWrites_sameData (hwf : mem.wf = true) (hl : m.Layout cfg) (hd : m.disjointCols = true) (hk : k ≤ m.p) :
    m.SameData mem (mem.writes (m.parityWrites mem k)) := by
  refine fun c hp hn a ha => read_parityWrites_out hwf hl fun j hj => ?_
  rw [← holds_parity hl (by omega)]
  exact disjointCols_holds hd hn (by omega) (by omega) ha

/-- The writes of a second generation leave what those of the first left. -/
theorem parityWrites_twice (hwf : mem.wf = true) (hl : m.Layout cfg) (hd : m.disjointCols = true) (hk : k ≤ m.p) :
    (mem.writes (m.parityWrites mem k)).writes (m.parityWrites (mem.writes (m.parityWrites mem k)) k) =
      mem.writes (m.parityWrites mem k) := by
  rw [parityWrites_congr hwf (writes_wf _ hwf) hl.data_pos (parityWrites_sameData hwf hl hd hk), writes_writes _ hwf]

/-- What a generation writes is a function of the data columns. -/
theorem read_parityWrites_sameData {mem' : Memory} (hwf : mem.wf = true) (hwf' : mem'.wf = true) (hl : m.Layout cfg)
    (hd : m.disjointCols = true) (hk : k ≤ m.p) (h : m.SameData mem mem') {j a : Nat} (hj : j < k) (ha : m.holds j a) :
    (mem'.writes (m.parityWrites mem' k)).read a = (mem.writes (m.parityWrites mem k)).read a := by
  have hp : m.p < 4 := m.parity.isLt
  obtain ⟨q, rfl⟩ := exists_parity (by omega : j < 3)
  obtain ⟨hbase, hend⟩ := (holds_parity hl (hj.trans_le hk) a).1 ha
  obtain ⟨o, rfl⟩ := Nat.exists_eq_add_of_le hbase
  have ho : o < m.psize.toNat := Nat.lt_of_add_lt_add_left hend
  rw [read_parityWrites_in hwf' hl hd hk hj ho, read_parityWrites_in hwf hl hd hk hj ho, genByte_congr h]

end

/-! ### Executing a generation command -/

@[simp] theorem parityWidth_passed (m : ColMap) (n : Nat) : (Check.parityWidth m n).bad = false ↔ n ≤ m.p := by
  simp [Check.parityWidth]

theorem generation_checks {i : Instr} (hi : i ∈ [Instr.gen, .genP, .genPQ, .genPQR]) (s : State) :
    (∀ k ∈ checksOf i s, k.bad = false) ↔ s.here.mapValid = true ∧ i.genWidth s.here.map ≤ s.here.map.p := by
  cases i
  case gen | genP | genPQ | genPQR => simp [checksOf, Instr.genWidth]
  all_goals simp at hi

theorem effectOf_generation {i : Instr} (hi : i ∈ [Instr.gen, .genP, .genPQ, .genPQR]) (s : State) :
    effectOf i s = generateEffect s (i.genWidth s.here.map) := by
  cases i
  case gen | genP | genPQ | genPQR => rfl
  all_goals simp at hi

theorem exec_generation {i : Instr} {s : State} (hi : i ∈ [Instr.gen, .genP, .genPQ, .genPQR]) (hs : s.Ready)
    (hv : s.here.mapValid = true) (hown : s.BuffersOwn) (hw : i.genWidth s.here.map ≤ s.here.map.p) :
    exec i s = .next (s.generate (i.genWidth s.here.map)) := by
  rw [exec_passed hs.running ((generation_checks hi s).2 ⟨hv, hw⟩), effectOf_generation hi, generateEffect,
    onBuffers_own _ hown, guarded_generate _ _ hs.present hs.outside]

/-- With the parity columns it needs, a generation command that does not stop generates. -/
theorem exec_generation_next {i : Instr} {s t : State} (hi : i ∈ [Instr.gen, .genP, .genPQ, .genPQR]) (hs : s.Ready)
    (hv : s.here.mapValid = true) (hw : i.genWidth s.here.map ≤ s.here.map.p) (h : exec i s = .next t) :
    t = s.generate (i.genWidth s.here.map) := by
  rw [exec_passed hs.running ((generation_checks hi s).2 ⟨hv, hw⟩), effectOf_generation hi, generateEffect,
    guarded_generate _ _ hs.present hs.outside] at h
  exact onBuffers_next h

/-- A generation command that completed found a valid map with the parity columns it needs. -/
theorem checks_of_completed {i : Instr} {s t : State} (hi : i ∈ [Instr.gen, .genP, .genPQ, .genPQR]) (hs : s.Ready)
    (h : exec i s = .next t) (ht : t.here.fault = false) :
    s.here.mapValid = true ∧ i.genWidth s.here.map ≤ s.here.map.p := by
  obtain ⟨hf, -⟩ | ⟨-, k, -, -, hr⟩ | ⟨-, hpass, -⟩ := exec_cases h
  · exact absurd hs.running (by simp [hf])
  · cases hr
    rw [takeFault_here hs.present] at ht
    cases ht
  · exact (generation_checks hi s).1 hpass

/-- Too few parity columns are the second check of the commands that have one (43_generation R215). -/
theorem exec_parityWidth {i : Instr} {s : State} {n : Nat} (hs : s.Ready) (hv : s.here.mapValid = true)
    (hchecks : checksOf i s = [Check.mapState s.here.mapValid i, Check.parityWidth s.here.map n]) (hn : s.here.map.p < n) :
    exec i s = .next (s.takeFault .parityWidth (Word.ofNat n)) :=
  exec_raises_second (k := Check.parityWidth s.here.map n) hs hchecks (by simp [hv]) (by simpa [Check.parityWidth] using hn)

/-! ### A state that computes -/

theorem State.Computes.ready {s : State} (hs : s.Computes) : s.Ready := by
  have hc : s.cur < s.ctxs.length := hs.inv.contexts ▸ hs.inv.addressed
  exact ⟨hc, hs.running, (hs.inv.each _ (here_mem s hc)).guard_clear⟩

theorem State.Computes.layout {s : State} (hs : s.Computes) : s.here.map.Layout s.cfg :=
  (hs.inv.each _ (here_mem s hs.ready.present)).map_valid hs.valid

theorem ready_mem {s : State} (hs : s.Ready) (mem : Memory) : ({ s with mem := mem } : State).Ready :=
  ⟨hs.present, hs.running, hs.outside⟩

theorem ready_generate {s : State} (hs : s.Ready) (k : Nat) : (s.generate k).Ready := ready_mem hs _

/-- Generating again changes nothing (43_generation R222). -/
theorem generate_generate {s : State} (hs : s.Computes) {k : Nat} (hk : k ≤ s.here.map.p) :
    (s.generate k).generate k = s.generate k := by
  obtain ⟨-, hdisjoint, -⟩ := hs.own
  rw [generate_eq, generate_eq]
  exact congrArg (fun mem : Memory => { s with mem := mem })
    (parityWrites_twice hs.inv.mem_wf hs.layout hdisjoint hk)

/-! ### Another backend -/

theorem genWidth_backend (i : Instr) (m : ColMap) (b : BitVec 8) : i.genWidth { m with backend := b } = i.genWidth m := by
  cases i <;> rfl

theorem onBackend_here {s : State} (hs : s.Ready) (b : Nat) :
    (s.onBackend b).here = { s.here with map := { s.here.map with backend := BitVec.ofNat 8 b } } := here_put _ _ hs.present

theorem ready_onBackend {s : State} (hs : s.Ready) (b : Nat) : (s.onBackend b).Ready where
  present := by simpa [State.onBackend] using hs.present
  running := by rw [onBackend_here hs, hs.running]
  outside := by rw [onBackend_here hs, hs.outside]

/-- What a generation writes does not depend on the backend (45_dispatch R288). -/
theorem generate_onBackend_mem {s : State} (hs : s.Ready) (b k : Nat) :
    ((s.onBackend b).generate k).mem = s.mem.writes (s.here.map.parityWrites s.mem k) := by
  rw [generate_eq, onBackend_here hs]
  rfl

/-! ### The statements -/

/-- Settles O49: a command whose checks pass writes the recurrence of the old data to its parity columns, which is the sum; the
others fail their second check. -/
theorem generationEffect : Obligations.GenerationEffect := by
  intro s hs m generates
  have hready := hs.ready
  have hl := hs.layout
  obtain ⟨-, hdisjoint, -⟩ := hs.own
  have hgen {i : Instr} (hi : i ∈ [Instr.gen, .genP, .genPQ, .genPQR]) (hw : i.genWidth m ≤ m.p) :
      generates i (i.genWidth m) := by
    refine ⟨s.mem.writes (m.parityWrites s.mem (i.genWidth m)), ?effect, fun j hj o ho => ?inside,
      fun a ha => read_parityWrites_out hs.inv.mem_wf hl ha⟩
    case effect => rw [exec_generation hi hready hs.valid hs.own hw, generate_eq]
    case inside => rw [read_parityWrites_in hs.inv.mem_wf hl hdisjoint hw hj ho, genByte_eq_sumByte]
  refine ⟨hgen (i := .gen) (by simp) le_rfl, hgen (i := .genP) (by simp) hl.parity_pos, hgen (i := .genPQ) (by simp),
    exec_parityWidth hready hs.valid rfl, fun h3 => hgen (i := .genPQR) (by simp) h3.ge, exec_parityWidth hready hs.valid rfl⟩

/-- Settles O51: the repeated command writes what the first one left, and under any backend the parity columns hold the recurrence
of the same data. -/
theorem generationRepeats : Obligations.GenerationRepeats := by
  intro s hs i hi t h ht
  have hready := hs.ready
  have hl := hs.layout
  have hwf := hs.inv.mem_wf
  obtain ⟨-, hdisjoint, -⟩ := hs.own
  obtain ⟨-, hw⟩ := checks_of_completed hi hready h ht
  obtain rfl := exec_generation_next hi hready hs.valid hw h
  refine ⟨?again, fun mem b t' hwf' _ hdata h' j k hk hj a ha => ?elsewhere⟩
  case again =>
    exact (exec_generation hi (ready_generate hready _) hs.valid hs.own hw).trans
      (congrArg Host.Outcome.next (generate_generate hs hw))
  case elsewhere =>
    have hwidth : i.genWidth s.here.map = k := by
      obtain ⟨rfl, rfl⟩ | ⟨rfl, rfl⟩ | ⟨rfl, rfl⟩ | ⟨rfl, rfl⟩ := hk <;> rfl
    have hready' := ready_mem hready mem
    have hhere := onBackend_here hready' b
    have hgenerated := exec_generation_next hi (ready_onBackend hready' b) (hhere ▸ hs.valid)
      (by rw [hhere, genWidth_backend]; exact hw) h'
    rw [hgenerated, generate_onBackend_mem hready', hhere, genWidth_backend, generate_eq]
    rw [← hwidth] at hj
    exact read_parityWrites_sameData hwf hwf' hl hdisjoint hw hdata hj ha

end Sys2Proof.Machine
end

section
/-! SUPPORT. The reconstruction commands (44_reconstruction): an explicit command whose targets fit the map completes; `REC`
passes its checks exactly where enough parity columns are left; its selection is the table of R261; then the statement. -/

namespace Sys2Proof.Machine

/-! ### The explicit commands (44_reconstruction R238) -/

@[simp] theorem targets_bad (ok : Bool) (i : Instr) : (Check.targets ok i).bad = !ok := rfl

@[simp] theorem dataTarget_passed (m : ColMap) (t : Nat) :
    (Check.dataTarget m t).bad = false ↔ m.p ≤ t ∧ t < m.ncols := by
  simp [Check.dataTarget]

theorem checksOf_explicit (k : RecCase) (s : State) :
    checksOf k.instr s = s.explicitChecks k.instr k.needs k.targets := by cases k <;> rfl

theorem effectOf_explicit (k : RecCase) (s : State) : effectOf k.instr s = recoverEffect s k 0 := by cases k <;> rfl

theorem explicitChecks_passed {s : State} {k : RecCase} (hv : s.here.mapValid = true) (hk : k.Fits s.here.map) :
    ∀ c ∈ checksOf k.instr s, c.bad = false := by
  simp only [checksOf_explicit, State.explicitChecks, List.forall_mem_append, List.forall_mem_cons, List.forall_mem_map,
    parityWidth_passed, dataTarget_passed]
  exact ⟨⟨⟨by simp [hv], hk.parity, by simp⟩, hk.data⟩, by simpa using hk.increasing, by simp⟩

/-- A reconstruction inside its own buffers happens; the guard around it leaves no trace. -/
theorem recoverEffect_own {s : State} (hs : s.Computes) (k : RecCase) (np : Nat) :
    recoverEffect s k np = .next (s.reconstruct k np) := by
  rw [recoverEffect, onBuffers_own _ hs.own, guarded_reconstruct _ _ _ hs.ready.present hs.ready.outside]

/-- The explicit command of a case whose targets fit the map completes. -/
theorem exec_explicit {s : State} {k : RecCase} (hs : s.Computes) (hk : k.Fits s.here.map) :
    exec k.instr s = .next (s.reconstruct k 0) := by
  rw [exec_passed hs.running (explicitChecks_passed hs.valid hk), effectOf_explicit, recoverEffect_own hs]

/-- Reconstructions that differ in the number of damaged parity columns differ in `MAP.missingparity` (R270). -/
theorem reconstruct_missingparity {s : State} (hs : s.Ready) (k : RecCase) (np np' : Nat) :
    s.reconstruct k np' = (s.reconstruct k np).put { (s.reconstruct k np).here with
      map := { (s.reconstruct k np).here.map with missingparity := BitVec.ofNat 2 np' } } := by
  rw [reconstruct_here k np hs.present]
  simp [State.reconstruct, State.put]

/-! ### The checks of `REC` (44_reconstruction R262) -/

/-- The last check of `REC`: a parity column is left for every data target. -/
def Check.parityLeft (m : ColMap) (ts : List Nat) : Check :=
  { bad := decide (m.p < (m.damagedParity ts).length + (m.damagedData ts).length), cause := .parityWidth,
    info := Word.ofNat (m.damagedData ts).length }

/-- On a list of one to three columns of the map, unused fields 0, strictly increasing, with a data target, the checks before the
last one pass. -/
theorem recListChecks_last {s : State} {nt t0 t1 t2 : Nat} (hv : s.here.mapValid = true) (h1 : 1 ≤ nt) (h3 : nt ≤ 3)
    (ht1 : nt < 2 → t1 = 0) (ht2 : nt < 3 → t2 = 0) (hcols : ∀ t ∈ damagedList nt t0 t1 t2, t < s.here.map.ncols)
    (hinc : (damagedList nt t0 t1 t2).Pairwise (· < ·)) (hdata : s.here.map.damagedData (damagedList nt t0 t1 t2) ≠ []) :
    ∃ earlier, checksOf (.recList nt t0 t1 t2) s = earlier ++ [Check.parityLeft s.here.map (damagedList nt t0 t1 t2)] ∧
      ∀ c ∈ earlier, c.bad = false := by
  have hfields : (nt ≤ 1 → t1 = 0) ∧ (nt ≤ 2 → t2 = 0) := by omega
  have hsteps : (1 < nt → t0 < t1) ∧ (3 ≤ nt → t1 < t2) := by
    simp only [damagedList] at hinc
    obtain rfl | rfl | rfl : nt = 1 ∨ nt = 2 ∨ nt = 3 := by omega
    · simp
    · simpa using hinc
    · obtain ⟨⟨hfirst, -⟩, hsecond⟩ : (t0 < t1 ∧ t0 < t2) ∧ t1 < t2 := by simpa using hinc
      exact ⟨fun _ => hfirst, fun _ => hsecond⟩
  refine ⟨_, (List.append_assoc _ [_, _] [_]).symm, ?_⟩
  simp only [List.forall_mem_append, List.forall_mem_cons, List.forall_mem_map, column_bad, decide_eq_false_iff_not, not_le]
  exact ⟨⟨⟨by simp [hv], by simp [h1, h3], by simpa using hfields, by simp⟩, hcols⟩, by simpa using hsteps,
    by simpa using hdata, by simp⟩

/-! ### The selection table (44_reconstruction R261) -/

/-- The `n` lowest-numbered of the `p` parity columns that are not damaged. -/
def lowestValid (p : Nat) (damaged : List Nat) (n : Nat) : List Nat :=
  ((List.range p).filter fun j => decide (j ∉ damaged)).take n

theorem usedParity_eq (m : ColMap) (ts : List Nat) :
    m.usedParity ts = lowestValid m.p (m.damagedParity ts) (m.damagedData ts).length := by
  refine congrArg (List.take _) (List.filter_congr fun j hj => ?_)
  have hjp : j < m.p := List.mem_range.1 hj
  simp [ColMap.damagedParity, hjp]

/-- The damaged parity columns of an increasing list are some of the map's parity columns, in order. -/
theorem damagedParity_sublist (m : ColMap) {ts : List Nat} (hinc : ts.Pairwise (· < ·)) :
    (m.damagedParity ts).Sublist (List.range m.p) := by
  have hd : (m.damagedParity ts).Pairwise (· < ·) := hinc.filter _
  have hsub : m.damagedParity ts ⊆ List.range m.p := fun j hj => by
    simpa using List.of_mem_filter hj
  exact List.sublist_of_subperm_of_pairwise (List.subperm_of_subset hd.nodup hsub) hd List.pairwise_lt_range

/-- The table has a row exactly where a valid parity column is left for every data target, and the row is the case that uses the
lowest-numbered ones. -/
theorem recTable_eq {p : Nat} {damaged targets : List Nat} (h1 : 1 ≤ p) (h3 : p ≤ 3) (hd : damaged.Sublist (List.range p))
    (ht : targets ≠ []) : recTable p damaged targets =
      if p < damaged.length + targets.length then none
      else some (selectCase (lowestValid p damaged targets.length) targets) := by
  rw [← List.mem_sublists] at hd
  -- for each number of targets, the rows: a parity count and a list of damaged parity columns
  match targets with
  | [_] | [_, _] | [_, _, _] => interval_cases p <;> fin_cases hd <;> rfl
  | _ :: _ :: _ :: _ :: _ =>
    rw [if_pos (by simp only [List.length_cons]; omega)]
    interval_cases p <;> fin_cases hd <;> rfl

/-- A row of the table reconstructs the data targets with parity columns that the map has. -/
theorem recTable_row {p : Nat} {damaged targets : List Nat} {k : RecCase} (h : recTable p damaged targets = some k) :
    k.targets = targets ∧ k.needs ≤ p := by
  unfold recTable at h
  split at h <;> cases h <;> exact ⟨rfl, by simp [RecCase.needs]⟩

/-- The case of a row fits the map. -/
theorem fits_of_recTable {m : ColMap} {ts : List Nat} {k : RecCase} (hcols : ∀ t ∈ ts, t < m.ncols)
    (hinc : ts.Pairwise (· < ·)) (h : recTable m.p (m.damagedParity ts) (m.damagedData ts) = some k) : k.Fits m := by
  obtain ⟨htargets, hneeds⟩ := recTable_row h
  refine ⟨hneeds, fun t ht => ?_, htargets ▸ hinc.filter _⟩
  rw [htargets] at ht
  exact ⟨by simpa using List.of_mem_filter ht, hcols t (List.mem_of_mem_filter ht)⟩

/-! ### The statement -/

/-- Settles O56: the last check fails exactly where the table has no row; where it has one, `REC` reconstructs the row's case, whose
explicit command completes. -/
theorem recSelects : Obligations.RecSelects := by
  intro s nt t0 t1 t2 hs h1 h3 ht1 ht2 m ts hcols hinc hdata
  have hp : m.p < 4 := m.parity.isLt
  have htable := recTable_eq hs.layout.parity_pos (Nat.le_of_lt_succ hp) (damagedParity_sublist m hinc) hdata
  obtain ⟨earlier, hsplit, hearlier⟩ := recListChecks_last hs.valid h1 h3 ht1 ht2 hcols hinc hdata
  refine ⟨fun k hk => ?row, fun hnone => ?noRow⟩
  case row =>
    obtain ⟨hleft, hcase⟩ := Option.ite_none_left_eq_some.1 (htable.symm.trans hk)
    rw [← usedParity_eq, Option.some_inj] at hcase
    refine ⟨_, exec_explicit hs (fits_of_recTable hcols hinc hk), ?completes, ?same⟩
    case completes => rw [reconstruct_here _ _ hs.ready.present, hs.running]
    case same =>
      have hpassed : ∀ c ∈ checksOf (.recList nt t0 t1 t2) s, c.bad = false := by
        rw [hsplit, List.forall_mem_append]
        exact ⟨hearlier, by simpa [Check.parityLeft] using hleft⟩
      rw [← reconstruct_missingparity hs.ready, exec_passed hs.running hpassed, effectOf, hcase, recoverEffect_own hs]
  case noRow =>
    have hmissing : m.p < (m.damagedParity ts).length + (m.damagedData ts).length := by
      by_contra hleft
      rw [htable, if_neg hleft] at hnone
      cases hnone
    exact exec_raises hs.running earlier [] (Check.parityLeft m ts) hsplit hearlier (decide_eq_true hmissing)

end Sys2Proof.Machine
end

section
/-! SUPPORT. The backend selection commands (45_dispatch R282 to R285, R289): the packed names and the largest available id, what
each command leaves of the parameters, `AVAIL`, `BSEL` and the backend of every map, then the statements. -/

namespace Sys2Proof

/-- The commands that write `BSEL` or the backend of a map (45_dispatch R289). -/
def Instr.redirects : Instr → Bool
  | .bkSet | .bkAuto | .mapOpen _ _ | .mapClose => true
  | _ => false

end Sys2Proof

namespace Sys2Proof.Machine

/-! ### The backend with a packed name (45_dispatch R281, R283) -/

theorem packed_names : pack (bkd 0).name = 0x000072616C616373 ∧ pack (bkd 1).name = 0x0000000032787661 ∧
    pack (bkd 2).name = 0x0000323135787661 := by decide

/-- The names of the backend table are distinct as register values. -/
theorem pack_name_injective : ∀ b < nbk, ∀ b' < nbk, pack (bkd b).name = pack (bkd b').name → b = b' := by decide

theorem findByName_eq_some {ci : BitVec 3} {name : Word} {b : Nat} (hb : b < nbk) (hname : pack (bkd b).name = name)
    (hci : compiledIn ci b = true) : findByName ci name = some b := by
  have hfound : (findByName ci name).isSome = true :=
    List.find?_isSome.2 ⟨b, List.mem_range.2 hb, by simp [hname, hci]⟩
  obtain ⟨b', hb'⟩ := Option.isSome_iff_exists.1 hfound
  have hlt : b' < nbk := List.mem_range.1 (List.mem_of_find?_eq_some hb')
  have hsat := List.find?_some hb'
  simp only [Bool.and_eq_true, beq_iff_eq] at hsat
  rw [hb', pack_name_injective b' hlt b hb (hsat.1.trans hname.symm)]

theorem findByName_eq_none {ci : BitVec 3} {name : Word}
    (h : ∀ b, b < nbk → pack (bkd b).name = name → compiledIn ci b = false) : findByName ci name = none := by
  refine List.find?_eq_none.2 fun b hb => ?_
  simpa using h b (List.mem_range.1 hb)

/-! ### The registered list (45_dispatch R280, R284) -/

theorem registered_of_lt (avail : BitVec 3) {b : Nat} (h : b < nbk) : registered avail b = avail.getLsbD b := by
  simp [registered, h]

theorem registered_of_ge (avail : BitVec 3) {b : Nat} (h : nbk ≤ b) : registered avail b = false := by
  simp [registered, h]

theorem best_eq_of_largest {avail : BitVec 3} {b : Nat} (h : registered avail b = true)
    (hmax : ∀ b', registered avail b' = true → b' ≤ b) : best avail = b := by
  have hne := List.ne_nil_of_mem ((mem_registered_list avail b).2 h)
  have hbest : registered avail (best avail) = true := by
    rw [← mem_registered_list, best_eq_getLast hne]
    exact List.getLast_mem hne
  exact Nat.le_antisymm (hmax _ hbest) (le_best h)

/-! ### Executing a selection command in a running context: it has no check -/

theorem exec_unchecked {i : Instr} {s : State} (hs : s.Ready) (h : checksOf i s = []) : exec i s = effectOf i s :=
  exec_passed hs.running (by simp [h])

theorem exec_bkEnum {s : State} (hs : s.Ready) (i : Nat) :
    exec (.bkEnum i) s = .next (s.setRes (if registered s.avail i then pack (bkd i).name else 0)) :=
  exec_unchecked hs rfl

/-! ### What the commands leave of the selection and of the backends in use (45_dispatch R289) -/

/-- The parameters, `AVAIL`, `BSEL` and the backend of every context's map. -/
def State.dispatch (s : State) : Config × BitVec 3 × BitVec 8 × List (BitVec 8) :=
  (s.cfg, s.avail, s.bsel, s.ctxs.map fun c => c.map.backend)

/-- What `f` reads of every context stays when the new context has what the addressed one had. -/
theorem put_keeps_each {α : Type} (f : Context → α) {s : State} {c : Context} (h : f c = f s.here) :
    (s.put c).ctxs.map f = s.ctxs.map f := by
  by_cases hc : s.cur < s.ctxs.length
  · rw [put_ctxs, List.map_set, h, here_eq s hc, ← List.map_set, List.set_getElem_self]
  · rw [put_ctxs, List.set_eq_of_length_le (Nat.le_of_not_lt hc)]

theorem put_dispatch {s : State} {c : Context} (h : c.map.backend = s.here.map.backend) :
    (s.put c).dispatch = s.dispatch := by
  rw [State.dispatch, put_keeps_each (fun c => c.map.backend) h]
  rfl

theorem mem_update_dispatch (s : State) (m : Memory) : ({ s with mem := m } : State).dispatch = s.dispatch := rfl

theorem setRes_dispatch (s : State) (v : Word) : (s.setRes v).dispatch = s.dispatch := put_dispatch rfl

theorem putLane_dispatch (s : State) (vd w : Nat) (r : Nat → Byte) : (s.putLane vd w r).dispatch = s.dispatch :=
  put_dispatch rfl

theorem reconstruct_dispatch (s : State) (k : RecCase) (np : Nat) : (s.reconstruct k np).dispatch = s.dispatch := by
  rw [State.reconstruct, mem_update_dispatch]
  exact put_dispatch rfl

/-- The vector guard is not part of the selection. -/
theorem guarded_dispatch {f : State → State} (hf : ∀ t, (f t).dispatch = t.dispatch) (s : State) (bk : Nat) :
    (s.guarded bk f).dispatch = s.dispatch := by
  have hguard (t : State) (b : Bool) : (t.setGuard b).dispatch = t.dispatch := put_dispatch rfl
  unfold State.guarded
  split
  · exact hf s
  · rw [hguard, hf, hguard]

theorem generateEffect_dispatch {s t : State} {k : Nat} (h : generateEffect s k = .next t) : t.dispatch = s.dispatch := by
  rw [onBuffers_next h]
  exact guarded_dispatch (fun _ => mem_update_dispatch _ _) s _

theorem recoverEffect_dispatch {s t : State} {k : RecCase} {np : Nat} (h : recoverEffect s k np = .next t) :
    t.dispatch = s.dispatch := by
  rw [onBuffers_next h]
  exact guarded_dispatch (fun t => reconstruct_dispatch t k np) s _

theorem effectOf_dispatch {i : Instr} {s t : State} (hi : i.redirects = false) (h : effectOf i s = .next t) :
    t.dispatch = s.dispatch := by
  cases i
  case bkSet | bkAuto | mapOpen | mapClose => cases hi
  case gen | genP | genPQ | genPQR => exact generateEffect_dispatch h
  case recList | recP | recQ | recR | recPQ | recPR | recQR | recPQR => exact recoverEffect_dispatch h
  case nop =>
    cases h
    rfl
  case colSet | colGet | mapCommit | bkGet | bkEnum | gfMul | gfExp2 | gfFixexp | gfPow2 | gfLog2 =>
    cases h
    exact put_dispatch rfl
  case laneWidth =>
    cases h
    exact guarded_dispatch (fun t => setRes_dispatch t _) s _
  case laneLoad | laneXor | laneMul2 | laneMul4 | laneMulc =>
    cases h
    exact guarded_dispatch (fun t => putLane_dispatch t _ _ _) s _
  case laneStore =>
    cases h
    exact guarded_dispatch (fun t => mem_update_dispatch t _) s _

theorem exec_dispatch {i : Instr} {s t : State} (hi : i.redirects = false) (h : exec i s = .next t) :
    t.dispatch = s.dispatch := by
  obtain ⟨-, hr⟩ | ⟨-, k, -, -, hr⟩ | ⟨-, -, hr⟩ := exec_cases h
  · cases hr
    rfl
  · cases hr
    exact put_dispatch rfl
  · exact effectOf_dispatch hi hr.symm

/-- `BK_SET` and `BK_AUTO` write `RES` and `BSEL` only; a faulted context keeps both. -/
theorem exec_selection {i : Instr} {s t : State} (hi : i = .bkSet ∨ i = .bkAuto) (h : exec i s = .next t) :
    ∃ v b, t = { s.setRes v with bsel := b } := by
  obtain ⟨-, hr⟩ | ⟨-, k, hk, -, -⟩ | ⟨-, -, hr⟩ := exec_cases h
  case inl =>
    cases hr
    exact ⟨s.here.res, s.bsel, (put_here s).symm⟩
  case inr.inl => obtain rfl | rfl := hi <;> cases hk
  case inr.inr =>
    obtain rfl | rfl := hi <;> cases hr
    case inr => exact ⟨_, _, rfl⟩
    case inl =>
      split
      · exact ⟨1, s.bsel, rfl⟩
      · split
        · exact ⟨_, _, rfl⟩
        · exact ⟨2, s.bsel, rfl⟩

/-- `MAP_OPEN` and `MAP_CLOSE` change the addressed context only, also when they fault. -/
theorem exec_openClose {i : Instr} {s t : State} (hi : (∃ c p, i = .mapOpen c p) ∨ i = .mapClose) (h : exec i s = .next t) :
    ∃ c, t = s.put c := by
  obtain ⟨-, hr⟩ | ⟨-, k, -, -, hr⟩ | ⟨-, -, hr⟩ := exec_cases h
  · cases hr
    exact ⟨s.here, (put_here s).symm⟩
  · cases hr
    exact ⟨_, rfl⟩
  · obtain ⟨c, p, rfl⟩ | rfl := hi <;> cases hr <;> exact ⟨_, rfl⟩

/-- Lists that agree under `f` agree under it at every place. -/
theorem getElem?_map_eq {α : Type} {f : Context → α} {l l' : List Context} (h : l.map f = l'.map f) (y : Nat) :
    (l[y]?).map f = (l'[y]?).map f := by
  rw [← List.getElem?_map, h, List.getElem?_map]

/-! ### The statements -/

/-- Settles O19: the four commands that redirect change `BSEL` and `RES`, or the addressed context; all others keep the selection
and the backend of every map. -/
theorem selectionNeverTouchesMaps : Obligations.SelectionNeverTouchesMaps := by
  intro i s t h
  cases hi : i.redirects with
  | false =>
    have hkeeps := exec_dispatch hi h
    simp only [State.dispatch, Prod.mk.injEq] at hkeeps
    obtain ⟨hcfg, havail, hbsel, hbackends⟩ := hkeeps
    refine ⟨hcfg, havail, fun _ _ => hbsel, ?_, fun _ _ => getElem?_map_eq hbackends⟩
    rintro (rfl | rfl) <;> cases hi
  | true =>
    cases i
    case bkSet | bkAuto =>
      obtain ⟨v, b, rfl⟩ := exec_selection (by simp) h
      exact ⟨rfl, rfl, by simp, fun _ => ⟨rfl, getElem?_map_eq (put_keeps_each Context.map rfl)⟩,
        fun _ _ => getElem?_map_eq (put_keeps_each (fun c => c.map.backend) rfl)⟩
    case mapOpen | mapClose =>
      obtain ⟨c, rfl⟩ := exec_openClose (by simp) h
      exact ⟨rfl, rfl, fun _ _ => rfl, by simp, by simp⟩
    all_goals cases hi

/-- Settles O31: the search by name finds the one compiled-in backend with the name, if there is one. -/
theorem bkSetEffect : Obligations.BkSetEffect := by
  refine fun s hs => ⟨fun b hb hname hci => ?found, fun hnone => ?unknown⟩
  case found =>
    rw [exec_unchecked hs rfl, effectOf, findByName_eq_some hb hname hci]
    exact ⟨fun havail => by simp [havail], fun havail => by simp [havail]⟩
  case unknown =>
    rw [exec_unchecked hs rfl, effectOf, findByName_eq_none hnone]
    rfl

/-- Settles O32: `best` is the largest id of the registered list, and the packed names are those of the backend table. -/
theorem bkAutoGetEnumEffect : Obligations.BkAutoGetEnumEffect := by
  intro s hs
  obtain ⟨hscalar, havx2, havx512⟩ := packed_names
  refine ⟨fun b hb hmax => ?auto, ?get, ?scalar, ?avx2, ?avx512, fun i hi => ?beyond⟩
  case auto =>
    rw [exec_unchecked hs rfl, effectOf, best_eq_of_largest hb hmax]
    rfl
  case get =>
    rw [exec_unchecked hs rfl, effectOf, ← BitVec.ofNat_toNat]
    rfl
  case scalar => rw [exec_bkEnum hs, registered_of_lt _ (by decide), hscalar, setRes_eq]
  case avx2 => rw [exec_bkEnum hs, registered_of_lt _ (by decide), havx2, setRes_eq]
  case avx512 => rw [exec_bkEnum hs, registered_of_lt _ (by decide), havx512, setRes_eq]
  case beyond =>
    rw [exec_bkEnum hs, registered_of_ge _ hi]
    rfl

end Sys2Proof.Machine
end

section
/-! SUPPORT. Faulted contexts and the frame of one context (60_exceptions R322, R323, R336): what a write to the port can leave,
said once for every command, then what each operation of the host can leave, then the statements on them. -/

namespace Sys2Proof.Machine

/-! ### A faulted context ignores every write (60_exceptions R322) -/

theorem commandWrite_faulted {s : State} (w : Word) (hf : s.here.fault = true) : s.commandWrite w = .next s := by
  unfold State.commandWrite
  split
  · rw [exec_eq_issue, issue_faulted _ _ hf]
  · exact issue_faulted _ _ hf

theorem step_regWrite_faulted {s : State} {x num : Nat} {v : Word} {rest : List HostOp} (h : x < s.ctxs.length)
    (hx : x < s.cfg.nctx) (hn : num < 512) (hf : s.ctxs[x].fault = true) (hp : s.pending = .regWrite x num v :: rest) :
    step s = .next { s with pending := rest, cur := x } := by
  have hhere : ({ s with pending := rest, cur := x } : State).here.fault = true := by rw [here_addressed s rest h, hf]
  by_cases h0 : num = 0
  · subst h0
    rw [step_regWrite_command hx hp, commandWrite_faulted v hhere]
  · rw [step_regWrite_operand hx hn h0 hp, operandWrite_faulted num v hhere]

/-! ### What an effect can change -/

/-- `t` is `s` with at most the addressed context, but not its `FAULT`, buffer memory and `BSEL` changed. -/
def State.Completes (s t : State) : Prop :=
  ∃ (c : Context) (m : Memory) (b : BitVec 8), c.fault = s.here.fault ∧ t = { s.put c with mem := m, bsel := b }

namespace State.Completes

theorem put {s : State} {c : Context} (h : c.fault = s.here.fault) : s.Completes (s.put c) := ⟨c, s.mem, s.bsel, h, rfl⟩

theorem refl (s : State) : s.Completes s := ⟨s.here, s.mem, s.bsel, rfl, by rw [put_here]⟩

theorem withMem {s t : State} (h : s.Completes t) (m : Memory) : s.Completes { t with mem := m } := by
  obtain ⟨c, m', b, hc, rfl⟩ := h
  exact ⟨c, m, b, hc, rfl⟩

theorem withBsel {s t : State} (h : s.Completes t) (b : BitVec 8) : s.Completes { t with bsel := b } := by
  obtain ⟨c, m, b', hc, rfl⟩ := h
  exact ⟨c, m, b, hc, rfl⟩

theorem trans {s t u : State} (h : s.Completes t) (h' : t.Completes u) : s.Completes u := by
  obtain ⟨c, m, b, hc, rfl⟩ := h
  obtain ⟨c', m', b', hc', rfl⟩ := h'
  have hkept : (s.put c).here.fault = s.here.fault := put_keeps Context.fault hc
  exact ⟨c', m', b', hc'.trans hkept, by simp [State.put]⟩

theorem setRes (s : State) (v : Word) : s.Completes (s.setRes v) := put rfl

theorem setGuard (s : State) (b : Bool) : s.Completes (s.setGuard b) := put rfl

theorem putLane (s : State) (vd w : Nat) (r : Nat → Byte) : s.Completes (s.putLane vd w r) := put rfl

theorem generate (s : State) (k : Nat) : s.Completes (s.generate k) := (refl s).withMem _

theorem reconstruct (s : State) (k : RecCase) (np : Nat) : s.Completes (s.reconstruct k np) := by
  refine withMem (put ?_) _
  rfl

theorem guarded {f : State → State} (hf : ∀ t : State, t.Completes (f t)) (s : State) (bk : Nat) :
    s.Completes (s.guarded bk f) := by
  unfold State.guarded
  split
  · exact hf s
  · exact ((setGuard s true).trans (hf _)).trans (setGuard _ false)

theorem others {s t : State} (h : s.Completes t) {y : Nat} (hy : y ≠ s.cur) : t.ctxs[y]? = s.ctxs[y]? := by
  obtain ⟨c, m, b, -, rfl⟩ := h
  exact getElem?_put_ne s c hy

theorem faults {s t : State} (h : s.Completes t) : t.ctxs.map Context.fault = s.ctxs.map Context.fault := by
  obtain ⟨c, m, b, hc, rfl⟩ := h
  exact put_keeps_each Context.fault hc

end State.Completes

theorem generateEffect_completes {s t : State} {k : Nat} (h : generateEffect s k = .next t) : s.Completes t := by
  rw [onBuffers_next h]
  exact .guarded (fun u => .generate u k) s _

theorem recoverEffect_completes {s t : State} {k : RecCase} {np : Nat} (h : recoverEffect s k np = .next t) :
    s.Completes t := by
  rw [onBuffers_next h]
  exact .guarded (fun u => .reconstruct u k np) s _

theorem effectOf_completes {i : Instr} {s t : State} (h : effectOf i s = .next t) : s.Completes t := by
  cases i
  case gen | genP | genPQ | genPQR => exact generateEffect_completes h
  case recList | recP | recQ | recR | recPQ | recPR | recQR | recPQR => exact recoverEffect_completes h
  case nop =>
    cases h
    exact .refl s
  case mapOpen | colSet | colGet | mapCommit | mapClose =>
    cases h
    exact .put rfl
  case bkGet | bkEnum | gfMul | gfExp2 | gfFixexp | gfPow2 | gfLog2 =>
    cases h
    exact .setRes s _
  case bkAuto =>
    cases h
    exact .withBsel (.setRes s _) _
  case bkSet =>
    cases h
    dsimp only
    split
    · exact .setRes s _
    · split
      · exact .withBsel (.setRes s _) _
      · exact .setRes s _
  case laneStore =>
    cases h
    exact .guarded (fun u => .withMem (.refl u) _) s _
  case laneWidth =>
    cases h
    exact .guarded (fun u => .setRes u _) s _
  case laneLoad | laneXor | laneMul2 | laneMul4 | laneMulc =>
    cases h
    exact .guarded (fun u => .putLane u _ _ _) s _

/-! ### What a write to the addressed context can leave -/

/-- A write is ignored; or the context was running and takes a fault, or completes the write. -/
def State.Answers (s t : State) : Prop :=
  t = s ∨ s.here.fault = false ∧ ((∃ e v, t = s.takeFault e v) ∨ s.Completes t)

theorem issue_answers {s t : State} {checks : List Check} {effect : Result} (h : s.issue checks effect = .next t)
    (heff : effect = .next t → s.Completes t) : s.Answers t := by
  obtain ⟨-, hr⟩ | ⟨hf, k, -, -, hr⟩ | ⟨hf, -, hr⟩ := issue_cases h
  · cases hr
    exact .inl rfl
  · cases hr
    exact .inr ⟨hf, .inl ⟨_, _, rfl⟩⟩
  · exact .inr ⟨hf, .inr (heff hr.symm)⟩

theorem exec_answers {i : Instr} {s t : State} (h : exec i s = .next t) : s.Answers t :=
  issue_answers (exec_eq_issue i s ▸ h) effectOf_completes

theorem commandWrite_answers {s t : State} {w : Word} (h : s.commandWrite w = .next t) : s.Answers t := by
  unfold State.commandWrite at h
  split at h
  · exact exec_answers h
  · refine issue_answers h fun heff => ?_
    cases heff
    exact .refl s

theorem setOperand_fault (c : Context) (num : Nat) (v : Word) : (c.setOperand num v).fault = c.fault := by
  unfold Context.setOperand
  split <;> rfl

theorem operandWrite_answers (s : State) (num : Nat) (v : Word) : s.Answers (s.operandWrite num v) := by
  cases hf : s.here.fault with
  | true => exact .inl (operandWrite_faulted num v hf)
  | false =>
    rw [operandWrite_running num v hf]
    exact .inr ⟨hf, .inr (.put (setOperand_fault _ num v))⟩

namespace State.Answers

/-- A write touches no context but the addressed one, a fault entry included. -/
theorem others {s t : State} (h : s.Answers t) {y : Nat} (hy : y ≠ s.cur) : t.ctxs[y]? = s.ctxs[y]? := by
  obtain rfl | ⟨-, ⟨e, v, rfl⟩ | hdone⟩ := h
  · rfl
  · exact getElem?_put_ne s _ hy
  · exact hdone.others hy

theorem faulted_stays {s t : State} (h : s.Answers t) {x : Nat} (hx : x < s.ctxs.length) (hf : s.ctxs[x].fault = true) :
    t.ctxs[x]? = s.ctxs[x]? := by
  by_cases hcur : x = s.cur
  · subst hcur
    obtain rfl | ⟨hrun, -⟩ := h
    · rfl
    · rw [here_eq s hx, hf] at hrun
      cases hrun
  · exact h.others hcur

/-- Only a fault entry sets `FAULT`, and it writes neither memory nor a map (60_exceptions R320, R323). -/
theorem keeps_memory_and_maps {s t : State} (h : s.Answers t) (hne : t.ctxs.map Context.fault ≠ s.ctxs.map Context.fault) :
    t.mem = s.mem ∧ t.ctxs.map Context.map = s.ctxs.map Context.map := by
  obtain rfl | ⟨-, ⟨e, v, rfl⟩ | hdone⟩ := h
  · exact absurd rfl hne
  · exact ⟨rfl, put_keeps_each Context.map rfl⟩
  · exact absurd hdone.faults hne

end State.Answers

/-! ### What an operation of the host can leave -/

/-- The reset apart, an operation of the host keeps all contexts, or it is a write to one of them. -/
theorem perform_cases {s t : State} {op : HostOp} (h : s.perform op = .next t) :
    (∃ feat, op = .reset feat ∧ t = s.blockReset feat) ∨ t.ctxs = s.ctxs ∨
      ∃ x, ({ s with cur := x } : State).Answers t := by
  cases op with
  | reset feat =>
    cases h
    exact .inl ⟨feat, rfl, rfl⟩
  | regWrite x num v =>
    refine .inr (.inr ⟨x, ?_⟩)
    dsimp only [State.perform, State.regWrite] at h
    split at h
    · split at h
      · exact commandWrite_answers h
      · cases h
        exact operandWrite_answers _ num v
    · cases h
  | regRead | memWrite | memRead =>
    dsimp only [State.perform] at h
    split at h <;> cases h
    exact .inr (.inl rfl)

/-! ### The statements -/

/-- Settles O6: a write to `CMD` is ignored when the command is issued, one to another register at the port; a read does not ask
for the fault. -/
theorem faultedContextIgnoresWrites : Obligations.FaultedContextIgnoresWrites :=
  fun _ _ _ _ h hx hn hf => ⟨fun _ => step_regWrite_faulted h hx hn hf, step_regRead_inside h hx hn⟩

/-- Settles O15: an operation is the reset, keeps all contexts or is a write to one of them, which a faulted context ignores and
which sets `FAULT` only by a fault entry. -/
theorem faultStaysUntilReset : Obligations.FaultStaysUntilReset := by
  intro s t op rest hp hstep
  rw [step_of_pending hp] at hstep
  refine ⟨fun hop x h hf => ?stays, ?reset, fun x hrun hfault => ?entry⟩
  case stays =>
    rw [← List.getElem?_eq_getElem h]
    obtain ⟨feat, rfl, -⟩ | hkept | ⟨y, hwrite⟩ := perform_cases hstep
    · exact absurd rfl (hop feat)
    · rw [hkept]
    · exact hwrite.faulted_stays h hf
  case reset =>
    rintro feat rfl c hc
    cases hstep
    obtain ⟨-, -, ⟨hfault, -⟩, hcause, -⟩ := cleared_of_mem_replicate hc
    exact ⟨hfault, hcause⟩
  case entry =>
    have hne : t.ctxs.map Context.fault ≠ s.ctxs.map Context.fault := fun he => by
      rw [getElem?_map_eq he x, hrun] at hfault
      cases hfault
    obtain ⟨feat, -, rfl⟩ | hkept | ⟨y, hwrite⟩ := perform_cases hstep
    · obtain ⟨c, hc, hbad⟩ := Option.map_eq_some_iff.1 hfault
      obtain ⟨-, -, ⟨hclear, -⟩, -⟩ := cleared_of_mem_replicate (List.mem_of_getElem? hc)
      simp [hclear] at hbad
    · exact absurd (congrArg (List.map Context.fault) hkept) hne
    · obtain ⟨hmem, hmaps⟩ := hwrite.keeps_memory_and_maps hne
      exact ⟨hmem, getElem?_map_eq hmaps x⟩

end Sys2Proof.Machine
end

section
/-! SUPPORT. Independence of the contexts (60_exceptions R336): what a command does depends on the parameters, `AVAIL`, memory and
the addressed context, and for `MAP_OPEN` and `BK_GET` on `BSEL`. -/

namespace Sys2Proof.Machine

/-- The states agree on all that a command of the addressed context may read, `BSEL` apart. -/
structure State.Alike (s s' : State) : Prop where
  present  : s.cur < s.ctxs.length
  present' : s'.cur < s'.ctxs.length
  cfg      : s.cfg = s'.cfg
  avail    : s.avail = s'.avail
  mem      : s.mem = s'.mem
  here     : s.here = s'.here

/-! ### The updates of the state keep the agreement -/

namespace State.Alike

variable {s s' : State}

theorem put (h : s.Alike s') {c c' : Context} (hc : c = c') : (s.put c).Alike (s'.put c') where
  present := by simpa using h.present
  present' := by simpa using h.present'
  cfg := h.cfg
  avail := h.avail
  mem := h.mem
  here := by rw [here_put _ _ h.present, here_put _ _ h.present', hc]

theorem withMem (h : s.Alike s') {m m' : Memory} (hm : m = m') : ({ s with mem := m } : State).Alike { s' with mem := m' } :=
  { h with mem := hm }

theorem withBsel (h : s.Alike s') (b b' : BitVec 8) : ({ s with bsel := b } : State).Alike { s' with bsel := b' } :=
  { h with }

theorem setRes (h : s.Alike s') {v v' : Word} (hv : v = v') : (s.setRes v).Alike (s'.setRes v') :=
  h.put (by rw [h.here, hv])

theorem setGuard (h : s.Alike s') (b : Bool) : (s.setGuard b).Alike (s'.setGuard b) := h.put (by rw [h.here])

theorem takeFault (h : s.Alike s') (e : Cause) (v : Word) : (s.takeFault e v).Alike (s'.takeFault e v) :=
  h.put (by rw [h.here])

theorem guarded (h : s.Alike s') {f : State → State} (hf : ∀ {t t' : State}, t.Alike t' → (f t).Alike (f t')) (bk : Nat) :
    (s.guarded bk f).Alike (s'.guarded bk f) := by
  unfold State.guarded
  split
  · exact hf h
  · exact (hf (h.setGuard true)).setGuard false

theorem vbyte (h : s.Alike s') : s.vbyte = s'.vbyte := by
  funext i k
  rw [State.vbyte, State.vbyte, h.here]

theorem putLane (h : s.Alike s') (vd w : Nat) {r r' : Nat → Byte} (hr : r = r') :
    (s.putLane vd w r).Alike (s'.putLane vd w r') :=
  h.put (by rw [h.here, hr])

theorem generate (h : s.Alike s') (k : Nat) : (s.generate k).Alike (s'.generate k) := h.withMem (by rw [h.here, h.mem])

theorem reconstruct (h : s.Alike s') (k : RecCase) (np : Nat) : (s.reconstruct k np).Alike (s'.reconstruct k np) :=
  (h.put (by rw [h.here])).withMem (by rw [h.here, h.mem])

theorem checksOf (h : s.Alike s') (i : Instr) : checksOf i s = checksOf i s' := by
  cases i <;>
    simp only [Machine.checksOf, State.laneAddressChecks, State.explicitChecks, State.recListChecks, h.here, h.cfg, h.avail]

end State.Alike

/-! ### The effects keep the agreement -/

section
variable {s s' t t' : State}

theorem generateEffect_alike (h : s.Alike s') {k : Nat} (ht : generateEffect s k = .next t)
    (ht' : generateEffect s' k = .next t') : t.Alike t' := by
  rw [onBuffers_next ht, onBuffers_next ht', h.here]
  exact h.guarded (fun hu => hu.generate k) _

theorem recoverEffect_alike (h : s.Alike s') {k : RecCase} {np : Nat} (ht : recoverEffect s k np = .next t)
    (ht' : recoverEffect s' k np = .next t') : t.Alike t' := by
  rw [onBuffers_next ht, onBuffers_next ht', h.here]
  exact h.guarded (fun hu => hu.reconstruct k np) _

theorem effectOf_bkSet_alike (h : s.Alike s') (ht : effectOf .bkSet s = .next t) (ht' : effectOf .bkSet s' = .next t') :
    t.Alike t' := by
  cases ht
  cases ht'
  rw [h.cfg, h.here, h.avail]
  split
  · exact h.setRes rfl
  · split
    · exact (h.setRes rfl).withBsel _ _
    · exact h.setRes rfl

/-- Only `MAP_OPEN` and `BK_GET` read `BSEL`. -/
theorem effectOf_alike {i : Instr} (h : s.Alike s') (hb : s.bsel = s'.bsel ∨ (∀ c p, i ≠ .mapOpen c p) ∧ i ≠ .bkGet)
    (ht : effectOf i s = .next t) (ht' : effectOf i s' = .next t') : t.Alike t' := by
  cases i
  case bkSet => exact effectOf_bkSet_alike h ht ht'
  case gen =>
    rw [effectOf, ← h.here] at ht'
    exact generateEffect_alike h ht ht'
  case genP | genPQ | genPQR => exact generateEffect_alike h ht ht'
  case recList =>
    rw [effectOf, ← h.here] at ht'
    exact recoverEffect_alike h ht ht'
  case recP | recQ | recR | recPQ | recPR | recQR | recPQR => exact recoverEffect_alike h ht ht'
  all_goals
    cases ht
    cases ht'
  case nop => exact h
  case mapOpen c p =>
    have hbsel : s.bsel = s'.bsel := hb.resolve_right fun hno => hno.1 c p rfl
    exact h.put (by rw [h.here, hbsel])
  case bkGet =>
    have hbsel : s.bsel = s'.bsel := hb.resolve_right fun hno => hno.2 rfl
    exact h.setRes (by rw [hbsel])
  case colSet | colGet | mapCommit | mapClose => exact h.put (by rw [h.here])
  case bkAuto => exact (h.setRes (by rw [h.avail])).withBsel _ _
  case bkEnum => exact h.setRes (by rw [h.avail])
  case gfMul | gfExp2 | gfFixexp | gfPow2 | gfLog2 => exact h.setRes rfl
  case laneWidth bk => exact h.guarded (fun hu => hu.setRes rfl) bk
  case laneLoad bk vd => exact h.guarded (fun hu => hu.putLane vd _ (by rw [hu.mem, hu.here])) bk
  case laneStore bk vs => exact h.guarded (fun hu => hu.withMem (by rw [hu.mem, hu.here, hu.vbyte])) bk
  case laneXor bk vd _ _ | laneMul2 bk vd _ | laneMul4 bk vd _ | laneMulc bk vd _ _ =>
    exact h.guarded (fun hu => hu.putLane vd _ (by rw [hu.vbyte])) bk

theorem issue_alike (h : s.Alike s') {checks : List Check} {effect effect' : Result}
    (ht : s.issue checks effect = .next t) (ht' : s'.issue checks effect' = .next t')
    (heff : effect = .next t → effect' = .next t' → t.Alike t') : t.Alike t' := by
  unfold State.issue at ht ht'
  rw [← h.here] at ht'
  split at ht
  case isTrue hf =>
    rw [if_pos hf] at ht'
    cases ht
    cases ht'
    exact h
  case isFalse hf =>
    rw [if_neg hf] at ht'
    split at ht
    case h_1 k hk =>
      simp only [hk] at ht'
      cases ht
      cases ht'
      exact h.takeFault _ _
    case h_2 hk =>
      simp only [hk] at ht'
      exact heff ht ht'

theorem exec_alike {i : Instr} (h : s.Alike s') (hb : s.bsel = s'.bsel ∨ (∀ c p, i ≠ .mapOpen c p) ∧ i ≠ .bkGet)
    (ht : exec i s = .next t) (ht' : exec i s' = .next t') : t.Alike t' := by
  rw [exec_eq_issue] at ht ht'
  rw [← h.checksOf i] at ht'
  exact issue_alike h ht ht' (effectOf_alike h hb)

end

/-! ### The statement -/

/-- Settles O16: a command answers in its own context, and its checks and its effect agree on states that agree on what it
reads. -/
theorem contextsIndependent : Obligations.ContextsIndependent := by
  refine ⟨fun i s t h y hy => (exec_answers h).others hy, fun i s s' t t' hc hc' hcfg havail hmem hhere hb ht ht' => ?_⟩
  have hafter := exec_alike ⟨hc, hc', hcfg, havail, hmem, hhere⟩ hb ht ht'
  exact ⟨hafter.here, hafter.mem⟩

end Sys2Proof.Machine
end

section
/-! SUPPORT. The round trip through the encoder (30_encoding R91 to R93): every format reads back, from the word of a well-formed
command, the operands that were put into its fields. -/

namespace Sys2Proof

@[simp] theorem fitsMod_zero : fitsMod 0 = true := by decide
@[simp] theorem fitsField_zero : fitsField 0 = true := by decide

/-- The fields of the word of a command whose operands fit them. -/
theorem fields_wordOf_fits {op m f2 f1 f0 : Nat} (hop : op < 2 ^ 8) (hm : fitsMod m = true)
    (h2 : fitsField f2 = true) (h1 : fitsField f1 = true) (h0 : fitsField f0 = true) :
    opField (wordOf op m f2 f1 f0) = op ∧ mField (wordOf op m f2 f1 f0) = m ∧ f2Field (wordOf op m f2 f1 f0) = f2 ∧
      f1Field (wordOf op m f2 f1 f0) = f1 ∧ f0Field (wordOf op m f2 f1 f0) = f0 :=
  fields_wordOf hop ((fitsMod_iff m).1 hm) ((fitsField_iff f2).1 h2) ((fitsField_iff f1).1 h1) ((fitsField_iff f0).1 h0)

/-! ### The statements -/

/-- Settles O1: the opcode selects the arm of the command, whose format uses exactly the fields the operands were put into. -/
theorem decodeOfEncode : Obligations.DecodeOfEncode := by
  intro i hi
  cases i <;> simp only [Instr.wf, Bool.and_eq_true] at hi
  case nop | mapCommit | mapClose | bkSet | bkAuto | bkGet | gen | genP | genPQ | genPQR => decide
  case colSet | colGet | bkEnum | gfPow2 | gfLog2 | recP | recQ | recR =>
    simp [encode, decode, fmtF1, fields_wordOf_fits, hi]
  case mapOpen | gfMul | gfExp2 | recPQ | recPR | recQR =>
    simp [encode, decode, fmtF2, fields_wordOf_fits, hi]
  case recPQR => simp [encode, decode, fmtF3, fields_wordOf_fits, hi]
  case laneWidth => simp [encode, decode, fmtB0, fields_wordOf_fits, hi]
  case gfFixexp | laneLoad | laneStore => simp [encode, decode, fmtB1, fields_wordOf_fits, hi]
  case laneMul2 | laneMul4 => simp [encode, decode, fmtB2, fields_wordOf_fits, hi]
  case laneXor | laneMulc => simp [encode, decode, fmtB3, fields_wordOf_fits, hi]
  case recList => simp [encode, decode, fmtT, fields_wordOf_fits, hi]

/-- Settles O3: the words are literals, and the decoder runs on them. -/
theorem wordsOfTheManualDecode : Obligations.WordsOfTheManualDecode := by
  unfold Obligations.WordsOfTheManualDecode
  decide

end Sys2Proof
end

section
/-! SUPPORT. The field GF(2^8) (40_field): powers of 2 by integer exponents, the laws of the product, bytes as a field in
Mathlib's sense, the product by polynomials, both multiply forms; then the statements. -/

namespace Sys2Proof.Machine

/-! ### Powers of 2 (40_field R122 to R124, R133) -/

theorem pow2_congr {j k : Nat} (h : j % 255 = k % 255) : pow2 j = pow2 k := by rw [← pow2_mod j, h, pow2_mod]

theorem pow2_eq_iff (j k : Nat) : pow2 j = pow2 k ↔ j % 255 = k % 255 :=
  ⟨fun h => by rw [← lg_pow2 j, h, lg_pow2], pow2_congr⟩

/-- The log of a non-zero byte is an exponent below the period. -/
theorem lg_lt {a : Byte} (h : a ≠ 0) : lg a < 255 := by
  rw [← pow2_lg a h, lg_pow2]
  exact Nat.mod_lt _ (by decide)

/-- `2^e` in the field, for an integer exponent (00_scope R11). -/
def powZ (e : Int) : Byte := pow2 (m255 e)

theorem m255_natCast (n : Nat) : m255 (n : Int) = n % 255 := by
  unfold m255
  omega

theorem m255_lt (e : Int) : m255 e < 255 := by
  unfold m255
  omega

theorem powZ_natCast (n : Nat) : powZ n = pow2 n := by rw [powZ, m255_natCast, pow2_mod]

theorem powZ_eq_iff (j k : Int) : powZ j = powZ k ↔ j % 255 = k % 255 := by
  rw [powZ, powZ, pow2_eq_iff]
  unfold m255
  omega

theorem powZ_ne_zero (e : Int) : powZ e ≠ 0 := pow2_ne_zero _

theorem powZ_zero : powZ 0 = 1 := by decide

theorem powZ_lg {a : Byte} (h : a ≠ 0) : powZ (lg a) = a := by rw [powZ_natCast, pow2_lg a h]

theorem lg_powZ (e : Int) : (lg (powZ e) : Int) = e % 255 := by
  rw [powZ, lg_pow2, Nat.mod_eq_of_lt (m255_lt e), m255]
  omega

/-! ### The laws of the product (40_field R130, R131, R132) -/

theorem gfmul_comm (a b : Byte) : gfmul a b = gfmul b a := by
  simp only [gfmul, Nat.add_comm (lg a), or_comm (a := a = 0)]

theorem zero_gfmul (a : Byte) : gfmul 0 a = 0 := gfmul_zero_left a

theorem gfmul_zero (a : Byte) : gfmul a 0 = 0 := by rw [gfmul_comm, zero_gfmul]

theorem gfmul_eq_zero_iff (a b : Byte) : gfmul a b = 0 ↔ a = 0 ∨ b = 0 := by
  refine ⟨fun h => by_contra fun hne => ?_, fun h => if_pos h⟩
  rw [gfmul, if_neg hne] at h
  exact pow2_ne_zero _ h

/-- Exponents add under the product. -/
theorem powZ_add (j k : Int) : powZ (j + k) = gfmul (powZ j) (powZ k) := by
  rw [gfmul_of_ne_zero (powZ_ne_zero j) (powZ_ne_zero k), ← powZ_natCast, powZ_eq_iff, Nat.cast_add, lg_powZ, lg_powZ]
  omega

theorem gfmul_assoc (a b c : Byte) : gfmul (gfmul a b) c = gfmul a (gfmul b c) := by
  by_cases ha : a = 0
  · rw [ha, zero_gfmul, zero_gfmul, zero_gfmul]
  by_cases hb : b = 0
  · rw [hb, gfmul_zero, zero_gfmul, gfmul_zero]
  by_cases hc : c = 0
  · rw [hc, gfmul_zero, gfmul_zero, gfmul_zero]
  rw [← powZ_lg ha, ← powZ_lg hb, ← powZ_lg hc, ← powZ_add, ← powZ_add, ← powZ_add, ← powZ_add, add_assoc]

/-- Multiplying by a fixed byte is some number of doublings or gives 0, and both are additive. -/
theorem gfmul_xor_left (a b c : Byte) : gfmul (a ^^^ b) c = gfmul a c ^^^ gfmul b c := by
  by_cases hc : c = 0
  · rw [hc, gfmul_zero, gfmul_zero, gfmul_zero]
    rfl
  · rw [← pow2_lg c hc, gfmul_pow2, gfmul_pow2, gfmul_pow2, dbl_iterate_xor]

theorem gfmul_xor_right (a b c : Byte) : gfmul a (b ^^^ c) = gfmul a b ^^^ gfmul a c := by
  rw [gfmul_comm, gfmul_xor_left, gfmul_comm b, gfmul_comm c]

theorem gfmul_one (a : Byte) : gfmul a 1 = a := gfmul_pow2 a 0

theorem gfmul_two (a : Byte) : gfmul a 2 = dbl a := gfmul_pow2 a 1

theorem inv_eq_powZ (a : Byte) : inv a = powZ (-lg a) := by
  have hlg : lg a ≤ 255 := Nat.le_of_lt_succ (log2 a).isLt
  rw [inv, ← powZ_natCast, powZ_eq_iff]
  omega

theorem gfmul_inv {a : Byte} (h : a ≠ 0) : gfmul a (inv a) = 1 := by
  rw [inv_eq_powZ]
  conv_lhs => rw [← powZ_lg h, lg_powZ]
  rw [← powZ_add, ← powZ_zero, powZ_eq_iff]
  omega

theorem gfdiv_gfmul (a : Byte) {b : Byte} (h : b ≠ 0) : gfmul (gfdiv a b) b = a := by
  rw [gfdiv, gfmul_assoc, gfmul_comm (inv b), gfmul_inv h, gfmul_one]

/-! ### The product by polynomials (40_field R120, R125) -/

theorem gfmul_dbl (a b : Byte) : gfmul a (dbl b) = dbl (gfmul a b) := by
  rw [← gfmul_two b, ← gfmul_assoc, gfmul_two]

/-- Taking one more bit of `b` from the top doubles what has been taken and adds the bit; no doubling overflows. -/
theorem shiftRight_step : ∀ b : Byte, ∀ k < 8,
    b >>> (7 - k) = dbl (b >>> (8 - k)) ^^^ (if b.getLsbD (7 - k) then 1 else 0) := by decide +kernel

/-- After `n` steps the accumulator of the polynomial product is `a` times the top `n` bits of `b`. -/
theorem polymul_steps (a b : Byte) {n : Nat} (hn : n ≤ 8) :
    (List.range n).foldl (fun acc k => dbl acc ^^^ (if b.getLsbD (7 - k) then a else 0)) 0 = gfmul a (b >>> (8 - n)) := by
  induction n with
  | zero =>
    have hnone : b >>> 8 = 0 := BitVec.ushiftRight_eq_zero (by decide)
    rw [Nat.sub_zero, hnone, gfmul_zero]
    rfl
  | succ n ih =>
    have hbit : gfmul a (if b.getLsbD (7 - n) then 1 else 0) = if b.getLsbD (7 - n) then a else 0 := by
      split
      · exact gfmul_one a
      · exact gfmul_zero a
    rw [List.range_succ, List.foldl_append, ih (Nat.le_of_succ_le hn), List.foldl_cons, List.foldl_nil, ← hbit, ← gfmul_dbl,
      ← gfmul_xor_right, ← shiftRight_step b n hn, Nat.add_comm n, Nat.sub_add_eq]

theorem gfmul_eq_polymul (a b : Byte) : gfmul a b = polymul a b := (polymul_steps a b le_rfl).symm

/-! ### Both multiply forms (40_field R127 to R129) -/

/-- Folding an exponent keeps it modulo the period and inside a byte. -/
theorem fold_mod {e : Nat} : fold e % 255 = e % 255 := by
  unfold fold
  split <;> omega

theorem mlog_eq (form : Form) (v : Byte) {e : Nat} (he : e ≤ 510) : mlog form v e = gfmul v (pow2 e) := by
  cases form with
  | antilog => rfl
  | log =>
    have hfold : (BitVec.ofNat 8 (fold e)).toNat = fold e := by
      rw [BitVec.toNat_ofNat, Nat.mod_eq_of_lt (Nat.lt_succ_of_le (fold_le he))]
    show exp2 v (BitVec.ofNat 8 (fold e)).toNat = _
    by_cases hv : v = 0
    · rw [hv, exp2_zero, gfmul_zero_left]
      rfl
    · rw [hfold, exp2_of_ne_zero hv, gfmul_of_ne_zero hv (pow2_ne_zero e), lg_pow2]
      refine pow2_congr ?_
      rw [Nat.add_comm, Nat.add_mod, fold_mod, ← Nat.add_mod, Nat.add_mod_mod]

/-- With a normalised log every form computes the common value of R129. -/
theorem mlog_m255 (form : Form) (v : Byte) (e : Int) : mlog form v (m255 e) = timesPow v e :=
  mlog_eq form v ((m255_lt e).le.trans (by decide))

theorem timesPow_eq (v : Byte) (e : Int) : timesPow v e = gfmul v (powZ e) := rfl

theorem timesPow_add (v : Byte) (j k : Int) : timesPow v (j + k) = timesPow (timesPow v j) k := by
  rw [timesPow_eq, timesPow_eq, timesPow_eq, powZ_add, gfmul_assoc]

/-! ### The statements -/

/-- Settles O37: the rows of the two memories against doubling and against each other, continued with period 255. -/
theorem tablesHoldPowersOfTwo : Obligations.TablesHoldPowersOfTwo := by
  refine ⟨by decide, fun k _ => pow2_succ k, (pow2_succ 254).symm, fun j k hj hk h => ?distinct,
    fun a => ⟨fun ha => ⟨lg a, lg_lt ha, pow2_lg a ha⟩, ?nonzero⟩, fun k hk _ => pow2_congr (by omega),
    fun a ha => ⟨lg_lt ha, pow2_lg a ha⟩, by decide⟩
  case distinct =>
    rw [pow2_eq_iff] at h
    omega
  case nonzero =>
    rintro ⟨k, -, rfl⟩
    exact pow2_ne_zero k

/-- Settles O38: each step of the polynomial product multiplies by one more bit of `b`. -/
theorem productIsPolynomial : Obligations.ProductIsPolynomial := by
  refine fun a b => ⟨gfmul_eq_polymul a b, (gfmul_eq_zero_iff a b).2, fun ha hb => ⟨gfmul_of_ne_zero ha hb, ?bound⟩⟩
  case bound => exact Nat.add_le_add (Nat.le_of_lt_succ (lg_lt ha)) (Nat.le_of_lt_succ (lg_lt hb))

/-- Settles O39: the product is addition of exponents, and it is additive because doubling is. -/
theorem fieldRingLaws : Obligations.FieldRingLaws := by
  refine ⟨fun a b c => ⟨gfmul_comm a b, gfmul_assoc a b c, gfmul_xor_right a b c, gfmul_eq_zero_iff a b⟩,
    fun a => ⟨gfmul_one a, gfmul_two a, BitVec.xor_self, gfmul_inv⟩, fun a b => gfdiv_gfmul a, exp2_zero, fun k hk => ?log⟩
  case log => exact (lg_pow2 k).trans (Nat.mod_eq_of_lt (Nat.lt_succ_of_le hk))

/-- Settles O40: the log of a power of 2 is its exponent modulo 255, and 2 has an inverse modulo 255. -/
theorem distinctPowers : Obligations.DistinctPowers := by
  refine ⟨powZ_eq_iff, fun j k hjk hk => ⟨fun h => ?twos, fun h => ?fours⟩⟩
  case twos =>
    rw [pow2_eq_iff] at h
    omega
  case fours =>
    have hmod := (powZ_eq_iff _ _).1 h
    omega

/-- Settles O41: either form is the product with a power of 2, and the laws are those of the product. -/
theorem multiplyFormsAgree : Obligations.MultiplyFormsAgree := by
  refine ⟨fun b e v _ he => mlog_eq _ v he, fun form u v e g he hg => ⟨?double, ?quadruple, ?identity, BitVec.xor_self,
    ?additive, ?exponents⟩⟩
  case double => rw [mlog_eq form v (by decide), gfmul_pow2, Function.iterate_one]
  case quadruple =>
    rw [mlog_eq form v (by decide), gfmul_pow2]
    rfl
  case identity =>
    rw [mlog_eq form v (by decide), gfmul_pow2]
    rfl
  case additive => rw [mlog_eq form _ he, mlog_eq form u he, mlog_eq form v he, gfmul_xor_left]
  case exponents =>
    rw [mlog_eq form _ hg, mlog_eq form v he, mlog_m255, timesPow_add, ← powZ_natCast, ← powZ_natCast]
    rfl

end Sys2Proof.Machine
end

section
/-! SUPPORT. Words as eight bytes (20_memory R65): bytes of words made by the word operations, a register and its slot; the
word-level doubling (41_lane R158); then the statement. -/

namespace Sys2Proof.Machine

/-! ### The bytes of a word -/

theorem getLsbD_regByte (v : Word) (k : Nat) {i : Nat} (hi : i < 8) : (regByte v k).getLsbD i = v.getLsbD (8 * k + i) := by
  simp [regByte, hi]

/-- A word is given by its eight bytes. -/
theorem eq_of_regByte {v w : Word} (h : ∀ k < 8, regByte v k = regByte w k) : v = w := by
  refine BitVec.eq_of_getLsbD_eq fun i hi => ?_
  have hplace : 8 * (i / 8) + i % 8 = i := Nat.div_add_mod i 8
  have hbit : i % 8 < 8 := Nat.mod_lt i (by decide)
  rw [← hplace, ← getLsbD_regByte v _ hbit, ← getLsbD_regByte w _ hbit, h (i / 8) (by omega)]

theorem regByte_and (v w : Word) (k : Nat) : regByte (v &&& w) k = regByte v k &&& regByte w k := BitVec.extractLsb'_and

theorem regByte_xor (v w : Word) (k : Nat) : regByte (v ^^^ w) k = regByte v k ^^^ regByte w k := BitVec.extractLsb'_xor

/-- The word whose byte `k` is `f k`. -/
def wordOfBytes (f : Nat → Byte) : Word := regOfBytes ((List.range 8).map f)

theorem regByte_wordOfBytes (f : Nat → Byte) {k : Nat} (hk : k < 8) : regByte (wordOfBytes f) k = f k := by
  rw [wordOfBytes, regByte_regOfBytes (by simp) hk]
  simp [hk]

/-! ### The word-level doubling (41_lane R158) -/

/-- The eight top bits that `t` says, each in its byte. -/
def topBits (t : Byte) : Word := wordOfBytes fun k => if t.getLsbD k then 0x80 else 0

/-- Shifting the top bits up and subtracting them shifted down fills their bytes: no borrow leaves a byte. -/
theorem topBits_fill : ∀ t : Byte,
    (topBits t <<< 1) - (topBits t >>> 7) = wordOfBytes fun k => if t.getLsbD k then 0xff#8 else 0 := by
  decide +kernel

/-- The top bits of the bytes of a word, collected in a byte. -/
def topsOf (x : Word) : Byte := BitVec.ofFnLE fun k : Fin 8 => (regByte x k).getLsbD 7

theorem getLsbD_topsOf (x : Word) {k : Nat} (hk : k < 8) : (topsOf x).getLsbD k = (regByte x k).getLsbD 7 := by
  rw [BitVec.getLsbD_eq_getElem hk, topsOf, BitVec.getElem_ofFnLE]

theorem and_eq_topBits (x : Word) : x &&& 0x8080808080808080#64 = topBits (topsOf x) := by
  have hmask : ∀ k < 8, regByte 0x8080808080808080#64 k = 0x80 := by decide
  have htop : ∀ b : Byte, b &&& 0x80 = if b.getLsbD 7 then 0x80 else 0 := by decide
  refine eq_of_regByte fun k hk => ?_
  rw [regByte_and, hmask k hk, htop, topBits, regByte_wordOfBytes _ hk, getLsbD_topsOf x hk]

/-- A shift of the whole word is a shift of each byte once the bits that crossed over are masked out. -/
theorem regByte_shiftLeft_one (x : Word) {k : Nat} (hk : k < 8) :
    regByte ((x <<< 1) &&& 0xfefefefefefefefe#64) k = regByte x k <<< 1 := by
  have hmask : ∀ k < 8, regByte 0xfefefefefefefefe#64 k = 0xfe#8 := by decide
  rw [regByte_and, hmask k hk]
  refine BitVec.eq_of_getLsbD_eq fun i hi => ?_
  cases i with
  | zero => simp
  | succ i =>
    have hone : ∀ i < 7, (0xfe#8).getLsbD (i + 1) = true := by decide
    have hplace : 8 * k + i + 1 < 64 := by omega
    rw [BitVec.getLsbD_and, getLsbD_regByte _ _ hi, hone i (by omega), BitVec.getLsbD_shiftLeft, BitVec.getLsbD_shiftLeft,
      Nat.add_sub_cancel, getLsbD_regByte x k (Nat.lt_of_succ_lt hi), ← Nat.add_assoc, Nat.add_sub_cancel]
    simp [hi, hplace]

theorem regByte_dblWord (x : Word) {k : Nat} (hk : k < 8) : regByte (dblWord x) k = dbl (regByte x k) := by
  have hmask : ∀ k < 8, regByte 0x1d1d1d1d1d1d1d1d#64 k = 0x1d#8 := by decide
  have hreduce : ∀ b : Bool, (if b then 0xff#8 else 0) &&& 0x1d#8 = if b then 0x1d#8 else 0#8 := by decide
  rw [dblWord, and_eq_topBits]
  rw [topBits_fill, regByte_xor, regByte_shiftLeft_one x hk, regByte_and, hmask k hk, regByte_wordOfBytes _ hk, hreduce,
    getLsbD_topsOf x hk]
  rfl

/-! ### The statement -/

/-- Settles O42: the top bits of the bytes fill the bytes to be reduced, and every other operation of the word form is bytewise. -/
theorem wordDoublingIsBytewise : Obligations.WordDoublingIsBytewise := fun x _ hk => regByte_dblWord x hk

end Sys2Proof.Machine
end

section
/-! SUPPORT. The lane arithmetic (41_lane R151, R155 to R159): the effect of each command as one new lane, the checks in their
order, and what the width of the backend leaves out; then the statements. -/

namespace Sys2Proof.Machine

/-! ### The effects, without the guard around them (41_lane R165) -/

/-- A lane command computes its result from the lane bytes: the guard around it leaves no trace. -/
theorem guarded_putLane_vbyte {s : State} (hs : s.Ready) (bk vd w : Nat) (f : (Nat → Nat → Byte) → Nat → Byte) :
    s.guarded bk (fun t => t.putLane vd w (f t.vbyte)) = s.putLane vd w (f s.vbyte) :=
  guarded_putLane bk vd w (fun t => f t.vbyte) hs.present hs.outside (by rw [vbyte_setGuard hs.present])

theorem effectOf_laneXor {s : State} (hs : s.Ready) (bk vd v1 v2 : Nat) :
    effectOf (.laneXor bk vd v1 v2) s = .next (s.putLane vd (bkd bk).width fun k => s.vbyte v1 k ^^^ s.vbyte v2 k) :=
  congrArg Host.Outcome.next (guarded_putLane_vbyte hs bk vd _ fun b k => b v1 k ^^^ b v2 k)

theorem effectOf_laneMul2 {s : State} (hs : s.Ready) (bk vd vs : Nat) :
    effectOf (.laneMul2 bk vd vs) s = .next (s.putLane vd (bkd bk).width fun k => dbl (s.vbyte vs k)) :=
  congrArg Host.Outcome.next (guarded_putLane_vbyte hs bk vd _ fun b k => dbl (b vs k))

theorem effectOf_laneMul4 {s : State} (hs : s.Ready) (bk vd vs : Nat) :
    effectOf (.laneMul4 bk vd vs) s = .next (s.putLane vd (bkd bk).width fun k => dbl (dbl (s.vbyte vs k))) :=
  congrArg Host.Outcome.next (guarded_putLane_vbyte hs bk vd _ fun b k => dbl (dbl (b vs k)))

/-- Whatever the form of the backend, the result is the product with `2^e` (40_field R129). -/
theorem effectOf_laneMulc {s : State} (hs : s.Ready) (bk vd vs : Nat) {e : Nat} (he : e ≤ 510) :
    effectOf (.laneMulc bk vd vs e) s =
      .next (s.putLane vd (bkd bk).width fun k => gfmul (s.vbyte vs k) (pow2 e)) := by
  simp only [← mlog_eq (bkd bk).form _ he]
  exact congrArg Host.Outcome.next (guarded_putLane_vbyte hs bk vd _ fun b k => mlog (bkd bk).form (b vs k) e)

/-! ### The bytes of the new lane -/

/-- What a lane command leaves: one new lane, with its result below the width and 0 above. -/
theorem putLane_result (s : State) (vd w : Nat) {r : Nat → Byte} {r' : ∀ k, k < 64 → Byte} (h : ∀ k hk, r k = r' k hk) :
    ∃ l : Lane, (.next (s.putLane vd w r) : Result) = .next (s.put { s.here with v := s.here.v.setIfInBounds vd l }) ∧
      ∀ k (hk : k < 64), l[k] = if k < w then r' k hk else 0 :=
  ⟨laneOf w r, rfl, fun k hk => by rw [getElem_laneOf, h k hk]⟩

theorem width_le (bk : Nat) (h : bk < nbk) : (bkd bk).width ≤ 64 := by
  rw [width_of_lt_nbk bk h]
  split_ifs <;> decide

/-- Below the width the written lane holds the result. -/
theorem vbyte_putLane {s : State} (hc : s.cur < s.ctxs.length) {vd w k : Nat} (hvd : vd ≤ 15) (hw : w ≤ 64) (hk : k < w)
    (r : Nat → Byte) : (s.putLane vd w r).vbyte vd k = r k := by
  rw [State.vbyte, State.putLane, here_put _ _ hc, lane_setLane_self _ _ (Nat.lt_succ_of_le hvd),
    laneByte_eq _ (hk.trans_le hw), getElem_laneOf, if_pos hk]

/-- A completed lane command left its result in the destination. -/
theorem vbyte_of_effect {i : Instr} {s t : State} {vd w k : Nat} {r : Nat → Byte} (hs : s.Ready) (ht : effectOf i s = .next t)
    (heff : effectOf i s = .next (s.putLane vd w r)) (hvd : vd ≤ 15) (hw : w ≤ 64) (hk : k < w) : t.vbyte vd k = r k := by
  cases ht.symm.trans heff
  exact vbyte_putLane hs.present hvd hw hk r

/-! ### The checks in their order (41_lane R151) -/

/-- A command that completed passed its checks and had its effect. -/
theorem exec_completed {i : Instr} {s t : State} (hs : s.Ready) (h : exec i s = .next t) (ht : t.here.fault = false) :
    (∀ k ∈ checksOf i s, k.bad = false) ∧ effectOf i s = .next t := by
  obtain ⟨hf, -⟩ | ⟨-, k, -, -, hr⟩ | ⟨-, hpass, hr⟩ := exec_cases h
  · simp [hs.running] at hf
  · cases hr
    simp [takeFault_here hs.present, -takeFault_eq] at ht
  · exact ⟨hpass, hr.symm⟩

section
variable {i : Instr} {bk f0 f1 f2 : Nat}

/-- Every lane command with a register checks the backend, then the first register number. -/
theorem lane_checks (s : State) (hi : i ∈ [Instr.laneLoad bk f0, .laneStore bk f0, .laneXor bk f0 f1 f2, .laneMul2 bk f0 f1,
      .laneMul4 bk f0 f1, .laneMulc bk f0 f1 f2]) :
    ∃ after, checksOf i s = Check.backendId s.avail bk :: Check.laneNumber f0 :: after := by
  fin_cases hi <;> exact ⟨_, rfl⟩

/-- A lane command with a source register checks its number next. -/
theorem lane_source_checks (s : State) (hi : i ∈ [Instr.laneXor bk f0 f1 f2, .laneMul2 bk f0 f1, .laneMul4 bk f0 f1,
      .laneMulc bk f0 f1 f2]) :
    ∃ after, checksOf i s = [Check.backendId s.avail bk, Check.laneNumber f0] ++ Check.laneNumber f1 :: after := by
  fin_cases hi <;> exact ⟨_, rfl⟩

/-- A lane command with an address checks its alignment and its range after its register. -/
theorem lane_address_checks (s : State) (hi : i ∈ [Instr.laneLoad bk f0, .laneStore bk f0]) :
    checksOf i s = [Check.backendId s.avail bk, Check.laneNumber f0, Check.laneAlign s.here.a0 (bkd bk).width,
      Check.laneRange s.here.a0 (bkd bk).width s.cfg.memLimit] := by
  fin_cases hi <;> rfl

end

/-! ### The statements -/

/-- Settles O46: the checks pass, and the new lane is that of the command's byte function. -/
theorem laneArithmeticEffect : Obligations.LaneArithmeticEffect := by
  intro s bk vd v1 v2 e hs hbk hvd h1 h2
  have hbyte1 (k : Nat) (hk : k < 64) := vbyte_eq s (Nat.lt_succ_of_le h1) hk
  have hbyte2 (k : Nat) (hk : k < 64) := vbyte_eq s (Nat.lt_succ_of_le h2) hk
  refine ⟨?xor, ?mul2, ?mul4, fun he => ?mulc⟩
  case xor =>
    rw [exec_passed hs.running (by simp [checksOf, hbk, hvd, h1, h2]), effectOf_laneXor hs]
    exact putLane_result s vd _ fun k hk => by rw [hbyte1 k hk, hbyte2 k hk]
  case mul2 =>
    rw [exec_passed hs.running (by simp [checksOf, hbk, hvd, h1]), effectOf_laneMul2 hs]
    exact putLane_result s vd _ fun k hk => by rw [hbyte1 k hk]
  case mul4 =>
    rw [exec_passed hs.running (by simp [checksOf, hbk, hvd, h1]), effectOf_laneMul4 hs]
    exact putLane_result s vd _ fun k hk => by rw [hbyte1 k hk]
  case mulc =>
    rw [exec_passed hs.running (by simp [checksOf, hbk, hvd, h1, he]), effectOf_laneMulc hs bk vd v1 he]
    exact putLane_result s vd _ fun k hk => by rw [hbyte1 k hk]

/-- Settles O47: each clause says that one check fails and those before it pass. -/
theorem laneChecksInOrder : Obligations.LaneChecksInOrder := by
  intro s bk f0 f1 f2 hs
  refine ⟨fun hbk i hi => ?backend, fun hbk h0 i hi => ?first, fun hbk h0 h1 i hi => ?second, fun hbk h0 h1 h2 => ?third,
    fun hbk h0 h1 h2 => ?exponent, fun hbk h0 halign i hi => ?align, fun hbk h0 halign hlimit i hi => ?range⟩
  case backend =>
    obtain ⟨after, hchecks⟩ := lane_checks s hi
    exact exec_raises_first hs hchecks (by simpa using hbk)
  case first =>
    obtain ⟨after, hchecks⟩ := lane_checks s hi
    exact exec_raises_second hs hchecks (by simpa using hbk) (by simpa using h0)
  case second =>
    obtain ⟨after, hchecks⟩ := lane_source_checks s hi
    exact exec_raises hs.running _ after _ hchecks (by simp [hbk, h0]) (by simpa using h1)
  case third =>
    exact exec_raises hs.running [_, _, _] [] (Check.laneNumber f2) rfl (by simp [hbk, h0, h1]) (by simpa using h2)
  case exponent =>
    exact exec_raises hs.running [_, _, _] [] (Check.exponent f2) rfl (by simp [hbk, h0, h1]) (by simpa using h2)
  case align =>
    exact exec_raises hs.running [_, _] [_] _ (lane_address_checks s hi) (by simp [hbk, h0]) (by simpa using halign)
  case range =>
    exact exec_raises hs.running [_, _, _] [] _ (lane_address_checks s hi) (by simp [hbk, h0, halign]) (by simpa using hlimit)

/-- Settles O48: the byte function of a completed command does not depend on the backend. -/
theorem laneBytesIgnoreWidth : Obligations.LaneBytesIgnoreWidth := by
  intro s t t' b b' vd v1 v2 e hs hb hb' hle i hi h h' ht ht' k hk
  obtain ⟨hpass, heff⟩ := exec_completed hs h ht
  obtain ⟨-, heff'⟩ := exec_completed hs h' ht'
  have hw' := width_le b' (lt_nbk_of_registered hb')
  have same {r : Nat → Byte} (hvd : vd ≤ 15) (hr : effectOf i.1 s = .next (s.putLane vd (bkd b).width r))
      (hr' : effectOf i.2 s = .next (s.putLane vd (bkd b').width r)) : t.vbyte vd k = t'.vbyte vd k := by
    rw [vbyte_of_effect hs heff hr hvd (hle.trans hw') hk, vbyte_of_effect hs heff' hr' hvd hw' (hk.trans_le hle)]
  fin_cases hi <;> simp [checksOf, State.laneAddressChecks] at hpass
  · obtain ⟨-, hvd, -⟩ := hpass
    exact same hvd (effectOf_laneLoad hs b vd) (effectOf_laneLoad hs b' vd)
  · obtain ⟨-, hvd, -⟩ := hpass
    exact same hvd (effectOf_laneXor hs b vd v1 v2) (effectOf_laneXor hs b' vd v1 v2)
  · obtain ⟨-, hvd, -⟩ := hpass
    exact same hvd (effectOf_laneMul2 hs b vd v1) (effectOf_laneMul2 hs b' vd v1)
  · obtain ⟨-, hvd, -⟩ := hpass
    exact same hvd (effectOf_laneMul4 hs b vd v1) (effectOf_laneMul4 hs b' vd v1)
  · obtain ⟨-, hvd, -, he⟩ := hpass
    exact same hvd (effectOf_laneMulc hs b vd v1 he) (effectOf_laneMulc hs b' vd v1 he)

end Sys2Proof.Machine
end

section
/-! SUPPORT. The compute commands as generations and recoveries: the case and the damage count a reconstruction command runs with,
and the targets its checks have let through (44_reconstruction R238, R260 to R262). -/

namespace Sys2Proof

open Machine in
/-- The case a reconstruction command runs, with the number of damaged parity columns it records (44_reconstruction R238, R261,
R270); `none` for every other command. -/
def Instr.recovery (i : Instr) (m : ColMap) : Option (RecCase × Nat) :=
  match i with
  | .recList nt t0 t1 t2 =>
    some (selectCase (m.usedParity (damagedList nt t0 t1 t2)) (m.damagedData (damagedList nt t0 t1 t2)),
      (m.damagedParity (damagedList nt t0 t1 t2)).length)
  | .recP x => some (.p x, 0)
  | .recQ x => some (.q x, 0)
  | .recR x => some (.r x, 0)
  | .recPQ x y => some (.pq x y, 0)
  | .recPR x y => some (.pr x y, 0)
  | .recQR x y => some (.qr x y, 0)
  | .recPQR x y z => some (.pqr x y z, 0)
  | _ => none

end Sys2Proof

namespace Sys2Proof.Machine

/-- A compute command generates or recovers. -/
theorem compute_cases {i : Instr} (hi : i.compute = true) (m : ColMap) :
    i ∈ [Instr.gen, .genP, .genPQ, .genPQR] ∨ ∃ k np, i.recovery m = some (k, np) := by
  cases i
  case gen | genP | genPQ | genPQR => exact .inl (by simp)
  case recList | recP | recQ | recR | recPQ | recPR | recQR | recPQR => exact .inr ⟨_, _, rfl⟩
  all_goals cases hi

theorem effectOf_recovery {i : Instr} {s : State} {k : RecCase} {np : Nat} (h : i.recovery s.here.map = some (k, np)) :
    effectOf i s = recoverEffect s k np := by
  cases i <;> cases h <;> rfl

/-- The cases of `REC` reconstruct the data targets of its list. -/
theorem selectCase_targets (used : List Nat) {targets : List Nat} (h0 : targets ≠ []) (h3 : targets.length ≤ 3) :
    (selectCase used targets).targets = targets := by
  match targets with
  | [_] | [_, _] =>
    unfold selectCase
    split_ifs <;> rfl
  | [_, _, _] => rfl
  | _ :: _ :: _ :: _ :: _ => exact absurd h3 (by simp only [List.length_cons]; omega)

theorem explicit_targets {s : State} {k : RecCase} (h : ∀ c ∈ checksOf k.instr s, c.bad = false) :
    ∀ t ∈ k.targets, s.here.map.p ≤ t ∧ t < s.here.map.ncols := by
  simp only [checksOf_explicit, State.explicitChecks, List.forall_mem_append, List.forall_mem_map, dataTarget_passed] at h
  exact h.1.2

theorem damagedData_length_le (m : ColMap) (nt t0 t1 t2 : Nat) : (m.damagedData (damagedList nt t0 t1 t2)).length ≤ 3 :=
  (List.length_filter_le _ _).trans (List.length_take_le' _ _)

/-- Every target of a reconstruction command whose checks pass is a data column (44_reconstruction R238, R262). -/
theorem recovery_targets {i : Instr} {s : State} {k : RecCase} {np : Nat} (hi : i.recovery s.here.map = some (k, np))
    (h : ∀ c ∈ checksOf i s, c.bad = false) : ∀ t ∈ k.targets, s.here.map.p ≤ t ∧ t < s.here.map.ncols := by
  cases i <;> cases hi
  case recList nt t0 t1 t2 =>
    simp only [checksOf, State.recListChecks, List.forall_mem_append, List.forall_mem_map, List.forall_mem_cons, targets_bad,
      column_bad] at h
    obtain ⟨⟨-, hcols⟩, -, hdata, -⟩ := h
    have hne : s.here.map.damagedData (damagedList nt t0 t1 t2) ≠ [] := by simpa using hdata
    rw [selectCase_targets _ hne (damagedData_length_le _ _ _ _ _)]
    intro t ht
    exact ⟨by simpa using List.of_mem_filter ht, by simpa using hcols t (List.mem_of_mem_filter ht)⟩
  case recP x => exact explicit_targets (k := .p x) h
  case recQ x => exact explicit_targets (k := .q x) h
  case recR x => exact explicit_targets (k := .r x) h
  case recPQ x y => exact explicit_targets (k := .pq x y) h
  case recPR x y => exact explicit_targets (k := .pr x y) h
  case recQR x y => exact explicit_targets (k := .qr x y) h
  case recPQR x y z => exact explicit_targets (k := .pqr x y z) h

/-- A compute command is legal on a valid map only (42_map R183). -/
theorem compute_legal {i : Instr} (hi : i.compute = true) (c : Context) : i.legalIn c = c.mapValid := by
  cases i
  case gen | genP | genPQ | genPQR => rfl
  case recList | recP | recQ | recR | recPQ | recPR | recQR | recPQR => rfl
  all_goals cases hi

end Sys2Proof.Machine
end

section
/-! SUPPORT. What `MAP_COMMIT` lets through (42_map R187) is the layout of a valid map (R190); then the statement. -/

namespace Sys2Proof.Machine

/-! ### A state with the invariant -/

theorem State.Inv.present {s : State} (h : s.Inv) : s.cur < s.ctxs.length := h.contexts ▸ h.addressed

theorem State.Inv.here_ok {s : State} (h : s.Inv) : s.here.Ok s.cfg s.avail := h.each _ (here_mem s h.present)

theorem State.Inv.ready {s : State} (h : s.Inv) (hf : s.here.fault = false) : s.Ready :=
  ⟨h.present, hf, h.here_ok.guard_clear⟩

/-! ### The checks of `MAP_COMMIT` and the layout -/

theorem columns_passed_iff {f : Nat → List Check} {a n : Nat} :
    (∀ k ∈ (List.range' a n).flatMap f, k.bad = false) ↔ ∀ c, a ≤ c → c < a + n → ∀ k ∈ f c, k.bad = false := by
  simp only [List.forall_mem_flatMap, List.mem_range'_1, and_imp]

theorem commitColumnChecks_iff {cfg : Config} {m : ColMap} {c : Nat} :
    (∀ k ∈ commitColumnChecks cfg m c, k.bad = false) ↔ m.ColumnFits cfg c := by
  refine ⟨fun h => ?_, commitColumnChecks_passed⟩
  simp only [commitColumnChecks, List.forall_mem_cons, decide_eq_false_iff_not, not_not, not_lt] at h
  obtain ⟨hpos, hsector, hbase, hmem, -⟩ := h
  exact ⟨hpos, hsector, hbase, hmem⟩

/-- All checks of `MAP_COMMIT` pass exactly when every column is set and fits, and the sizes agree as R187 (4) to (6) ask. -/
theorem commitChecks_iff {cfg : Config} {m : ColMap} :
    (∀ k ∈ commitChecks cfg m, k.bad = false) ↔
      (∀ c, c < m.ncols → (m.entry c).set = true) ∧ (∀ c, c < m.ncols → m.ColumnFits cfg c) ∧
      (∀ c, m.p < c → c < m.ncols - 1 → m.size c = m.size m.p) ∧
      (m.p < m.ncols - 1 → m.size (m.ncols - 1) = m.size m.p ∨ m.size (m.ncols - 1) + cfg.sector = m.size m.p) ∧
      ∀ c, c < m.p → m.size c = m.size m.p := by
  simp only [commitChecks_eq, setStage, columnStage, middleStage, parityStage, List.forall_mem_append, columns_passed_iff,
    commitColumnChecks_iff, List.forall_mem_singleton]
  refine and_congr ?set (and_congr ?columns (and_congr ?middle (and_congr ?last ?parity)))
  case set => simp [unsetCheck]
  case columns => simp
  case middle =>
    refine forall_congr' fun c => forall_congr' fun hp => ?_
    have hend : c < m.p + 1 + (m.ncols - 1 - (m.p + 1)) ↔ c < m.ncols - 1 := by omega
    simp [hend, commitSizeCheck]
  case last => simp [lastSizeCheck, or_iff_not_imp_left]
  case parity => simp [commitSizeCheck]

/-- The map as `MAP_COMMIT` leaves it: `psize` is the size of the first data column. -/
def ColMap.committed (m : ColMap) : ColMap := { m with psize := (m.entry m.p).size }

/-- Under the header that `MAP_OPEN` has checked, the tests on the columns are the layout of R190. -/
theorem layout_committed_iff {cfg : Config} {avail : BitVec 3} {m : ColMap} (h : m.Header avail) :
    m.committed.Layout cfg ↔ (∀ c, c < m.ncols → m.ColumnFits cfg c) ∧
      (∀ c, m.p < c → c < m.ncols - 1 → m.size c = m.size m.p) ∧
      (m.p < m.ncols - 1 → m.size (m.ncols - 1) = m.size m.p ∨ m.size (m.ncols - 1) + cfg.sector = m.size m.p) ∧
      ∀ c, c < m.p → m.size c = m.size m.p := by
  have hdata := h.data_pos
  refine ⟨fun hl => ⟨fun c hc => ?column, fun c hp hc => ?middle, fun _ => ?last, hl.parity_full⟩,
    fun ⟨hcol, hmid, hlast, hpar⟩ => ?layout⟩
  case column => exact ⟨(hl.size_pos c hc).ne', hl.size_sector c hc, hl.base_aligned c hc, hl.in_memory c hc⟩
  case middle => exact hl.data_full c hp.le (by omega : c + 1 < m.ncols)
  case last => exact hl.last_size.imp_right And.right
  case layout =>
    exact {
      parity_pos := h.parity_pos
      data_pos := hdata
      data_le := h.data_le
      size_pos := fun c hc => Nat.pos_of_ne_zero (hcol c hc).size_pos
      size_sector := fun c hc => (hcol c hc).size_sector
      base_aligned := fun c hc => (hcol c hc).base_aligned
      in_memory := fun c hc => (hcol c hc).in_memory
      data_full := fun c (hp : m.p ≤ c) (hc : c + 1 < m.ncols) => by
        obtain rfl | hlt := hp.eq_or_lt
        · rfl
        · exact hmid c hlt (by omega)
      last_size := by
        by_cases hp : m.p < m.ncols - 1
        · exact (hlast hp).imp_right fun hshort => ⟨(by omega : m.p + 2 ≤ m.ncols), hshort⟩
        · have hfirst : m.ncols - 1 = m.p := by omega
          exact .inl (congrArg m.size hfirst)
      parity_full := hpar }

theorem commit_iff {cfg : Config} {avail : BitVec 3} {m : ColMap} (h : m.Header avail) :
    (∀ k ∈ commitChecks cfg m, k.bad = false) ↔
      (∀ c, c < m.ncols → (m.entry c).set = true) ∧ m.committed.Layout cfg := by
  rw [commitChecks_iff, layout_committed_iff h]

/-! ### The statement -/

/-- Settles O29: in a running context with an open map the command completes exactly when its checks pass, and these are the
layout. -/
theorem commitMeansLayout : Obligations.CommitMeansLayout := by
  intro s hinv hf ho
  have hs := hinv.ready hf
  have hnotNone : s.here.mapNone = false := by simp [Context.mapNone, ((mapIsOpen_iff _).1 ho).1]
  have hchecks := commit_iff (cfg := s.cfg) (hinv.here_ok.map_header hnotNone)
  refine ⟨fun ⟨t, ht, htf⟩ => ?completes, fun hl => ?layout⟩
  case completes =>
    obtain ⟨hpass, -⟩ := exec_completed hs ht htf
    obtain ⟨-, hcommit⟩ := List.forall_mem_cons.1 hpass
    exact hchecks.1 hcommit
  case layout =>
    have hpass : ∀ k ∈ checksOf .mapCommit s, k.bad = false := List.forall_mem_cons.2 ⟨by simp [ho], hchecks.2 hl⟩
    exact ⟨_, exec_passed hf hpass, by simp [hs.present, hf]⟩

end Sys2Proof.Machine
end

section
/-! SUPPORT. The invariant of reachable states (42_map R190, 60_exceptions R324): which updates of a context and of the state keep
it, then every effect, every write to the port and every operation of the host; the stops; then the statements. -/

namespace Sys2Proof.Machine

/-! ### What keeps a context as it should be -/

section
variable {cfg : Config} {avail : BitVec 3} {c : Context}

/-- The part of a context that the invariant speaks of. -/
def Context.control (c : Context) : Bool × Bool × Bool × Bool × Word × Word × ColMap :=
  (c.vguard, c.mapopen, c.mapv, c.fault, c.fcode, c.finfo, c.map)

theorem ok_of_control {d : Context} (h : c.Ok cfg avail) (hd : d.control = c.control) : d.Ok cfg avail := by
  simp only [Context.control, Prod.mk.injEq] at hd
  obtain ⟨hguard, hopen, hv, hfault, hcode, hinfo, hmap⟩ := hd
  constructor
  all_goals simp only [Context.mapNone, Context.mapValid, hguard, hopen, hv, hfault, hcode, hinfo, hmap]
  · exact h.guard_clear
  · exact h.not_both
  · exact h.no_fault
  · exact h.fault_code
  · exact h.map_none
  · exact h.unset_zero
  · exact h.map_header
  · exact h.map_valid

theorem code_range (e : Cause) : 1 ≤ (Word.ofNat e.code).toNat ∧ (Word.ofNat e.code).toNat ≤ 13 := by
  cases e <;> decide

theorem ok_takeFault (h : c.Ok cfg avail) (e : Cause) (v : Word) :
    ({ c with fault := true, fcode := Word.ofNat e.code, finfo := v } : Context).Ok cfg avail :=
  { h with no_fault := nofun, fault_code := fun _ => code_range e }

theorem ok_reset : Context.reset.Ok cfg avail where
  guard_clear := rfl
  not_both := by decide
  no_fault := fun _ => ⟨rfl, rfl⟩
  fault_code := nofun
  map_none := fun _ => rfl
  unset_zero := fun _ hk _ => Vector.getElem_replicate hk
  map_header := nofun
  map_valid := nofun

/-- A map that has just been opened has its header and no column (42_map R182). -/
theorem ok_mapOpen (h : c.Ok cfg avail) (hn : c.mapNone = true) {m : ColMap} (hm : m.Header avail)
    (hcol : m.col = ColMap.reset.col) : ({ c with mapopen := true, map := m } : Context).Ok cfg avail := by
  obtain ⟨-, hv⟩ := (mapNone_iff c).1 hn
  exact { h with
    not_both := by simp [hv]
    map_none := nofun
    unset_zero := fun k hk _ => by
      simp only [hcol]
      exact Vector.getElem_replicate hk
    map_header := fun _ => hm
    map_valid := nofun }

/-- Setting a column keeps the unset ones zero (42_map R185, R186). -/
theorem ok_colSet (h : c.Ok cfg avail) (ho : c.mapIsOpen = true) (x : Nat) {e : Col} (he : e.set = true) :
    ({ c with map := { c.map with col := c.map.col.setIfInBounds x e } } : Context).Ok cfg avail := by
  obtain ⟨hopen, hv⟩ := (mapIsOpen_iff c).1 ho
  exact { h with
    map_none := fun hn => by simp [Context.mapNone, hopen] at hn
    unset_zero := fun k hk hunset => by
      by_cases hx : x = k
      · simp [hx, he] at hunset
      · have hkept : (c.map.col.setIfInBounds x e)[k] = c.map.col[k] := Vector.getElem_setIfInBounds_ne hk hx
        simp only [hkept] at hunset ⊢
        exact h.unset_zero k hk hunset
    map_header := fun hn => { h.map_header hn with }
    map_valid := fun hvalid => by simp [Context.mapValid, hopen] at hvalid }

/-- Committing a map that has the layout (42_map R187, R190). -/
theorem ok_mapCommit (h : c.Ok cfg avail) (ho : c.mapIsOpen = true) (hl : c.map.committed.Layout cfg) :
    ({ c with mapopen := false, mapv := true, map := c.map.committed } : Context).Ok cfg avail := by
  obtain ⟨hopen, hv⟩ := (mapIsOpen_iff c).1 ho
  exact { h with
    not_both := by simp
    map_none := nofun
    unset_zero := h.unset_zero
    map_header := fun _ => { h.map_header (by simp [Context.mapNone, hopen]) with }
    map_valid := fun _ => hl }

theorem ok_mapClose (h : c.Ok cfg avail) :
    ({ c with mapopen := false, mapv := false, map := ColMap.reset } : Context).Ok cfg avail :=
  { h with
    not_both := by simp
    map_none := fun _ => rfl
    unset_zero := fun _ hk _ => Vector.getElem_replicate hk
    map_header := nofun
    map_valid := nofun }

/-- The missing counts of a valid map are free (42_map R191 (v)). -/
theorem ok_counts (h : c.Ok cfg avail) (hvalid : c.mapValid = true) (v : Word) (d p : BitVec 2) :
    ({ c with res := v, map := { c.map with missingdata := d, missingparity := p } } : Context).Ok cfg avail := by
  obtain ⟨-, hv⟩ := (mapValid_iff c).1 hvalid
  exact { h with
    map_none := fun hn => by simp [Context.mapNone, hv] at hn
    map_header := fun hn => { h.map_header hn with }
    map_valid := fun _ => { h.map_valid hvalid with } }

end

/-! ### What keeps the invariant -/

namespace State.Inv

variable {s : State}

theorem put (h : s.Inv) {c : Context} (hc : c.Ok s.cfg s.avail) : (s.put c).Inv :=
  { h with
    contexts := by simpa using h.contexts
    each := fun d hd => (List.mem_or_eq_of_mem_set hd).elim (h.each d) fun he => he ▸ hc }

theorem put_control (h : s.Inv) {c : Context} (hc : c.control = s.here.control) : (s.put c).Inv :=
  h.put (ok_of_control h.here_ok hc)

theorem withMem (h : s.Inv) {m : Memory} (hwf : m.wf = true) (hb : m.below s.cfg.memLimit = true) :
    ({ s with mem := m } : State).Inv :=
  { h with mem_wf := hwf, mem_below := hb }

theorem withBsel (h : s.Inv) {b : BitVec 8} (hb : registered s.avail b.toNat = true) : ({ s with bsel := b } : State).Inv :=
  { h with selected := hb }

theorem setRes (h : s.Inv) (v : Word) : (s.setRes v).Inv := h.put_control rfl

theorem putLane (h : s.Inv) (vd w : Nat) (r : Nat → Byte) : (s.putLane vd w r).Inv := h.put_control rfl

theorem takeFault (h : s.Inv) (e : Cause) (v : Word) : (s.takeFault e v).Inv := h.put (ok_takeFault h.here_ok e v)

theorem writes (h : s.Inv) {l : List (Nat × List Byte)} (hl : ∀ p ∈ l, p.1 + p.2.length ≤ s.cfg.memLimit) :
    ({ s with mem := s.mem.writes l } : State).Inv :=
  h.withMem (writes_wf l h.mem_wf) (writes_below l h.mem_below hl)

/-- A backend number of the table is not changed by its place in a byte. -/
theorem toNat_ofNat_registered {avail : BitVec 3} {b : Nat} (hb : registered avail b = true) :
    (BitVec.ofNat 8 b).toNat = b :=
  Nat.mod_eq_of_lt ((lt_nbk_of_registered hb).trans (by decide))

theorem select (h : s.Inv) (v : Word) {b : Nat} (hb : registered s.avail b = true) :
    ({ s.setRes v with bsel := BitVec.ofNat 8 b } : State).Inv :=
  (h.setRes v).withBsel (by rw [toNat_ofNat_registered hb]; exact hb)

/-- Generation writes the parity columns of a valid map, which lie in memory. -/
theorem generate (h : s.Inv) (hl : s.here.map.Layout s.cfg) {k : Nat} (hk : k ≤ s.here.map.p) : (s.generate k).Inv := by
  rw [generate_eq]
  refine h.writes fun w hw => ?_
  obtain ⟨j, hj, haddr, hlen⟩ := mem_parityWrites h.mem_wf hl hw
  have hp := hl.data_pos
  rw [haddr, hlen, ← hl.parity_full j.index (hj.trans_le hk)]
  exact hl.in_memory _ (by omega)

/-- A reconstruction writes target columns of a valid map, which lie in memory. -/
theorem reconstruct (h : s.Inv) (hv : s.here.mapValid = true) {k : RecCase} (np : Nat)
    (hk : ∀ t ∈ k.targets, t < s.here.map.ncols) : (s.reconstruct k np).Inv := by
  have hl := h.here_ok.map_valid hv
  have hcounts := h.put (ok_counts h.here_ok hv (Word.ofNat (2 ^ k.targets.length - 1)) (BitVec.ofNat 2 k.targets.length)
    (BitVec.ofNat 2 np))
  rw [State.reconstruct, recover_eq]
  refine hcounts.writes fun w hw => ?_
  obtain ⟨⟨t, slot⟩, ht, rfl⟩ := List.mem_map.1 hw
  have htarget : t ∈ k.targets := (List.mem_zipIdx_iff_getElem?.1 ht) |> List.mem_of_getElem?
  exact (Nat.add_le_add_left (List.length_take_le _ _) _).trans (hl.in_memory t (hk t htarget))

end State.Inv

/-! ### Every effect keeps the invariant -/

section
variable {s t : State}

theorem generation_keepsInv {i : Instr} (hi : i ∈ [Instr.gen, .genP, .genPQ, .genPQR]) (h : s.Inv) (hs : s.Ready)
    (hpass : ∀ k ∈ checksOf i s, k.bad = false) (heff : effectOf i s = .next t) : t.Inv := by
  obtain ⟨hv, hw⟩ := (generation_checks hi s).1 hpass
  rw [effectOf_generation hi, generateEffect, guarded_generate _ _ hs.present hs.outside] at heff
  rw [onBuffers_next heff]
  exact h.generate (h.here_ok.map_valid hv) hw

theorem recovery_keepsInv {i : Instr} {k : RecCase} {np : Nat} (hi : i.recovery s.here.map = some (k, np)) (h : s.Inv)
    (hs : s.Ready) (hv : s.here.mapValid = true) (hpass : ∀ c ∈ checksOf i s, c.bad = false)
    (heff : effectOf i s = .next t) : t.Inv := by
  rw [effectOf_recovery hi, recoverEffect, guarded_reconstruct _ _ _ hs.present hs.outside] at heff
  rw [onBuffers_next heff]
  exact h.reconstruct hv np fun u hu => (recovery_targets hi hpass u hu).2

theorem compute_keepsInv {i : Instr} (hi : i.compute = true) (h : s.Inv) (hs : s.Ready)
    (hpass : ∀ k ∈ checksOf i s, k.bad = false) (heff : effectOf i s = .next t) : t.Inv := by
  obtain hgen | ⟨k, np, hrec⟩ := compute_cases hi s.here.map
  · exact generation_keepsInv hgen h hs hpass heff
  · exact recovery_keepsInv hrec h hs (compute_legal hi _ ▸ legal_of_passed hpass) hpass heff

/-- What the checks of `MAP_OPEN` let through is a header (42_map R182). -/
theorem mapOpen_keepsInv {cols parity : Nat} (h : s.Inv) (hpass : ∀ k ∈ checksOf (.mapOpen cols parity) s, k.bad = false)
    (heff : effectOf (.mapOpen cols parity) s = .next t) : t.Inv := by
  simp only [checksOf, List.forall_mem_cons, mapState_bad, Bool.not_eq_false', Bool.or_eq_false_iff,
    decide_eq_false_iff_not] at hpass
  obtain ⟨hn, ⟨hp1, hp3⟩, ⟨hpos, hle⟩, -⟩ := hpass
  have hdata : cols - parity ≤ 255 := Nat.le_of_not_lt hle
  have hparity : parity % 2 ^ 2 = parity := Nat.mod_eq_of_lt (by omega)
  have hcols : cols % 2 ^ 16 = cols := Nat.mod_eq_of_lt (by omega)
  cases heff
  refine h.put (ok_mapOpen h.here_ok hn ?_ rfl)
  constructor
  all_goals simp only [ColMap.p, ColMap.ncols, BitVec.toNat_ofNat, hparity, hcols]
  · omega
  · omega
  · omega
  · exact h.selected

theorem bkSet_keepsInv (h : s.Inv) (heff : effectOf .bkSet s = .next t) : t.Inv := by
  cases heff
  dsimp only
  split
  · exact h.setRes _
  · split
    case isTrue hb => exact h.select _ hb
    case isFalse => exact h.setRes _

theorem laneStore_keepsInv {bk vs : Nat} (h : s.Inv) (hs : s.Ready)
    (hpass : ∀ k ∈ checksOf (.laneStore bk vs) s, k.bad = false) (heff : effectOf (.laneStore bk vs) s = .next t) : t.Inv := by
  have hlimit : s.here.a0.toNat + (bkd bk).width ≤ s.cfg.memLimit := by
    simpa using hpass (Check.laneRange s.here.a0 (bkd bk).width s.cfg.memLimit) (by simp [checksOf, State.laneAddressChecks])
  cases (effectOf_laneStore hs bk vs).symm.trans heff
  exact h.withMem (write_wf _ _ h.mem_wf) (write_below _ _ h.mem_below (by simpa using hlimit))

theorem effectOf_keepsInv {i : Instr} (h : s.Inv) (hf : s.here.fault = false)
    (hpass : ∀ k ∈ checksOf i s, k.bad = false) (heff : effectOf i s = .next t) : t.Inv := by
  have hs := h.ready hf
  cases i
  case gen | genP | genPQ | genPQR => exact compute_keepsInv rfl h hs hpass heff
  case recList | recP | recQ | recR | recPQ | recPR | recQR | recPQR => exact compute_keepsInv rfl h hs hpass heff
  case mapOpen => exact mapOpen_keepsInv h hpass heff
  case bkSet => exact bkSet_keepsInv h heff
  case laneStore => exact laneStore_keepsInv h hs hpass heff
  case laneWidth bk =>
    cases (effectOf_laneWidth hs bk).symm.trans heff
    exact h.setRes _
  case laneLoad bk vd =>
    cases (effectOf_laneLoad hs bk vd).symm.trans heff
    exact h.putLane _ _ _
  case laneXor bk vd v1 v2 =>
    cases (effectOf_laneXor hs bk vd v1 v2).symm.trans heff
    exact h.putLane _ _ _
  case laneMul2 bk vd vs =>
    cases (effectOf_laneMul2 hs bk vd vs).symm.trans heff
    exact h.putLane _ _ _
  case laneMul4 bk vd vs =>
    cases (effectOf_laneMul4 hs bk vd vs).symm.trans heff
    exact h.putLane _ _ _
  case laneMulc bk vd vs e =>
    have he : e ≤ 510 := by simpa using hpass (Check.exponent e) (by simp [checksOf])
    cases (effectOf_laneMulc hs bk vd vs he).symm.trans heff
    exact h.putLane _ _ _
  all_goals cases heff
  case nop => exact h
  case colSet =>
    obtain ⟨ho, -⟩ := List.forall_mem_cons.1 hpass
    exact h.put (ok_colSet h.here_ok (by simpa using ho) _ rfl)
  case colGet => exact h.put_control rfl
  case mapCommit =>
    obtain ⟨ho, hcommit⟩ := List.forall_mem_cons.1 hpass
    have hopen : s.here.mapIsOpen = true := by simpa using ho
    have hnotNone : s.here.mapNone = false := by simp [Context.mapNone, ((mapIsOpen_iff _).1 hopen).1]
    exact h.put (ok_mapCommit h.here_ok hopen ((commit_iff (h.here_ok.map_header hnotNone)).1 hcommit).2)
  case mapClose => exact h.put (ok_mapClose h.here_ok)
  case bkAuto => exact h.select _ (registered_best h.scalar_available)
  case bkGet | bkEnum | gfMul | gfExp2 | gfFixexp | gfPow2 | gfLog2 => exact h.setRes _

/-! ### Every operation of the host keeps the invariant -/

theorem exec_keepsInv {i : Instr} (h : s.Inv) (ht : exec i s = .next t) : t.Inv := by
  obtain ⟨-, hr⟩ | ⟨-, k, -, -, hr⟩ | ⟨hf, hpass, hr⟩ := exec_cases ht
  · cases hr
    exact h
  · cases hr
    exact h.takeFault _ _
  · exact effectOf_keepsInv h hf hpass hr.symm

theorem commandWrite_keepsInv {w : Word} (h : s.Inv) (ht : s.commandWrite w = .next t) : t.Inv := by
  unfold State.commandWrite at ht
  split at ht
  · exact exec_keepsInv h ht
  · obtain ⟨-, hr⟩ | ⟨-, k, -, -, hr⟩ | ⟨-, -, hr⟩ := issue_cases ht <;> cases hr
    · exact h
    · exact h.takeFault _ _
    · exact h

theorem setOperand_control (c : Context) (num : Nat) (v : Word) : (c.setOperand num v).control = c.control := by
  unfold Context.setOperand
  split <;> rfl

theorem operandWrite_keepsInv (h : s.Inv) (num : Nat) (v : Word) : (s.operandWrite num v).Inv := by
  cases hf : s.here.fault with
  | true => rwa [operandWrite_faulted num v hf]
  | false =>
    rw [operandWrite_running num v hf]
    exact h.put_control (setOperand_control _ _ _)

/-- Nothing is available that is not compiled in, whatever the probe finds (10_state R33). -/
theorem compiledIn_of_available {ci feat : BitVec 3} {b : Nat} (h : registered (availMask ci feat) b = true) :
    compiledIn ci b = true := by
  have hlt := lt_nbk_of_registered h
  rw [registered_of_lt _ hlt] at h
  rcases Nat.eq_zero_or_pos b with rfl | hpos
  · rfl
  · rw [availMask_pos _ _ hpos, Bool.and_eq_true] at h
    simp [compiledIn, hlt, h.1]

/-- A reset of well-formed parameters and memory is a reachable state (10_state R45). -/
theorem inv_resetOf {c : Config} {m : Memory} (feat : BitVec 3) (hc : c.wf = true) (hwf : m.wf = true)
    (hb : m.below c.memLimit = true) : (State.resetOf c feat m).Inv := by
  have hscalar := registered_availMask_zero c.ci feat
  exact {
    params := hc
    contexts := List.length_replicate
    addressed := by
      simp only [Config.wf, Bool.and_eq_true, decide_eq_true_eq] at hc
      exact hc.2
    scalar_available := hscalar
    available_compiled := fun _ => compiledIn_of_available
    selected := by
      simp only [State.resetOf, toNat_ofNat_best hscalar]
      exact registered_best hscalar
    mem_wf := hwf
    mem_below := hb
    each := fun d hd => List.eq_of_mem_replicate hd ▸ ok_reset }

/-- The reset event keeps the host's side and buffer memory (70_reset R340, R343). -/
theorem blockReset_keepsInv (h : s.Inv) (feat : BitVec 3) : (s.blockReset feat).Inv :=
  { inv_resetOf feat h.params h.mem_wf h.mem_below with addressed := h.addressed }

theorem perform_keepsInv {op : HostOp} (h : s.Inv) (ht : s.perform op = .next t) : t.Inv := by
  cases op with
  | reset feat =>
    cases ht
    exact blockReset_keepsInv h feat
  | regWrite x num v =>
    dsimp only [State.perform, State.regWrite] at ht
    split at ht
    case isFalse => cases ht
    case isTrue hport =>
      obtain ⟨hx, -⟩ := (onPort_iff s x num).1 hport
      have haddressed : ({ s with cur := x } : State).Inv := { h with addressed := hx }
      split at ht
      · exact commandWrite_keepsInv haddressed ht
      · cases ht
        exact operandWrite_keepsInv haddressed num v
  | memWrite addr bytes =>
    dsimp only [State.perform] at ht
    split at ht
    case isFalse => cases ht
    case isTrue hlimit =>
      cases ht
      exact h.withMem (write_wf _ _ h.mem_wf) (write_below _ _ h.mem_below hlimit)
  | regRead | memRead =>
    dsimp only [State.perform] at ht
    split at ht <;> cases ht
    exact { h with }

end

/-! ### The statements -/

/-- Settles O11: the reset state of the vectors' parameters, and that of every well-formed choice. -/
theorem resetSatisfiesInv : Obligations.ResetSatisfiesInv :=
  ⟨⟨by decide, by decide, rfl, rfl⟩, inv_resetOf _ (by decide) rfl rfl, fun _ feat _ => inv_resetOf feat⟩

/-- Settles O12: a step is one operation of the host, and each of its parts keeps the invariant. -/
theorem stepKeepsInv : Obligations.StepKeepsInv := by
  intro s t h ht
  rw [step, State.hostStep] at ht
  split at ht
  case h_1 =>
    cases ht
    exact h
  case h_2 op rest _ =>
    have hrest : ({ s with pending := rest } : State).Inv := { h with }
    exact perform_keepsInv hrest ht

end Sys2Proof.Machine
end

section
/-! SUPPORT. One rule per host operation on buffer memory (20_memory R61), and where the machine stops (10_state R46, 20_memory
R61, R72): only compute commands have a premise, and in a reachable state a valid map lies in memory; then the statements. -/

namespace Sys2Proof.Machine

/-! ### The host's accesses to buffer memory (20_memory R61) -/

section
variable {s : State} {addr : Nat} {bytes : List Byte} {rest : List HostOp}

theorem step_memWrite_inside (hp : s.pending = .memWrite addr bytes :: rest) (h : addr + bytes.length ≤ s.cfg.memLimit) :
    step s = .next { s with pending := rest, mem := s.mem.write addr bytes } := by
  rw [step_of_pending hp]
  exact if_pos h

theorem step_memWrite_outside (hp : s.pending = .memWrite addr bytes :: rest) (h : s.cfg.memLimit < addr + bytes.length) :
    step s = .fault .hostAddress := by
  rw [step_of_pending hp]
  exact if_neg h.not_ge

theorem step_memRead_inside (hp : s.pending = .memRead addr :: rest) (h : addr < s.cfg.memLimit) :
    step s = .next { s with pending := rest, readBack := some (zext (s.mem.read addr)) } := by
  rw [step_of_pending hp]
  exact if_pos h

theorem step_memRead_outside (hp : s.pending = .memRead addr :: rest) (h : s.cfg.memLimit ≤ addr) :
    step s = .fault .hostAddress := by
  rw [step_of_pending hp]
  exact if_neg h.not_gt

end

/-! ### Which commands can stop -/

/-- A compute command makes the premise on its buffers and has no other way to stop. -/
theorem effectOf_compute {i : Instr} (hi : i.compute = true) (s : State) : ∃ t, effectOf i s = s.onBuffers (.next t) := by
  obtain hgen | ⟨k, np, hrec⟩ := compute_cases hi s.here.map
  · exact ⟨_, effectOf_generation hgen s⟩
  · exact ⟨_, effectOf_recovery hrec⟩

/-- Every other command has an effect without a premise. -/
theorem effectOf_next {i : Instr} (hi : i.compute = false) (s : State) : ∃ t, effectOf i s = .next t := by
  cases i
  case gen | genP | genPQ | genPQR => cases hi
  case recList | recP | recQ | recR | recPQ | recPR | recQR | recPQR => cases hi
  all_goals exact ⟨_, rfl⟩

/-- The layout of a valid map keeps its buffers inside memory (42_map R190, 20_memory R70). -/
theorem inside_of_layout {cfg : Config} {m : ColMap} (h : m.Layout cfg) : m.inside cfg.memLimit = true :=
  (inside_iff m _).2 h.in_memory

/-- The model refuses to go on: a compute command `i` found buffers that are not its own (20_memory R72). -/
def State.RefusesBuffers (s : State) (i : Instr) (r : Result) : Prop :=
  i.compute = true ∧ ¬ s.BuffersOwn ∧ (r = .refused .overlappingColumns ∨ r = .refused .overlapsOtherMap)

theorem exec_stops {i : Instr} {s : State} (h : s.Inv) : (∃ t, exec i s = .next t) ∨ s.RefusesBuffers i (exec i s) := by
  obtain ⟨-, hr⟩ | ⟨-, k, -, -, hr⟩ | ⟨-, hpass, hr⟩ := exec_cases (rfl : exec i s = exec i s)
  · exact .inl ⟨_, hr⟩
  · exact .inl ⟨_, hr⟩
  · rw [hr]
    cases hi : i.compute with
    | false => exact .inl (effectOf_next hi s)
    | true =>
      obtain ⟨t, ht⟩ := effectOf_compute hi s
      have hv : s.here.mapValid = true := compute_legal hi _ ▸ legal_of_passed hpass
      obtain ⟨hout, -⟩ | ⟨hown, hrefused⟩ | ⟨-, hnext⟩ := onBuffers_cases ht.symm
      · rw [inside_of_layout (h.here_ok.map_valid hv)] at hout
        cases hout
      · exact .inr ⟨hi, hown, hrefused⟩
      · exact .inl ⟨t, hnext⟩

theorem commandWrite_stops {s : State} (w : Word) (h : s.Inv) :
    (∃ t, s.commandWrite w = .next t) ∨ ∃ i, decode w = some i ∧ s.RefusesBuffers i (s.commandWrite w) := by
  cases hd : decode w with
  | some i =>
    rw [commandWrite_decoded hd]
    exact (exec_stops h).imp_right fun hr => ⟨i, rfl, hr⟩
  | none =>
    cases hf : s.here.fault with
    | true => exact .inl ⟨_, commandWrite_faulted w hf⟩
    | false => exact .inl ⟨_, commandWrite_illegal hf hd⟩

/-! ### Where a step stops -/

/-- A write to the port stops outside the block, or where a compute command refuses its buffers. -/
theorem step_regWrite_stops {s : State} {x num : Nat} {v : Word} {rest : List HostOp} (h : s.Inv)
    (hp : s.pending = .regWrite x num v :: rest) : (∃ t, step s = .next t) ∨
      (step s = .refused .outsideBlock ∧ ¬ (x < s.cfg.nctx ∧ num < 512)) ∨
      ∃ i, num = 0 ∧ decode v = some i ∧ ({ s with pending := rest, cur := x } : State).RefusesBuffers i (step s) := by
  by_cases hport : x < s.cfg.nctx ∧ num < 512
  case neg => exact .inr (.inl ⟨step_regWrite_outside hport hp, hport⟩)
  case pos =>
    obtain ⟨hx, hn⟩ := hport
    by_cases h0 : num = 0
    · subst h0
      have haddressed : ({ s with pending := rest, cur := x } : State).Inv := { h with addressed := hx }
      rw [step_regWrite_command hx hp]
      exact (commandWrite_stops v haddressed).imp_right fun ⟨i, hd, hr⟩ => .inr ⟨i, rfl, hd, hr⟩
    · exact .inl ⟨_, step_regWrite_operand hx hn h0 hp⟩

/-- The host operation of a step is an access to memory that is not implemented (20_memory R61). -/
def State.AccessesOutside (s : State) (rest : List HostOp) : Prop :=
  (∃ a bytes, s.pending = .memWrite a bytes :: rest ∧ s.cfg.memLimit < a + bytes.length) ∨
    ∃ a, s.pending = .memRead a :: rest ∧ s.cfg.memLimit ≤ a

/-- Everything a step from a reachable state can answer but a next state. -/
theorem step_stops {s : State} (h : s.Inv) : (∃ t, step s = .next t) ∨
    (step s = .fault .hostAddress ∧ ∃ rest, s.AccessesOutside rest) ∨
    ∃ x num rest,
      (step s = .refused .outsideBlock ∧ ¬ (x < s.cfg.nctx ∧ num < 512) ∧
        ((∃ v, s.pending = .regWrite x num v :: rest) ∨ s.pending = .regRead x num :: rest)) ∨
      ∃ w i, s.pending = .regWrite x 0 w :: rest ∧ decode w = some i ∧
        ({ s with pending := rest, cur := x } : State).RefusesBuffers i (step s) := by
  match hp : s.pending with
  | [] => exact .inl ⟨s, by simp [step, State.hostStep, hp]⟩
  | .reset feat :: rest => exact .inl ⟨_, step_reset hp⟩
  | .memWrite a bytes :: rest =>
    rcases Nat.lt_or_ge s.cfg.memLimit (a + bytes.length) with hout | hin
    · exact .inr (.inl ⟨step_memWrite_outside hp hout, rest, .inl ⟨a, bytes, hp, hout⟩⟩)
    · exact .inl ⟨_, step_memWrite_inside hp hin⟩
  | .memRead a :: rest =>
    rcases Nat.lt_or_ge a s.cfg.memLimit with hin | hout
    · exact .inl ⟨_, step_memRead_inside hp hin⟩
    · exact .inr (.inl ⟨step_memRead_outside hp hout, rest, .inr ⟨a, hp, hout⟩⟩)
  | .regRead x num :: rest =>
    by_cases hport : x < s.cfg.nctx ∧ num < 512
    · exact .inl ⟨_, step_regRead_inside (h.contexts ▸ hport.1) hport.1 hport.2 hp⟩
    · exact .inr (.inr ⟨x, num, rest, .inl ⟨step_regRead_outside hport hp, hport, .inr rfl⟩⟩)
  | .regWrite x num v :: rest =>
    obtain hnext | ⟨hstep, hport⟩ | ⟨i, rfl, hd, hr⟩ := step_regWrite_stops h hp
    · exact .inl hnext
    · exact .inr (.inr ⟨x, num, rest, .inl ⟨hstep, hport, .inl ⟨v, rfl⟩⟩⟩)
    · exact .inr (.inr ⟨x, 0, rest, .inr ⟨v, i, rfl, hd, hr⟩⟩)

/-! ### The statements -/

/-- Settles O5: a write to `CMD` inside the block is the command written; `withFetchWord` puts one first. -/
theorem stepRunsDecodedCommand : Obligations.StepRunsDecodedCommand := by
  have hcommand {s : State} {x : Nat} {w : Word} {rest : List HostOp} {i : Instr} (hp : s.pending = .regWrite x 0 w :: rest)
      (hx : x < s.cfg.nctx) (hd : decode w = some i) : step s = exec i { s with pending := rest, cur := x } := by
    rw [step_regWrite_command hx hp, commandWrite_decoded hd]
  exact ⟨fun s x w rest i => hcommand, fun s nbits w i hc hd => hcommand rfl hc hd⟩

/-- Settles O9: the write of R63, the read of R61, and the stops of log 9. -/
theorem hostMemoryAccess : Obligations.HostMemoryAccess := by
  refine fun s addr bytes rest => ⟨fun hp => ⟨fun h => ?write, step_memWrite_outside hp⟩,
    fun hp => ⟨step_memRead_inside hp, step_memRead_outside hp⟩⟩
  case write =>
    exact ⟨_, step_memWrite_inside hp h, fun k hk => read_write_in _ _ _ rfl hk, fun a ha => read_write_out _ _ _ ha⟩

/-- Settles O18: an operation on the port or on memory stops outside its range, and a command only where a compute command
finds buffers that are not its own. -/
theorem stopsOnlyOutsideDuties : Obligations.StopsOnlyOutsideDuties := by
  intro s h
  obtain ⟨t, hstep⟩ | ⟨hstep, hout⟩ | ⟨x, num, rest, ⟨hstep, hport⟩ | ⟨w, i, hp, hd, hi, hown, hr⟩⟩ := step_stops h
  case inl => exact ⟨fun r hr => (by cases hstep.symm.trans hr), fun r hr => (by cases hstep.symm.trans hr)⟩
  case inr.inl =>
    refine ⟨fun r hr => ?_, fun r hr => (by cases hstep.symm.trans hr)⟩
    cases hstep.symm.trans hr
    exact ⟨rfl, hout⟩
  case inr.inr.inl =>
    refine ⟨fun r hr => (by cases hstep.symm.trans hr), fun r hr => ?_⟩
    cases hstep.symm.trans hr
    exact ⟨x, num, rest, .inl ⟨rfl, hport⟩⟩
  case inr.inr.inr =>
    have hrefused : ∀ r, step s = .refused r → r = .overlappingColumns ∨ r = .overlapsOtherMap := by
      intro r hstep
      rw [hstep] at hr
      exact hr.imp (fun he => by cases he; rfl) (fun he => by cases he; rfl)
    refine ⟨fun r hstep => ?_, fun r hstep => ⟨x, num, rest, .inr ⟨hrefused r hstep, w, i, hp, hd, hi, hown⟩⟩⟩
    obtain he | he := hr <;> cases hstep.symm.trans he

end Sys2Proof.Machine
end

section
/-! SUPPORT. The register table and the memory-mapped port (10_state R25, R31, 20_memory R65): the bits of `STATUS`, offsets, slots;
then the statement. -/

namespace Sys2Proof.Machine

/-! ### `STATUS` (10_state R25) -/

theorem status_bits (c : Context) : c.status.getLsbD 0 = c.fault ∧ c.status.getLsbD 1 = c.mapopen ∧
    c.status.getLsbD 2 = c.mapv ∧ c.status.getLsbD 3 = c.vguard := by
  have hbits : ∀ f o v g : Bool,
      let w := Word.ofNat (f.toNat + 2 * o.toNat + 4 * v.toNat + 8 * g.toNat)
      w.getLsbD 0 = f ∧ w.getLsbD 1 = o ∧ w.getLsbD 2 = v ∧ w.getLsbD 3 = g := by decide
  exact hbits c.fault c.mapopen c.mapv c.vguard

theorem status_above (c : Context) {k : Nat} (h : 4 ≤ k) : c.status.getLsbD k = false := by
  have hsmall : c.fault.toNat + 2 * c.mapopen.toNat + 4 * c.mapv.toNat + 8 * c.vguard.toNat < 2 ^ 4 := by
    have := c.fault.toNat_le
    have := c.mapopen.toNat_le
    have := c.mapv.toNat_le
    have := c.vguard.toNat_le
    omega
  rw [Context.status, BitVec.getLsbD_ofNat,
    Nat.testBit_lt_two_pow (hsmall.trans_le (Nat.pow_le_pow_right (by decide) h)), Bool.and_false]

/-! ### Offsets of the port (10_state R31) -/

theorem portAt_portOffset {x num : Nat} (h : num < 512) : portAt (portOffset x num) = some (x, num) := by
  have haligned : portOffset x num % 8 = 0 := by
    unfold portOffset
    omega
  have hctx : portOffset x num / 0x1000 = x := by
    unfold portOffset
    omega
  have hnum : portOffset x num % 0x1000 / 8 = num := by
    unfold portOffset
    omega
  rw [portAt, if_pos haligned, hctx, hnum]

theorem portAt_unaligned {offset : Nat} (h : offset % 8 ≠ 0) : portAt offset = none := if_neg h

/-! ### Slots (20_memory R65) -/

@[simp] theorem regBytes_length (v : Word) : (regBytes v).length = 8 := by simp [regBytes]

theorem regOfBytes_regBytes (v : Word) : regOfBytes (regBytes v) = v :=
  eq_of_regByte fun _ hk => regByte_wordOfBytes (regByte v) hk

theorem regBytes_getElem? (v : Word) {k : Nat} (hk : k < 8) : (regBytes v)[k]? = some (regByte v k) := by
  simp [regBytes, hk]

theorem mappedWrite_regBytes {x num : Nat} (v : Word) (h : num < 512) :
    mappedWrite (portOffset x num) (regBytes v) = some (.regWrite x num v) := by
  rw [mappedWrite, if_pos (regBytes_length v), portAt_portOffset h, regOfBytes_regBytes]
  rfl

theorem mappedRead_eight {x num : Nat} (h : num < 512) : mappedRead (portOffset x num) 8 = some (.regRead x num) := by
  rw [mappedRead, if_pos rfl, portAt_portOffset h]
  rfl

/-- An access of another width or alignment is no operation of the host (log 22). -/
theorem mapped_none {offset : Nat} {bytes : List Byte} (h : bytes.length ≠ 8 ∨ offset % 8 ≠ 0) :
    mappedWrite offset bytes = none ∧ mappedRead offset bytes.length = none := by
  obtain hwidth | halign := h
  · exact ⟨if_neg hwidth, if_neg hwidth⟩
  · simp [mappedWrite, mappedRead, portAt_unaligned halign]

/-- A packed name has character `k` at byte `k` (45_dispatch R281). -/
theorem regByte_pack {name : List Char} (h : name.length ≤ 8) {k : Nat} (hk : k < 8) :
    regByte (pack name) k = BitVec.ofNat 8 ((name[k]?).elim 0 Char.toNat) := by
  rw [pack, regByte_regOfBytes (by simpa using h) hk, List.getElem?_map]
  cases name[k]? <;> rfl

/-! ### The statement -/

/-- Settles O8: the table by its definition, the slots by their bytes. -/
theorem registerTable : Obligations.RegisterTable := by
  have hwide {w : Nat} (hw : w ≤ 64) (v : BitVec w) : (v.setWidth 64).toNat = v.toNat := BitVec.toNat_setWidth_of_le hw
  refine ⟨fun s c => ⟨?status, rfl, rfl, rfl, rfl, rfl, rfl, rfl, hwide (by decide) _, hwide (by decide) _,
      hwide (by decide) _, hwide (by decide) _, hwide (by decide) _, rfl, hwide (by decide) _, hwide (by decide) _,
      rfl, rfl, rfl, rfl, rfl, fun num => register_above s c⟩,
    fun x num hn => ⟨rfl, portAt_portOffset hn⟩,
    fun v => ⟨regBytes_length v, fun k hk => ⟨regByte v k, regBytes_getElem? v hk, fun i hi => getLsbD_regByte v k hi⟩⟩,
    fun x num v hn => ⟨mappedWrite_regBytes v hn, mappedRead_eight hn⟩,
    fun s x num rest h hx hn hp => ⟨_, step_regRead_inside h hx hn hp, rfl⟩,
    fun offset bytes => mapped_none, fun name h k hk => regByte_pack h hk⟩
  case status =>
    obtain ⟨hfault, hopen, hv, hguard⟩ := status_bits c
    exact ⟨hfault, hopen, hv, hguard, fun k => status_above c⟩

end Sys2Proof.Machine
end

section
/-! SUPPORT. What a fault is and what a command leaves alone (60_exceptions R302, R320, 10_state R22, R29, R30, R39): the causes of
the checks, the frame of every effect; then the statements. -/

namespace Sys2Proof.Machine

/-! ### The causes a command can raise (60_exceptions R302) -/

theorem commitChecks_causes (cfg : Config) (m : ColMap) : ∀ k ∈ commitChecks cfg m, k.cause ∈ Instr.mapCommit.causes := by
  simp only [commitChecks, commitColumnChecks, commitSizeCheck, List.forall_mem_append, List.forall_mem_map,
    List.forall_mem_flatMap, List.forall_mem_cons]
  simp [Instr.causes]

theorem checksOf_causes (i : Instr) (s : State) : ∀ k ∈ checksOf i s, k.cause ∈ i.causes := by
  cases i
  case mapCommit => exact List.forall_mem_cons.2 ⟨by simp [Instr.causes], commitChecks_causes _ _⟩
  all_goals
    simp only [checksOf, State.laneAddressChecks, State.explicitChecks, State.recListChecks, List.forall_mem_append,
      List.forall_mem_map, List.forall_mem_cons]
    simp [Instr.causes]

/-! ### What an effect keeps of its context -/

/-- From `c` to `d` a command `i` has changed only what its row of the manual names: operands only under `COL_GET`, lane registers
only the destination, and never the recorded cause. -/
structure Context.Frame (i : Instr) (c d : Context) : Prop where
  operands : (∀ x, i ≠ .colGet x) → d.a0 = c.a0 ∧ d.a1 = c.a1 ∧ d.a2 = c.a2 ∧ d.a3 = c.a3
  lanes : ∀ n, i.laneWritten ≠ some n → d.lane n = c.lane n
  cause : d.fcode = c.fcode ∧ d.finfo = c.finfo

namespace Context.Frame

variable {i : Instr} {c d e : Context}

/-- An update outside operands, lanes and the recorded cause. -/
theorem outside (ha : d.a0 = c.a0 ∧ d.a1 = c.a1 ∧ d.a2 = c.a2 ∧ d.a3 = c.a3) (hv : d.v = c.v)
    (hcause : d.fcode = c.fcode ∧ d.finfo = c.finfo) : Context.Frame i c d :=
  ⟨fun _ => ha, fun n _ => by rw [Context.lane, hv, Context.lane], hcause⟩

theorem refl (c : Context) : Context.Frame i c c := outside ⟨rfl, rfl, rfl, rfl⟩ rfl ⟨rfl, rfl⟩

theorem trans (h : Context.Frame i c d) (h' : Context.Frame i d e) : Context.Frame i c e where
  operands hi := by
    obtain ⟨h0, h1, h2, h3⟩ := h.operands hi
    obtain ⟨h0', h1', h2', h3'⟩ := h'.operands hi
    exact ⟨h0'.trans h0, h1'.trans h1, h2'.trans h2, h3'.trans h3⟩
  lanes n hn := (h'.lanes n hn).trans (h.lanes n hn)
  cause := ⟨h'.cause.1.trans h.cause.1, h'.cause.2.trans h.cause.2⟩

theorem setLane {vd : Nat} (hi : i.laneWritten = some vd) (c : Context) (l : Lane) : Context.Frame i c (c.setLane vd l) where
  operands _ := ⟨rfl, rfl, rfl, rfl⟩
  lanes _ hn := lane_setLane_ne c l fun he => hn (he ▸ hi)
  cause := ⟨rfl, rfl⟩

end Context.Frame

/-- From `s` to `t` the command keeps to its frame and does not change the vector guard. -/
def State.FrameStep (i : Instr) (s t : State) : Prop := Context.Frame i s.here t.here ∧ t.here.vguard = s.here.vguard

theorem frameStep_put {i : Instr} {s : State} {c : Context} (h : Context.Frame i s.here c)
    (hguard : c.vguard = s.here.vguard) : State.FrameStep i s (s.put c) := by
  by_cases hc : s.cur < s.ctxs.length
  · rw [State.FrameStep, here_put s c hc]
    exact ⟨h, hguard⟩
  · rw [State.put, List.set_eq_of_length_le (Nat.le_of_not_lt hc)]
    exact ⟨.refl _, rfl⟩

/-- The frame of a command from a state outside a command: the guard is clear again afterwards (10_state R30). -/
def State.FrameKept (i : Instr) (s t : State) : Prop :=
  Context.Frame i s.here t.here ∧ (s.here.vguard = false → t.here.vguard = false)

theorem State.FrameStep.kept {i : Instr} {s t : State} (h : State.FrameStep i s t) : State.FrameKept i s t :=
  ⟨h.1, h.2.trans⟩

/-- The vector guard is clear after it has been cleared, in whatever context. -/
theorem setGuard_false_clear (s : State) : (s.setGuard false).here.vguard = false := by
  by_cases hc : s.cur < s.ctxs.length
  · rw [setGuard_eq, here_put _ _ hc]
  · rw [setGuard_eq, State.here, State.put, List.getD_eq_default _ _ (by simpa using Nat.le_of_not_lt hc)]
    rfl

theorem guarded_frame {i : Instr} {f : State → State} (hf : ∀ u, State.FrameStep i u (f u)) (s : State) (bk : Nat) :
    State.FrameKept i s (s.guarded bk f) := by
  have hguard (u : State) (b : Bool) : Context.Frame i u.here (u.setGuard b).here := by
    by_cases hc : u.cur < u.ctxs.length
    · rw [setGuard_eq, here_put _ _ hc]
      exact .outside ⟨rfl, rfl, rfl, rfl⟩ rfl ⟨rfl, rfl⟩
    · rw [setGuard_eq, State.put, List.set_eq_of_length_le (Nat.le_of_not_lt hc)]
      exact .refl _
  unfold State.guarded
  split
  · exact (hf s).kept
  · exact ⟨((hguard s true).trans (hf _).1).trans (hguard _ false), fun _ => setGuard_false_clear _⟩

theorem setRes_frame (i : Instr) (s : State) (v : Word) : State.FrameStep i s (s.setRes v) :=
  frameStep_put (.outside ⟨rfl, rfl, rfl, rfl⟩ rfl ⟨rfl, rfl⟩) rfl

theorem putLane_frame {i : Instr} {vd : Nat} (hi : i.laneWritten = some vd) (s : State) (w : Nat) (r : Nat → Byte) :
    State.FrameStep i s (s.putLane vd w r) :=
  frameStep_put (.setLane hi _ _) rfl

theorem effectOf_frame {i : Instr} {s t : State} (h : effectOf i s = .next t) : State.FrameKept i s t := by
  cases i
  case gen | genP | genPQ | genPQR =>
    rw [onBuffers_next h]
    refine guarded_frame ?_ s _
    exact fun u => ⟨.refl _, rfl⟩
  case recList | recP | recQ | recR | recPQ | recPR | recQR | recPQR =>
    rw [onBuffers_next h]
    refine guarded_frame ?_ s _
    exact fun u => frameStep_put (s := u) (.outside ⟨rfl, rfl, rfl, rfl⟩ rfl ⟨rfl, rfl⟩) rfl
  all_goals cases h
  case nop => exact ⟨.refl _, id⟩
  case mapOpen | colSet | mapCommit | mapClose =>
    refine State.FrameStep.kept (frameStep_put ?_ rfl)
    exact .outside ⟨rfl, rfl, rfl, rfl⟩ rfl ⟨rfl, rfl⟩
  case colGet c =>
    refine State.FrameStep.kept (frameStep_put ?_ rfl)
    exact ⟨fun hi => absurd rfl (hi c), fun _ _ => rfl, rfl, rfl⟩
  case bkGet | bkEnum | gfMul | gfExp2 | gfFixexp | gfPow2 | gfLog2 => exact (setRes_frame _ s _).kept
  case bkAuto => exact (setRes_frame .bkAuto s _).kept
  case bkSet =>
    dsimp only
    split
    · exact (setRes_frame _ s _).kept
    · split <;> exact (setRes_frame .bkSet s _).kept
  case laneWidth => exact guarded_frame (fun u => setRes_frame _ u _) s _
  case laneLoad | laneXor | laneMul2 | laneMul4 | laneMulc => exact guarded_frame (fun u => putLane_frame rfl u _ _) s _
  case laneStore =>
    refine guarded_frame ?_ s _
    exact fun u => ⟨.refl _, rfl⟩

/-! ### What an effect keeps of buffer memory (20_memory R71) -/

theorem guarded_keeps_mem {f : State → State} (hf : ∀ u, (f u).mem = u.mem) (s : State) (bk : Nat) :
    (s.guarded bk f).mem = s.mem := by
  unfold State.guarded
  split
  · exact hf s
  · exact hf _

theorem effectOf_mem {i : Instr} {s t : State} (hi : i.compute = false) (hstore : ∀ bk vs, i ≠ .laneStore bk vs)
    (h : effectOf i s = .next t) : t.mem = s.mem := by
  cases i
  case gen | genP | genPQ | genPQR => cases hi
  case recList | recP | recQ | recR | recPQ | recPR | recQR | recPQR => cases hi
  case laneStore bk vs => exact absurd rfl (hstore bk vs)
  all_goals cases h
  case nop | mapOpen | colSet | colGet | mapCommit | mapClose => rfl
  case bkAuto | bkGet | bkEnum | gfMul | gfExp2 | gfFixexp | gfPow2 | gfLog2 => rfl
  case bkSet =>
    dsimp only
    split
    · rfl
    · split <;> rfl
  case laneWidth | laneLoad | laneXor | laneMul2 | laneMul4 | laneMulc =>
    refine guarded_keeps_mem ?_ s _
    exact fun _ => rfl

/-! ### The statements -/

/-- Settles O13: a running context is faulted only by the fault entry of one of its checks. -/
theorem faultEntryChangesNothingElse : Obligations.FaultEntryChangesNothingElse := by
  refine ⟨fun i s t hs h ht => ?_, fun s e v => rfl, by decide⟩
  obtain ⟨-, k, hk, -, rfl⟩ | ⟨hrun, -, -⟩ := exec_running hs.present hs.running h
  · exact ⟨k.cause, checksOf_causes i s k hk, k.info, rfl⟩
  · cases hrun.symm.trans ht

/-- Settles O21: a fault entry writes none of these but the recorded cause, together with `FAULT`; an effect keeps to its
frame. -/
theorem operandsAndLanesFrame : Obligations.OperandsAndLanesFrame := by
  intro i s t h
  obtain ⟨-, hr⟩ | ⟨hf, k, -, -, hr⟩ | ⟨-, -, hr⟩ := exec_cases h
  case inl =>
    cases hr
    exact ⟨fun _ => ⟨rfl, rfl, rfl, rfl⟩, fun _ _ => rfl, fun _ => ⟨rfl, rfl⟩, id⟩
  case inr.inl =>
    cases hr
    have hkept {α : Type} (f : Context → α)
        (h : f { s.here with fault := true, fcode := Word.ofNat k.cause.code, finfo := k.info } = f s.here) :
        f (s.takeFault k.cause k.info).here = f s.here := put_keeps f h
    refine ⟨fun _ => ⟨hkept Context.a0 rfl, hkept Context.a1 rfl, hkept Context.a2 rfl, hkept Context.a3 rfl⟩,
      fun n _ => hkept (fun c => c.lane n) rfl, fun hsame => ?_, fun hv => (hkept Context.vguard rfl).trans hv⟩
    by_cases hc : s.cur < s.ctxs.length
    · rw [takeFault_here hc, hf] at hsame
      cases hsame
    · rw [takeFault_eq, State.put, List.set_eq_of_length_le (Nat.le_of_not_lt hc)]
      exact ⟨rfl, rfl⟩
  case inr.inr =>
    obtain ⟨⟨hoperands, hlanes, hcause⟩, hguard⟩ := effectOf_frame hr.symm
    exact ⟨hoperands, hlanes, fun _ => hcause, hguard⟩

/-- Settles O23: a fault entry writes no memory, and the effect of the command neither. -/
theorem nonStoringCommandsKeepMemory : Obligations.NonStoringCommandsKeepMemory := by
  intro i s t h hi hstore
  have hmem : t.mem = s.mem := by
    obtain ⟨-, hr⟩ | ⟨-, k, -, -, hr⟩ | ⟨-, -, hr⟩ := exec_cases h
    · cases hr
      rfl
    · cases hr
      rfl
    · exact effectOf_mem hi hstore hr.symm
  exact ⟨hmem, fun a => by rw [hmem]⟩

end Sys2Proof.Machine
end

section
/-! SUPPORT. What whether a command faults, stops or completes does not read (41_lane R160, 45_dispatch R288): the checks read
neither lanes nor memory nor the backend of a map, the premise only the buffers; then the statement. -/

namespace Sys2Proof.Machine

/-! ### Faulting and completing, in terms of the checks -/

theorem code_injective {e e' : Cause} (h : Word.ofNat e.code = Word.ofNat e'.code) : e = e' := by
  revert h
  cases e <;> cases e' <;> decide

theorem takeFault_injective {s : State} (hc : s.cur < s.ctxs.length) {e e' : Cause} {v v' : Word}
    (h : s.takeFault e v = s.takeFault e' v') : e = e' ∧ v = v' := by
  have hhere := congrArg State.here h
  rw [takeFault_here hc, takeFault_here hc] at hhere
  exact ⟨code_injective (congrArg Context.fcode hhere), congrArg Context.finfo hhere⟩

/-- A running context takes a fault exactly when it is that of its first failing check. -/
theorem exec_takeFault_iff {i : Instr} {s : State} (hs : s.Ready) (e : Cause) (v : Word) :
    exec i s = .next (s.takeFault e v) ↔
      ∃ k, (checksOf i s).find? Check.bad = some k ∧ k.cause = e ∧ k.info = v := by
  have hrun := hs.running
  rw [exec_eq_issue, State.issue]
  simp only [hrun, Bool.false_eq_true, if_false]
  cases hk : (checksOf i s).find? Check.bad with
  | some k =>
    simp only [Host.Outcome.next.injEq, Option.some.injEq, exists_eq_left']
    refine ⟨takeFault_injective hs.present, ?_⟩
    rintro ⟨rfl, rfl⟩
    rfl
  | none =>
    refine iff_of_false (fun h => ?_) (by simp)
    have hfault := effectOf_fault h
    rw [takeFault_here hs.present, hrun] at hfault
    cases hfault

/-- A running context completes exactly when the checks pass and the effect does not stop. -/
theorem exec_completes_iff {i : Instr} {s : State} (hs : s.Ready) :
    (∃ t, exec i s = .next t ∧ t.here.fault = false) ↔
      (∀ k ∈ checksOf i s, k.bad = false) ∧ ∃ t, effectOf i s = .next t := by
  refine ⟨fun ⟨t, h, ht⟩ => ?_, fun ⟨hpass, t, ht⟩ => ?_⟩
  · obtain ⟨hpass, heff⟩ := exec_completed hs h ht
    exact ⟨hpass, t, heff⟩
  · exact ⟨t, (exec_passed hs.running hpass).trans ht, (effectOf_fault ht).trans hs.running⟩

/-! ### The premise reads the buffers only (20_memory R72) -/

/-- The context and memory replaced, with the same buffers: the premise answers the same. -/
theorem onBuffers_put {s : State} (hc : s.cur < s.ctxs.length) {c : Context} (hbuf : c.map.buffers = s.here.map.buffers)
    (m : Memory) (effect : Result) : ({ s.put c with mem := m } : State).onBuffers effect = s.onBuffers effect := by
  have hhere : ({ s.put c with mem := m } : State).here = c := here_put s c hc
  have helse : ({ s.put c with mem := m } : State).mapsElsewhere = s.mapsElsewhere := by
    simp [State.mapsElsewhere, List.eraseIdx_set_eq]
  have happart : c.map.apartFrom = s.here.map.apartFrom := by
    funext n
    rw [ColMap.apartFrom, hbuf, ColMap.apartFrom]
  simp only [State.onBuffers, hhere, helse, happart, ColMap.inside, ColMap.disjointCols, hbuf]
  rfl

/-- Whether an effect stops is the premise's answer, for a compute command; the others do not stop. -/
theorem effectOf_next_put {i : Instr} {s t : State} (hc : s.cur < s.ctxs.length) {c : Context}
    (hbuf : c.map.buffers = s.here.map.buffers) (m : Memory) (h : effectOf i s = .next t) :
    ∃ u, effectOf i { s.put c with mem := m } = .next u := by
  cases hi : i.compute with
  | false => exact effectOf_next hi _
  | true =>
    obtain ⟨t', ht'⟩ := effectOf_compute hi s
    obtain ⟨u, hu⟩ := effectOf_compute hi { s.put c with mem := m }
    obtain ⟨-, hr⟩ | ⟨-, hr | hr⟩ | ⟨hown, -⟩ := onBuffers_cases (ht'.symm.trans h)
    · cases hr
    · cases hr
    · cases hr
    · exact ⟨u, by rw [hu, onBuffers_put hc hbuf, onBuffers_own _ hown]⟩

/-! ### Other lanes and other memory -/

theorem ready_put_mem {s : State} (hs : s.Ready) {c : Context} (hf : c.fault = false) (hg : c.vguard = false) (m : Memory) :
    ({ s.put c with mem := m } : State).Ready where
  present := by simpa using hs.present
  running := by rw [here_mem_update, here_put _ _ hs.present, hf]
  outside := by rw [here_mem_update, here_put _ _ hs.present, hg]

/-- No check reads a lane register or memory. -/
theorem checksOf_data {s : State} (hc : s.cur < s.ctxs.length) (i : Instr) (m : Memory) (lanes : Vector Lane 16) :
    checksOf i { s.put { s.here with v := lanes } with mem := m } = checksOf i s := by
  have hhere : ({ s.put { s.here with v := lanes } with mem := m } : State).here = { s.here with v := lanes } :=
    here_put s _ hc
  cases i <;> simp only [checksOf, State.laneAddressChecks, State.explicitChecks, State.recListChecks, hhere] <;> rfl

/-! ### The statement -/

/-- Settles O17: the first failing check and the premise are the same whatever the data. -/
theorem faultsIgnoreData : Obligations.FaultsIgnoreData := by
  intro i s m lanes hs
  have hs' := ready_put_mem hs (c := { s.here with v := lanes }) hs.running hs.outside m
  refine ⟨fun e v h => ?fault, fun h => ?completes⟩
  case fault => rwa [exec_takeFault_iff hs', checksOf_data hs.present, ← exec_takeFault_iff hs]
  case completes =>
    obtain ⟨hpass, t, ht⟩ := (exec_completes_iff hs).1 h
    rw [exec_completes_iff hs', checksOf_data hs.present]
    exact ⟨hpass, effectOf_next_put (c := { s.here with v := lanes }) hs.present rfl m ht⟩

end Sys2Proof.Machine
end

section
/-! SUPPORT. Sums of bytes over columns (43_generation R212, R221, R223): the sum is additive, so parity is linear; then the
statements. -/

namespace Sys2Proof.Machine

/-! ### Sums of bytes -/

theorem xorSum_map_xor {α : Type} (f g : α → Byte) (l : List α) :
    xorSum (l.map fun c => f c ^^^ g c) = xorSum (l.map f) ^^^ xorSum (l.map g) := by
  induction l with
  | nil => simp [xorSum]
  | cons c l ih =>
    simp only [List.map_cons, xorSum_cons, ih]
    ac_rfl

theorem xorSum_map_zero {α : Type} (l : List α) : xorSum (l.map fun _ => 0#8) = 0 := by
  induction l with
  | nil => rfl
  | cons c l ih =>
    rw [List.map_cons, xorSum_cons, ih]
    rfl

/-- The sum over a list is the sum over the entries with a property and the sum over those without it. -/
theorem xorSum_filter {α : Type} (p : α → Bool) (f : α → Byte) (l : List α) :
    xorSum (l.map f) = xorSum ((l.filter p).map f) ^^^ xorSum ((l.filter fun c => !p c).map f) := by
  induction l with
  | nil => simp [xorSum]
  | cons c l ih =>
    cases hp : p c <;> simp only [List.map_cons, xorSum_cons, List.filter_cons, hp, ih, Bool.not_false, Bool.not_true, if_true,
      Bool.false_eq_true, if_false] <;> ac_rfl

/-- Entries counted as 0 may be left out of the sum. -/
theorem xorSum_ite_zero {α : Type} (p : α → Bool) (f : α → Byte) (l : List α) :
    xorSum (l.map fun c => if p c then 0 else f c) = xorSum ((l.filter fun c => !p c).map f) := by
  induction l with
  | nil => rfl
  | cons c l ih =>
    rw [List.map_cons, xorSum_cons, ih, List.filter_cons]
    cases p c with
    | false => rfl
    | true => exact BitVec.zero_xor

/-! ### The recurrence over any bytes (43_generation R212, R213) -/

/-- `HornerIsSum` for any choice of one byte per data column. -/
theorem horner_dataCols (m : ColMap) (k : Par) (D : Nat → Byte) :
    k.horner (m.dataCols.map D) = xorSum (m.dataCols.map fun c => gfmul (D c) (m.coef k c)) := by
  rw [horner_eq_foldl, ColMap.dataCols, foldl_step, dbl_iterate_zero, BitVec.zero_xor]
  refine congrArg xorSum (List.map_congr_left fun c hc => ?_)
  have hdist : m.p + (m.ncols - m.p) - 1 - c = m.dist c := by
    rw [List.mem_range'_1] at hc
    unfold ColMap.dist
    omega
  rw [hdist, coef_eq_pow2, gfmul_pow2]

/-! ### The statements -/

/-- Settles O50: each step of the recurrence doubles what it has, so a column's byte is doubled once per later column. -/
theorem hornerIsSum : Obligations.HornerIsSum := genByte_eq_sumByte

/-- Settles O52: one column makes no step; the sum is additive because the product is. -/
theorem parityIsLinear : Obligations.ParityIsLinear := by
  intro m j o
  refine ⟨fun mem h1 => ?copy, fun mem mem' mem'' h => ?linear, fun mem h => ?zero⟩
  case copy =>
    have hone : m.dataCols = [m.p] := by rw [ColMap.dataCols, h1, Nat.add_sub_cancel_left, List.range'_one]
    rw [ColMap.genByte, hone]
    rfl
  case linear =>
    rw [genByte_eq_sumByte, genByte_eq_sumByte, genByte_eq_sumByte, ColMap.sumByte, ColMap.sumByte, ColMap.sumByte,
      ← xorSum_map_xor]
    refine congrArg xorSum (List.map_congr_left fun c hc => ?_)
    obtain ⟨hp, hn⟩ := (mem_dataCols m c).1 hc
    rw [h c hp hn, gfmul_xor_left]
  case zero =>
    rw [genByte_eq_sumByte, ColMap.sumByte, ← xorSum_map_zero m.dataCols]
    refine congrArg xorSum (List.map_congr_left fun c hc => ?_)
    obtain ⟨hp, hn⟩ := (mem_dataCols m c).1 hc
    rw [h c hp hn]
    exact zero_gfmul _

end Sys2Proof.Machine
end

section
/-! SUPPORT. The systems of the seven cases (44_reconstruction R233, R234): their solutions over any commutative ring, bytes as such
a ring, the coefficients of the solver as powers of 2; then the statement. -/

namespace Sys2Proof.Machine

/-! ### The systems over a commutative ring -/

section
variable {A : Type} [CommRing A]

/-- One target: a unit coefficient. -/
theorem solve_one {u i S x : A} (hi : i * u = 1) : S = u * x ↔ x = S * i := by
  constructor
  · rintro rfl
    linear_combination (-x) * hi
  · rintro rfl
    linear_combination (-S) * hi

/-- Two targets with the plain sum and one weighted sum (44_reconstruction R246). -/
theorem solve_sum_weighted {u v cP cS P S x y : A} (hP : cP * (v - u) = v) (hS : cS * (v - u) = 1) :
    (P = x + y ∧ S = u * x + v * y) ↔ x = P * cP - S * cS ∧ y = P - x := by
  have hratio : cP = v * cS := by linear_combination cS * hP - cP * hS
  constructor
  · rintro ⟨rfl, rfl⟩
    refine ⟨?_, by ring⟩
    linear_combination (-(x + y)) * hratio - x * hS
  · rintro ⟨rfl, rfl⟩
    refine ⟨by ring, ?_⟩
    linear_combination P * hP - S * hS

/-- Two targets with two weighted sums whose weights are those of the first and their squares (44_reconstruction R250). -/
theorem solve_weighted_weighted {u v xQ xR yQ yR Q R x y : A} (hxQ : xQ * (u * (v - u)) = v) (hxR : xR * (u * (v - u)) = 1)
    (hyQ : yQ * (v * (u - v)) = u) (hyR : yR * (v * (u - v)) = 1) :
    (Q = u * x + v * y ∧ R = u * u * x + v * v * y) ↔ x = Q * xQ - R * xR ∧ y = Q * yQ - R * yR := by
  obtain rfl : xQ = v * xR := by linear_combination xR * hxQ - xQ * hxR
  obtain rfl : yQ = u * yR := by linear_combination yR * hyQ - yQ * hyR
  have hopposite : v * yR = -(u * xR) := by linear_combination -(u * xR) * hyR - (v * yR) * hxR
  constructor
  · rintro ⟨rfl, rfl⟩
    refine ⟨?_, ?_⟩
    · linear_combination -x * hxR
    · linear_combination -y * hyR
  · rintro ⟨rfl, rfl⟩
    refine ⟨?_, ?_⟩
    · linear_combination -(Q * u - R) * hopposite - Q * hxR
    · linear_combination -(v * (Q * u - R)) * hopposite - R * hxR

/-- Three targets (44_reconstruction R253 to R255), with the pivots `(u - v) (u - w)` and `(v - u) (v - w)`. -/
theorem solve_three {u v w xP xQ xR yP yQ yR P Q R x y z : A} (hxP : xP * ((u - v) * (u - w)) = v * w)
    (hxQ : xQ * ((u - v) * (u - w)) = v + w) (hxR : xR * ((u - v) * (u - w)) = 1)
    (hyP : yP * ((v - u) * (v - w)) = u * w) (hyQ : yQ * ((v - u) * (v - w)) = u + w)
    (hyR : yR * ((v - u) * (v - w)) = 1) :
    (P = x + y + z ∧ Q = u * x + v * y + w * z ∧ R = u * u * x + v * v * y + w * w * z) ↔
      x = P * xP - Q * xQ + R * xR ∧ y = P * yP - Q * yQ + R * yR ∧ z = P - x - y := by
  obtain rfl : xP = v * w * xR := by linear_combination xR * hxP - xP * hxR
  obtain rfl : xQ = (v + w) * xR := by linear_combination xR * hxQ - xQ * hxR
  obtain rfl : yP = u * w * yR := by linear_combination yR * hyP - yP * hyR
  obtain rfl : yQ = (u + w) * yR := by linear_combination yR * hyQ - yQ * hyR
  have hopposite : yR * (v - w) = -(xR * (u - w)) := by
    linear_combination -(xR * (u - w)) * hyR - (yR * (v - w)) * hxR
  constructor
  · rintro ⟨rfl, rfl, rfl⟩
    refine ⟨?_, ?_, by ring⟩
    · linear_combination -x * hxR
    · linear_combination -y * hyR
  · rintro ⟨rfl, rfl, rfl⟩
    refine ⟨by ring, ?_, ?_⟩
    · linear_combination -(P * u * w - Q * (u + w) + R) * hopposite - (Q - w * P) * hxR
    · linear_combination -((v + w) * (P * u * w - Q * (u + w) + R)) * hopposite - (R - w * w * P) * hxR

end

/-! ### Bytes as a commutative ring (40_field R131) -/

/-- The field of the engine as a type of its own, apart from the arithmetic of 8-bit numbers. -/
def GF : Type := Byte

/-- The field is a commutative ring in Mathlib's sense; a byte is its own negative, so that a difference is a sum. -/
@[reducible] def gfRing : CommRing GF :=
  letI : Add GF := ⟨@BitVec.xor 8⟩
  letI : Mul GF := ⟨gfmul⟩
  letI : Neg GF := ⟨id⟩
  letI : Zero GF := ⟨0#8⟩
  letI : One GF := ⟨1#8⟩
  CommRing.ofMinimalAxioms (@BitVec.xor_assoc 8) (@BitVec.zero_xor 8) (@BitVec.xor_self 8) gfmul_assoc gfmul_comm
    (fun a => (gfmul_comm 1 a).trans (gfmul_one a)) gfmul_xor_right

/-! ### Exponents of the coefficients (44_reconstruction R240) -/

theorem timesPow_congr (v : Byte) {j k : Int} (h : j % 255 = k % 255) : timesPow v j = timesPow v k := by
  rw [timesPow_eq, timesPow_eq, (powZ_eq_iff j k).2 h]

theorem m255_cast (e : Int) : (m255 e : Int) = e % 255 := by
  unfold m255
  omega

theorem gfmul_powZ_lg (e : Int) {a : Byte} (h : a ≠ 0) : gfmul (powZ e) a = powZ (e + lg a) := by rw [powZ_add, powZ_lg h]

theorem xor_ne_zero {a b : Byte} (h : a ≠ b) : a ^^^ b ≠ 0 := by simpa using h

/-! ### The solver's bytes with their exponents unreduced (44_reconstruction R246 to R255) -/

/-- The log of `1 / (2^e + 1)` (44_reconstruction R246). -/
def tailLog (e : Int) : Int := -(lg (powZ e ^^^ 1) : Int)

theorem solveWithP_eq (form : Form) (k : Int) (ex ey : Nat) (P S : Byte) :
    solveWithP form k ex ey P S =
      let t := tailLog (k * ((ey : Int) - ex))
      let dx := timesPow P (k * ((ey : Int) - ex) + t) ^^^ timesPow S (-k * (ex : Int) + t)
      [dx, P ^^^ dx] := by
  have hsum (v : Byte) (i j : Int) : timesPow v ((m255 i : Int) + m255 j) = timesPow v (i + j) :=
    timesPow_congr v (by rw [m255_cast, m255_cast, ← Int.add_emod])
  simp only [solveWithP, mlog_m255, hsum]
  rfl

theorem solveQR_eq (form : Form) (ex ey : Nat) (Q R : Byte) :
    solveQR form ex ey Q R =
      let ld : Int := lg (pow2 ex ^^^ pow2 ey)
      [timesPow Q ((ey : Int) - ex - ld) ^^^ timesPow R (-(ex : Int) - ld),
        timesPow Q ((ex : Int) - ey - ld) ^^^ timesPow R (-(ey : Int) - ld)] := by
  simp only [solveQR, mlog_m255]

theorem solvePQR_eq (form : Form) (ex ey ez : Nat) (P Q R : Byte) :
    solvePQR form ex ey ez P Q R =
      let lxd : Int := lg (pow2 ex ^^^ pow2 ey) + lg (pow2 ex ^^^ pow2 ez)
      let lyd : Int := lg (pow2 ey ^^^ pow2 ex) + lg (pow2 ey ^^^ pow2 ez)
      let dx := timesPow P ((ey : Int) + ez - lxd) ^^^ timesPow Q (lg (pow2 ey ^^^ pow2 ez) - lxd) ^^^ timesPow R (-lxd)
      let dy := timesPow P ((ex : Int) + ez - lyd) ^^^ timesPow Q (lg (pow2 ex ^^^ pow2 ez) - lyd) ^^^ timesPow R (-lyd)
      [dx, dy, P ^^^ dx ^^^ dy] := by
  have hsub (v : Byte) (i j : Int) : timesPow v (i - m255 j) = timesPow v (i - j) :=
    timesPow_congr v (by rw [m255_cast, Int.sub_emod_emod])
  have hneg (v : Byte) (j : Int) : timesPow v (-(m255 j : Int)) = timesPow v (-j) := by
    rw [← Int.zero_sub, hsub, Int.zero_sub]
  simp only [solvePQR, mlog_m255, hsub, hneg]

/-! ### The solutions in the field -/

theorem powZ_lg_xor {j k : Int} (h : powZ j ≠ powZ k) : powZ j ^^^ powZ k = powZ (lg (powZ j ^^^ powZ k)) :=
  (powZ_lg (xor_ne_zero h)).symm

/-- Products of powers, with their exponents compared. -/
theorem gfmul_powZ_eq {i j k : Int} (h : i + j = k) : gfmul (powZ i) (powZ j) = powZ k := by rw [← powZ_add, h]

/-- Cases 4 and 5, for the weights `2^(k E(x))` and `2^(k E(y))` (44_reconstruction R246). -/
theorem solveWithP_iff (form : Form) {k : Int} {ex ey : Nat} (hne : powZ (k * ex) ≠ powZ (k * ey)) (P S x y : Byte) :
    (P = x ^^^ y ∧ S = gfmul (powZ (k * ex)) x ^^^ gfmul (powZ (k * ey)) y) ↔ solveWithP form k ex ey P S = [x, y] := by
  have hratio : powZ (k * ((ey : Int) - ex)) ≠ 1 := by
    rw [← powZ_zero, Ne, powZ_eq_iff, mul_sub]
    rw [Ne, powZ_eq_iff] at hne
    omega
  have hpivot : powZ (k * ey) ^^^ powZ (k * ex) = powZ (k * ex - tailLog (k * ((ey : Int) - ex))) := by
    rw [tailLog, sub_neg_eq_add, ← gfmul_powZ_lg _ (xor_ne_zero hratio), gfmul_xor_right, gfmul_one, ← powZ_add]
    congr 2
    ring
  have hsolve := @solve_sum_weighted GF gfRing (powZ (k * ex)) (powZ (k * ey))
    (powZ (k * ((ey : Int) - ex) + tailLog (k * ((ey : Int) - ex)))) (powZ (-k * ex + tailLog (k * ((ey : Int) - ex)))) P S x y
    ((congrArg (gfmul _) hpivot).trans (gfmul_powZ_eq (by ring)))
    ((congrArg (gfmul _) hpivot).trans ((gfmul_powZ_eq (by ring)).trans powZ_zero))
  rw [solveWithP_eq]
  refine hsolve.trans ⟨fun ⟨hx, hy⟩ => ?_, fun h => ?_⟩
  · subst hy
    subst hx
    rfl
  · simp only [List.cons.injEq, and_true] at h
    obtain ⟨rfl, rfl⟩ := h
    exact ⟨rfl, rfl⟩

/-- Case 6 (44_reconstruction R250). -/
theorem solveQR_iff (form : Form) {ex ey : Nat} (hne : powZ ex ≠ powZ ey) (Q R x y : Byte) :
    (Q = gfmul (powZ ex) x ^^^ gfmul (powZ ey) y ∧
      R = gfmul (gfmul (powZ ex) (powZ ex)) x ^^^ gfmul (gfmul (powZ ey) (powZ ey)) y) ↔ solveQR form ex ey Q R = [x, y] := by
  have hxy := powZ_lg_xor hne
  have hyx := (BitVec.xor_comm (powZ ey) (powZ ex)).trans hxy
  have hpivot (e : Int) : gfmul (powZ e) (powZ (lg (powZ ex ^^^ powZ ey))) = powZ (e + lg (powZ ex ^^^ powZ ey)) :=
    gfmul_powZ_eq rfl
  have hx (i : Int) := (congrArg (fun d => gfmul (powZ i) (gfmul (powZ ex) d)) hyx).trans (congrArg (gfmul _) (hpivot _))
  have hy (i : Int) := (congrArg (fun d => gfmul (powZ i) (gfmul (powZ ey) d)) hxy).trans (congrArg (gfmul _) (hpivot _))
  have hsolve := @solve_weighted_weighted GF gfRing (powZ ex) (powZ ey)
    (powZ ((ey : Int) - ex - lg (powZ ex ^^^ powZ ey))) (powZ (-(ex : Int) - lg (powZ ex ^^^ powZ ey)))
    (powZ ((ex : Int) - ey - lg (powZ ex ^^^ powZ ey))) (powZ (-(ey : Int) - lg (powZ ex ^^^ powZ ey))) Q R x y
    ((hx _).trans (gfmul_powZ_eq (by ring))) ((hx _).trans ((gfmul_powZ_eq (by ring)).trans powZ_zero))
    ((hy _).trans (gfmul_powZ_eq (by ring))) ((hy _).trans ((gfmul_powZ_eq (by ring)).trans powZ_zero))
  rw [solveQR_eq, ← powZ_natCast, ← powZ_natCast]
  refine hsolve.trans ?_
  simp only [List.cons.injEq, and_true]
  exact and_congr eq_comm eq_comm

/-- Case 7 (44_reconstruction R253 to R255). -/
theorem solvePQR_iff (form : Form) {ex ey ez : Nat} (hxy : powZ ex ≠ powZ ey) (hxz : powZ ex ≠ powZ ez) (hyz : powZ ey ≠ powZ ez)
    (P Q R x y z : Byte) :
    (P = x ^^^ y ^^^ z ∧ Q = gfmul (powZ ex) x ^^^ gfmul (powZ ey) y ^^^ gfmul (powZ ez) z ∧
      R = gfmul (gfmul (powZ ex) (powZ ex)) x ^^^ gfmul (gfmul (powZ ey) (powZ ey)) y ^^^
        gfmul (gfmul (powZ ez) (powZ ez)) z) ↔ solvePQR form ex ey ez P Q R = [x, y, z] := by
  have hpivot {j k l : Int} (hjk : powZ j ≠ powZ k) (hjl : powZ j ≠ powZ l) :
      gfmul (powZ j ^^^ powZ k) (powZ j ^^^ powZ l) = powZ (lg (powZ j ^^^ powZ k) + lg (powZ j ^^^ powZ l)) := by
    rw [powZ_add, ← powZ_lg_xor hjk, ← powZ_lg_xor hjl]
  have hx := hpivot hxy hxz
  have hy := hpivot hxy.symm hyz
  have hsolve := @solve_three GF gfRing (powZ ex) (powZ ey) (powZ ez)
    (powZ ((ey : Int) + ez - (lg (powZ ex ^^^ powZ ey) + lg (powZ ex ^^^ powZ ez))))
    (powZ (lg (powZ ey ^^^ powZ ez) - (lg (powZ ex ^^^ powZ ey) + lg (powZ ex ^^^ powZ ez))))
    (powZ (-(lg (powZ ex ^^^ powZ ey) + lg (powZ ex ^^^ powZ ez))))
    (powZ ((ex : Int) + ez - (lg (powZ ey ^^^ powZ ex) + lg (powZ ey ^^^ powZ ez))))
    (powZ (lg (powZ ex ^^^ powZ ez) - (lg (powZ ey ^^^ powZ ex) + lg (powZ ey ^^^ powZ ez))))
    (powZ (-(lg (powZ ey ^^^ powZ ex) + lg (powZ ey ^^^ powZ ez)))) P Q R x y z
    ((congrArg (gfmul _) hx).trans ((gfmul_powZ_eq (by ring)).trans (powZ_add ey ez)))
    ((congrArg (gfmul _) hx).trans ((gfmul_powZ_eq (by ring)).trans (powZ_lg_xor hyz).symm))
    ((congrArg (gfmul _) hx).trans ((gfmul_powZ_eq (by ring)).trans powZ_zero))
    ((congrArg (gfmul _) hy).trans ((gfmul_powZ_eq (by ring)).trans (powZ_add ex ez)))
    ((congrArg (gfmul _) hy).trans ((gfmul_powZ_eq (by ring)).trans (powZ_lg_xor hxz).symm))
    ((congrArg (gfmul _) hy).trans ((gfmul_powZ_eq (by ring)).trans powZ_zero))
  rw [solvePQR_eq, ← powZ_natCast, ← powZ_natCast, ← powZ_natCast]
  refine hsolve.trans ⟨fun ⟨hx, hy, hz⟩ => ?_, fun h => ?_⟩
  · subst hz
    subst hy
    subst hx
    rfl
  · simp only [List.cons.injEq, and_true] at h
    obtain ⟨rfl, rfl, rfl⟩ := h
    exact ⟨rfl, rfl, rfl⟩

/-! ### The systems of the cases (44_reconstruction R233) -/

theorem one_gfmul (a : Byte) : gfmul 1#8 a = a := (gfmul_comm _ _).trans (gfmul_one a)

theorem coef_P (m : ColMap) (c : Nat) : m.coef .P c = 1 := rfl

theorem coef_Q (m : ColMap) (c : Nat) : m.coef .Q c = powZ (m.dist c) := (powZ_natCast _).symm

theorem coef_R (m : ColMap) (c : Nat) : m.coef .R c = powZ (2 * m.dist c) := rfl

theorem powZ_two_mul (e : Int) : powZ (2 * e) = gfmul (powZ e) (powZ e) := by rw [two_mul, powZ_add]

/-- With at most 255 data columns, different data columns have different weights, in `Q` and in `R` (43_generation R210). -/
theorem weights_differ {m : ColMap} (hn : m.ncols ≤ m.p + ndataMax) {x y : Nat} (hx : m.p ≤ x) (hxy : x < y)
    (hy : y < m.ncols) : powZ (m.dist x) ≠ powZ (m.dist y) ∧ powZ (2 * m.dist x) ≠ powZ (2 * m.dist y) := by
  have hbound : m.ncols ≤ m.p + 255 := hn
  rw [Ne, Ne, powZ_eq_iff, powZ_eq_iff, ColMap.dist, ColMap.dist]
  omega

theorem solve_length (k : RecCase) (form : Form) (m : ColMap) (P Q R : Byte) :
    (k.solve form m P Q R).length = k.targets.length := by cases k <;> rfl

/-- One target whose weight is `2^e`. -/
theorem solve_weight (e : Int) (S x : Byte) : S = gfmul (powZ e) x ↔ timesPow S (-e) = x :=
  (@solve_one GF gfRing (powZ e) (powZ (-e)) S x ((gfmul_powZ_eq (by ring)).trans powZ_zero)).trans eq_comm

/-- Settles O58: each case inverts its system over the field of bytes, whose weights differ. -/
theorem solveIsTheUniqueSolution : Obligations.SolveIsTheUniqueSolution := by
  intro form m k syn xs hk hn
  have hne := hk.increasing.imp_of_mem fun {x y} hx hy hxy => weights_differ hn (hk.data x hx).1 hxy (hk.data y hy).2
  by_cases hl : xs.length = k.targets.length
  case neg => exact iff_of_false (fun h => hl h.1) (fun h => hl (h ▸ solve_length _ _ _ _ _ _))
  rw [RecCase.Solves, and_iff_right hl]
  cases k with
  | p x =>
    obtain ⟨a, rfl⟩ := List.length_eq_one_iff.1 hl
    simp [RecCase.rows, RecCase.targets, RecCase.solve, xorSum, coef_P, one_gfmul]
  | q x =>
    obtain ⟨a, rfl⟩ := List.length_eq_one_iff.1 hl
    simpa [RecCase.rows, RecCase.targets, RecCase.solve, xorSum, coef_Q, mlog_m255] using solve_weight _ _ _
  | r x =>
    obtain ⟨a, rfl⟩ := List.length_eq_one_iff.1 hl
    simpa [RecCase.rows, RecCase.targets, RecCase.solve, xorSum, coef_R, mlog_m255] using solve_weight _ _ _
  | pq x y =>
    obtain ⟨a, b, rfl⟩ := List.length_eq_two.1 hl
    have hxy := List.pairwise_pair.1 hne
    have h := solveWithP_iff form (k := 1) (ex := m.dist x) (ey := m.dist y) (by simpa using hxy.1) (syn .P) (syn .Q) a b
    simpa [RecCase.rows, RecCase.targets, RecCase.solve, xorSum, coef_P, coef_Q, one_gfmul] using h
  | pr x y =>
    obtain ⟨a, b, rfl⟩ := List.length_eq_two.1 hl
    have hxy := List.pairwise_pair.1 hne
    have h := solveWithP_iff form (k := 2) (ex := m.dist x) (ey := m.dist y) hxy.2 (syn .P) (syn .R) a b
    simpa [RecCase.rows, RecCase.targets, RecCase.solve, xorSum, coef_P, coef_R, one_gfmul] using h
  | qr x y =>
    obtain ⟨a, b, rfl⟩ := List.length_eq_two.1 hl
    have hxy := List.pairwise_pair.1 hne
    have h := solveQR_iff form hxy.1 (syn .Q) (syn .R) a b
    simpa [RecCase.rows, RecCase.targets, RecCase.solve, xorSum, coef_Q, coef_R, powZ_two_mul] using h
  | pqr x y z =>
    obtain ⟨a, b, c, rfl⟩ := List.length_eq_three.1 hl
    obtain ⟨hx, hyz⟩ := List.pairwise_cons.1 hne
    have h := solvePQR_iff form (hx y (by simp)).1 (hx z (by simp)).1 (List.pairwise_pair.1 hyz).1
      (syn .P) (syn .Q) (syn .R) a b c
    simpa [RecCase.rows, RecCase.targets, RecCase.solve, xorSum, coef_P, coef_Q, coef_R, one_gfmul, powZ_two_mul,
      BitVec.xor_assoc] using h

end Sys2Proof.Machine
end

section
/-! SUPPORT. What a reconstruction leaves in memory (44_reconstruction R232 to R237): in each target column the solve of the
syndromes, per offset, and elsewhere what was there; then the statements on the explicit commands. -/

namespace Sys2Proof.Machine

/-! ### The target columns after a reconstruction -/

/-- A syndrome column at one offset, by the sum over the surviving data columns (44_reconstruction R232). -/
theorem synColumn_eq_synByte {m : ColMap} {mem : Memory} (hwf : mem.wf = true) (hdata : m.p < m.ncols) (j : Par) (ts : List Nat)
    {n o : Nat} (ho : o < n) : (m.synColumn mem j ts n).getD o 0 = m.synByte mem j ts o := by
  rw [(synColumn_getD hwf hdata j ts n).2 o ho, horner_dataCols, ColMap.synByte]
  have hterm (c : Nat) : gfmul (if c ∈ ts then 0 else m.padded mem c o) (m.coef j c) =
      if decide (c ∈ ts) then 0 else gfmul (m.padded mem c o) (m.coef j c) := by
    by_cases hc : c ∈ ts
    · simpa [hc] using zero_gfmul _
    · simp [hc]
  simp only [hterm, xorSum_ite_zero, decide_not]

section
variable {cfg : Config} {m : ColMap} {k : RecCase} {mem : Memory}

theorem size_le_psize (hl : m.Layout cfg) {c : Nat} (hp : m.p ≤ c) (hn : c < m.ncols) : m.size c ≤ m.psize.toNat := by
  by_cases hlast : c + 1 < m.ncols
  · exact (hl.data_full c hp hlast).le
  · obtain rfl : c = m.ncols - 1 := by omega
    have hsize := hl.last_size
    omega

theorem targets_eq_cons (k : RecCase) : k.targets = k.first :: k.targets.tail := by cases k <;> rfl

/-- The scratch buffers, sized to the first target, hold every target (44_reconstruction R236). -/
theorem size_le_first (hl : m.Layout cfg) (hk : k.Fits m) {t : Nat} (ht : t ∈ k.targets) : m.size t ≤ m.size k.first := by
  have hinc := hk.increasing
  rw [targets_eq_cons, List.pairwise_cons] at hinc
  obtain ⟨hp, hn⟩ := hk.data t ht
  rw [targets_eq_cons, List.mem_cons] at ht
  obtain rfl | ht := ht
  · rfl
  · have hfirst := hinc.1 t ht
    obtain ⟨hp', -⟩ := hk.data k.first (by rw [targets_eq_cons]; exact List.mem_cons_self)
    rw [hl.data_full k.first hp' (by omega)]
    exact size_le_psize hl hp hn

/-- What the copy-out writes to target `t` from slot `i` (44_reconstruction R236). -/
def RecCase.slot (k : RecCase) (m : ColMap) (mem : Memory) (t i : Nat) : List Byte :=
  ((k.scratch (bkd m.backend.toNat).form m mem).map fun row => row.getD i 0).take (m.size t)

theorem slot_length (hwf : mem.wf = true) (hl : m.Layout cfg) (hk : k.Fits m) {t : Nat} (ht : t ∈ k.targets) (i : Nat) :
    (k.slot m mem t i).length = m.size t := by
  rw [RecCase.slot, List.length_take, List.length_map, (scratch_getElem hwf hl.data_pos).1,
    Nat.min_eq_left (size_le_first hl hk ht)]

theorem slot_getD (hwf : mem.wf = true) (hl : m.Layout cfg) (hk : k.Fits m) {t : Nat} (ht : t ∈ k.targets) (i : Nat) {o : Nat}
    (ho : o < m.size t) : (k.slot m mem t i).getD o 0 = k.byteAt m mem i o := by
  have hfirst := ho.trans_le (size_le_first hl hk ht)
  have hrow := (scratch_getElem (k := k) (form := (bkd m.backend.toNat).form) hwf hl.data_pos).2 o hfirst
  simp only [synColumn_eq_synByte hwf hl.data_pos _ _ hfirst] at hrow
  rw [List.getD_eq_getElem?_getD, RecCase.slot, List.getElem?_take_of_lt ho, List.getElem?_map, hrow]
  rfl

/-- The writes of the copy-out do not meet: the targets are different columns. -/
theorem slots_disjoint (hwf : mem.wf = true) (hl : m.Layout cfg) (hd : m.disjointCols = true) (hk : k.Fits m) :
    (k.targets.zipIdx.map fun t => (m.base t.1, k.slot m mem t.1 t.2)).Pairwise
      fun p q => ∀ a, p.1 ≤ a ∧ a < p.1 + p.2.length → ¬ (q.1 ≤ a ∧ a < q.1 + q.2.length) := by
  have hinc := hk.increasing
  rw [← List.zipIdx_map_fst 0 k.targets, List.pairwise_map] at hinc
  refine List.pairwise_map.2 (hinc.imp_of_mem fun {t u} ht hu hlt a => ?_)
  have ht' := List.fst_mem_of_mem_zipIdx ht
  have hu' := List.fst_mem_of_mem_zipIdx hu
  rw [slot_length hwf hl hk ht', slot_length hwf hl hk hu']
  exact disjointCols_holds hd (hk.data _ ht').2 (hk.data _ hu').2 hlt.ne

/-- A target column receives the bytes of its slot (44_reconstruction R235, R236). -/
theorem read_recover_in (hwf : mem.wf = true) (hl : m.Layout cfg) (hd : m.disjointCols = true) (hk : k.Fits m) {i t o : Nat}
    (hi : k.targets[i]? = some t) (ho : o < m.size t) :
    (k.recover (bkd m.backend.toNat).form m mem).read (m.base t + o) = k.byteAt m mem i o := by
  have ht := List.mem_of_getElem? hi
  have hslot := List.mem_map_of_mem (f := fun t : Nat × Nat => (m.base t.1, k.slot m mem t.1 t.2))
    (List.mk_mem_zipIdx_iff_getElem?.2 hi)
  rw [recover_eq, ← slot_getD hwf hl hk ht i ho]
  exact writes_in _ _ hslot ((slot_length hwf hl hk ht i).symm ▸ ho) (slots_disjoint hwf hl hd hk)

/-- Bytes outside the target columns stay (44_reconstruction R237). -/
theorem read_recover_out (hwf : mem.wf = true) (hl : m.Layout cfg) (hk : k.Fits m) {a : Nat}
    (ha : ∀ t ∈ k.targets, ¬ m.holds t a) : (k.recover (bkd m.backend.toNat).form m mem).read a = mem.read a := by
  rw [recover_eq]
  refine writes_out _ fun w hw => ?_
  obtain ⟨t, ht, rfl⟩ := List.mem_map.1 hw
  have ht' := List.fst_mem_of_mem_zipIdx ht
  have hlen := slot_length hwf hl hk ht' t.2
  rw [RecCase.slot] at hlen
  rw [hlen]
  exact ha _ ht'

end

/-- An explicit command whose targets fit the map: the registers it writes, the target columns, and the rest of memory
(44_reconstruction R235 to R237, R270, R271). -/
theorem exec_explicit_effect {s : State} {k : RecCase} (hs : s.Computes) (hk : k.Fits s.here.map) :
    ∃ mem : Memory,
      exec k.instr s = .next { s.put { s.here with
        res := Word.ofNat (2 ^ k.targets.length - 1)
        map := { s.here.map with missingdata := BitVec.ofNat 2 k.targets.length, missingparity := 0 } } with mem := mem } ∧
      (∀ i t, k.targets[i]? = some t → ∀ o, o < s.here.map.size t →
        mem.read (s.here.map.base t + o) = k.byteAt s.here.map s.mem i o) ∧
      ∀ a, (∀ t ∈ k.targets, ¬ s.here.map.holds t a) → mem.read a = s.mem.read a := by
  obtain ⟨-, hdisjoint, -⟩ := hs.own
  exact ⟨_, exec_explicit hs hk, fun i t hi o => read_recover_in hs.inv.mem_wf hs.layout hdisjoint hk hi,
    fun a => read_recover_out hs.inv.mem_wf hs.layout hk⟩

/-- `exec_explicit_effect` for two targets and the bytes of both. -/
theorem exec_two_targets {s : State} {k : RecCase} {x y : Nat} {dx dy : Nat → Byte} (hs : s.Computes) (hk : k.Fits s.here.map)
    (ht : k.targets = [x, y])
    (hsolve : ∀ o, k.solve (bkd s.here.map.backend.toNat).form s.here.map (s.here.map.synByte s.mem .P [x, y] o)
      (s.here.map.synByte s.mem .Q [x, y] o) (s.here.map.synByte s.mem .R [x, y] o) = [dx o, dy o]) :
    ∃ mem : Memory,
      exec k.instr s = .next { s.put { s.here with
        res := 0x3, map := { s.here.map with missingdata := 2, missingparity := 0 } } with mem := mem } ∧
      (∀ o, o < s.here.map.size x → mem.read (s.here.map.base x + o) = dx o) ∧
      (∀ o, o < s.here.map.size y → mem.read (s.here.map.base y + o) = dy o) ∧
      ∀ a, ¬ s.here.map.holds x a → ¬ s.here.map.holds y a → mem.read a = s.mem.read a := by
  obtain ⟨mem, hexec, hin, hout⟩ := exec_explicit_effect hs hk
  rw [ht] at hexec hin hout
  have hbyte (i o : Nat) : k.byteAt s.here.map s.mem i o = [dx o, dy o].getD i 0 := by rw [RecCase.byteAt, ht, hsolve]
  exact ⟨mem, hexec, fun o ho => (hin 0 x rfl o ho).trans (hbyte 0 o), fun o ho => (hin 1 y rfl o ho).trans (hbyte 1 o),
    fun a hx hy => hout a (by simpa using ⟨hx, hy⟩)⟩

/-! ### The closed forms by division (44_reconstruction R246, R250) -/

theorem aCoef_eq (m : ColMap) (c : Nat) : m.aCoef c = powZ (m.dist c) := coef_Q m c

theorem eq_gfdiv {a b x : Byte} (hb : b ≠ 0) (h : gfmul b x = a) : x = gfdiv a b := by
  rw [← h, gfdiv, gfmul_comm b, gfmul_assoc, gfmul_inv hb, gfmul_one]

theorem first_of_sum_weighted {A : Type} [CommRing A] {u v P S x y : A} (h : P = x + y ∧ S = u * x + v * y) :
    (u - v) * x = S - v * P := by
  obtain ⟨rfl, rfl⟩ := h
  ring

theorem first_of_weighted_weighted {A : Type} [CommRing A] {u v Q R x y : A}
    (h : Q = u * x + v * y ∧ R = u * u * x + v * v * y) : u * (v - u) * x = v * Q - R := by
  obtain ⟨rfl, rfl⟩ := h
  ring

theorem solveWithP_first {form : Form} {k : Int} {ex ey : Nat} {P S x y : Byte} (hne : powZ (k * ex) ≠ powZ (k * ey))
    (h : solveWithP form k ex ey P S = [x, y]) :
    x = gfdiv (S ^^^ gfmul (powZ (k * ey)) P) (powZ (k * ex) ^^^ powZ (k * ey)) :=
  eq_gfdiv (xor_ne_zero hne) (@first_of_sum_weighted GF gfRing _ _ _ _ _ _ ((solveWithP_iff form hne P S x y).2 h))

theorem solveQR_first {form : Form} {ex ey : Nat} {Q R x y : Byte} (hne : powZ ex ≠ powZ ey)
    (h : solveQR form ex ey Q R = [x, y]) :
    x = gfdiv (gfmul (powZ ey) Q ^^^ R) (gfmul (powZ ex) (powZ ex ^^^ powZ ey)) := by
  rw [BitVec.xor_comm (powZ ex)]
  have hpivot := (gfmul_eq_zero_iff (powZ ex) (powZ ey ^^^ powZ ex)).not.2 (not_or.2 ⟨powZ_ne_zero _, xor_ne_zero hne.symm⟩)
  exact eq_gfdiv hpivot (@first_of_weighted_weighted GF gfRing _ _ _ _ _ _ ((solveQR_iff form hne Q R x y).2 h))

/-! ### The statements -/

/-- Settles O53: the one target receives the syndrome times a power of 2. -/
theorem recOneTarget : Obligations.RecOneTarget := by
  intro s x hs hp hn m restores
  have hone {k : RecCase} {dx : Nat → Byte} (hk : k.targets = [x]) (hneeds : k.needs ≤ m.p)
      (hdx : ∀ o, k.byteAt m s.mem 0 o = dx o) : restores k.instr dx := by
    obtain ⟨mem, hexec, hin, hout⟩ := exec_explicit_effect (k := k) hs
      ⟨hneeds, by simpa [hk] using ⟨hp, hn⟩, by simp [hk]⟩
    simp only [hk, List.forall_mem_singleton] at hexec hin hout
    exact ⟨mem, hexec, fun o ho => (hin 0 x rfl o ho).trans (hdx o), hout⟩
  exact ⟨hone (k := .p x) rfl hs.layout.parity_pos fun _ => rfl,
    fun h2 => hone (k := .q x) rfl h2 fun _ => mlog_m255 _ _ _,
    fun h3 => hone (k := .r x) rfl h3 fun _ => mlog_m255 _ _ _⟩

/-- Settles O54: the solver's exponents unreduced, and the closed forms from the systems it solves. -/
theorem recTwoTargets : Obligations.RecTwoTargets := by
  intro s x y hs hp hxy hn m ex ey P Q R restores tQ xPQ tR xPR ld xQR yQR
  obtain ⟨hne, hne2⟩ := weights_differ hs.layout.data_le hp hxy hn
  have hfits {k : RecCase} (ht : k.targets = [x, y]) (hk : k.needs ≤ m.p) : k.Fits m :=
    ⟨hk, by simpa [ht] using ⟨⟨hp, hxy.trans hn⟩, hp.trans hxy.le, hn⟩, by simpa [ht] using hxy⟩
  have hPQ (form : Form) (o : Nat) : solveWithP form 1 (m.dist x) (m.dist y) (P o) (Q o) = [xPQ o, P o ^^^ xPQ o] := by
    rw [solveWithP_eq]
    simp only [one_mul, neg_mul]
    rfl
  have hPR (form : Form) (o : Nat) : solveWithP form 2 (m.dist x) (m.dist y) (P o) (R o) = [xPR o, P o ^^^ xPR o] :=
    solveWithP_eq _ _ _ _ _ _
  have hQR (form : Form) (o : Nat) : solveQR form (m.dist x) (m.dist y) (Q o) (R o) = [xQR o, yQR o] :=
    solveQR_eq _ _ _ _ _
  refine ⟨fun h2 => ⟨exec_two_targets (k := .pq x y) hs (hfits rfl h2) rfl (hPQ _), fun o => ?pq⟩, fun h3 =>
    ⟨exec_two_targets (k := .pr x y) hs (hfits rfl h3) rfl (hPR _), fun o => solveWithP_first hne2 (hPR .log o),
      exec_two_targets (k := .qr x y) hs (hfits rfl h3) rfl (hQR _), fun o => ?qr⟩⟩
  case pq =>
    have h := solveWithP_first (by simpa only [one_mul] using hne) (hPQ .log o)
    simpa only [aCoef_eq, one_mul] using h
  case qr => simpa only [aCoef_eq] using solveQR_first hne (hQR .log o)

/-- Settles O55: the solver's exponents unreduced. -/
theorem recThreeTargets : Obligations.RecThreeTargets := by
  intro s x y z hs hp3 hp hxy hyz hn m ex ey ez lg2 lxd lyd P Q R dx dy
  obtain ⟨mem, hexec, hin, hout⟩ := exec_explicit_effect (k := .pqr x y z) hs
    ⟨hp3.ge, by simp [RecCase.targets]; omega, by simp [RecCase.targets]; omega⟩
  have hsolve (o : Nat) : (RecCase.pqr x y z).solve (bkd m.backend.toNat).form m (P o) (Q o) (R o) =
      [dx o, dy o, P o ^^^ dx o ^^^ dy o] := solvePQR_eq _ _ _ _ _ _ _
  have hbyte (i o : Nat) : (RecCase.pqr x y z).byteAt m s.mem i o = [dx o, dy o, P o ^^^ dx o ^^^ dy o].getD i 0 :=
    congrArg (List.getD · i 0) (hsolve o)
  exact ⟨mem, hexec, fun o ho => (hin 0 x rfl o ho).trans (hbyte 0 o), fun o ho => (hin 1 y rfl o ho).trans (hbyte 1 o),
    fun o ho => (hin 2 z rfl o ho).trans (hbyte 2 o), fun a hx hy hz => hout a (by simpa [RecCase.targets] using ⟨hx, hy, hz⟩)⟩

end Sys2Proof.Machine
end

section
/-! SUPPORT. Reconstruction against generation (44_reconstruction section 7): where the used parity columns are correct, the lost
bytes solve the case's system; then the statement. -/

namespace Sys2Proof.Machine

/-! ### Lost and surviving columns -/

section
variable {m : ColMap} {k : RecCase}

/-- The lost data columns are the targets, in their order. -/
theorem dataCols_filter_targets (hk : k.Fits m) : (m.dataCols.filter fun c => decide (c ∈ k.targets)) = k.targets := by
  have hinc : m.dataCols.Pairwise (· < ·) := List.pairwise_lt_range'
  refine (hinc.filter _).eq_of_mem_iff hk.increasing fun c => ?_
  rw [List.mem_filter, mem_dataCols, decide_eq_true_iff]
  exact and_iff_right_of_imp (hk.data c)

/-- The sum of a parity column is that of the lost columns and that of the surviving ones. -/
theorem sumByte_eq_lost_xor_surviving (hk : k.Fits m) (mem : Memory) (j : Par) (o : Nat) :
    m.sumByte mem j o = xorSum (k.targets.map fun c => gfmul (m.padded mem c o) (m.coef j c)) ^^^
      xorSum ((m.dataCols.filter fun c => decide (c ∉ k.targets)).map fun c => gfmul (m.padded mem c o) (m.coef j c)) := by
  have hsplit := xorSum_filter (fun c => decide (c ∈ k.targets)) (fun c => gfmul (m.padded mem c o) (m.coef j c)) m.dataCols
  simp only [dataCols_filter_targets hk, ← decide_not] at hsplit
  exact hsplit

theorem padded_congr {mem mem' : Memory} {c : Nat} (h : ∀ a, m.holds c a → mem.read a = mem'.read a) (o : Nat) :
    m.padded mem c o = m.padded mem' c o := by
  unfold ColMap.padded
  split
  case isTrue ho => exact h _ ⟨Nat.le_add_right _ _, Nat.add_lt_add_left ho _⟩
  case isFalse => rfl

theorem index_lt_needs (k : RecCase) : ∀ j ∈ k.rows, j.index < k.needs := by
  cases k <;> simp [RecCase.rows, RecCase.needs, Par.index]

variable {cfg : Config} {mem m0 : Memory} (hl : m.Layout cfg) (hk : k.Fits m) (hcons : m.ConsistentOn m0 k.rows)
  (hdata : ∀ c, m.p ≤ c → c < m.ncols → c ∉ k.targets → ∀ a, m.holds c a → mem.read a = m0.read a)
  (hpar : ∀ j ∈ k.rows, ∀ a, m.holds j.index a → mem.read a = m0.read a)
include hl hk hcons hdata hpar

/-- The syndrome of correct parity is the sum over the lost columns, whatever the targets hold now (44_reconstruction R233). -/
theorem synByte_eq_lost {j : Par} (hj : j ∈ k.rows) {o : Nat} (ho : o < m.psize.toNat) :
    m.synByte mem j k.targets o = xorSum (k.targets.map fun c => gfmul (m.padded m0 c o) (m.coef j c)) := by
  have hstored : m.stored mem j o = m.stored m0 j o := by
    have hindex := (index_lt_needs k j hj).trans_le hk.parity
    exact hpar j hj _ ((holds_parity hl hindex _).2 ⟨Nat.le_add_right _ _, Nat.add_lt_add_left ho _⟩)
  have hsurviving : (m.dataCols.filter fun c => decide (c ∉ k.targets)).map (fun c => gfmul (m.padded mem c o) (m.coef j c)) =
      (m.dataCols.filter fun c => decide (c ∉ k.targets)).map fun c => gfmul (m.padded m0 c o) (m.coef j c) := by
    refine List.map_congr_left fun c hc => ?_
    obtain ⟨hc, hlost⟩ := List.mem_filter.1 hc
    obtain ⟨hp, hn⟩ := (mem_dataCols m c).1 hc
    rw [padded_congr (hdata c hp hn (of_decide_eq_true hlost))]
  rw [ColMap.synByte, hstored, hcons j hj o ho, sumByte_eq_lost_xor_surviving hk, hsurviving, BitVec.xor_assoc, BitVec.xor_self,
    BitVec.xor_zero]

/-- What the lost columns held is the solve of the syndromes (44_reconstruction R234, R256). -/
theorem solve_eq_lost (form : Form) {o : Nat} (ho : o < m.psize.toNat) :
    k.solve form m (m.synByte mem .P k.targets o) (m.synByte mem .Q k.targets o) (m.synByte mem .R k.targets o) =
      k.targets.map fun c => m.padded m0 c o := by
  refine (solveIsTheUniqueSolution form m k (fun j => m.synByte mem j k.targets o) _ hk hl.data_le).1
    ⟨List.length_map _, fun j hj => ?_⟩
  simp only [synByte_eq_lost hl hk hcons hdata hpar hj ho, List.zipWith_map_right, List.zipWith_self, gfmul_comm (m.coef j _)]

end

/-! ### The statement -/

/-- Settles O59: each target receives the solve of its syndromes, and the lost bytes are that solve. -/
theorem reconstructionRoundTrip : Obligations.ReconstructionRoundTrip := by
  intro s k m0 hs hk m hcons hdata hpar
  obtain ⟨mem, hexec, hin, hout⟩ := exec_explicit_effect hs hk
  refine ⟨_, hexec, fun c hc a ha => ?_, hout⟩
  obtain ⟨hbase, hend⟩ := ha
  obtain ⟨o, rfl⟩ := Nat.exists_eq_add_of_le hbase
  obtain ⟨i, hi⟩ := List.getElem?_of_mem hc
  obtain ⟨hp, hn⟩ := hk.data c hc
  have ho : o < m.size c := Nat.lt_of_add_lt_add_left hend
  have hlost := solve_eq_lost hs.layout hk hcons hdata hpar (bkd m.backend.toNat).form (ho.trans_le (size_le_psize hs.layout hp hn))
  calc mem.read (m.base c + o)
      = k.byteAt m s.mem i o := hin i c hi o ho
    _ = (k.targets.map fun c => m.padded m0 c o).getD i 0 := by rw [RecCase.byteAt, hlost]
    _ = m.padded m0 c o := by rw [List.getD_eq_getElem?_getD, List.getElem?_map, hi]; rfl
    _ = m0.read (m.base c + o) := if_pos ho

end Sys2Proof.Machine
end

section
/-! SUPPORT. The checks of the compute commands in stages (43_generation R215, 44_reconstruction R238, R262): the first stage that
does not pass raises its fault; then the statement. -/

namespace Sys2Proof.Machine

/-- Checks that would all raise the same fault, after checks that pass: unless they pass too, that fault is raised. -/
theorem exec_raises_stage {i : Instr} {s : State} {e : Cause} {v : Word} (hf : s.here.fault = false)
    (before stage after : List Check) (hsplit : checksOf i s = before ++ (stage ++ after)) (hb : ∀ c ∈ before, c.bad = false)
    (hsame : ∀ c ∈ stage, c.cause = e ∧ c.info = v) (hstage : ¬ ∀ c ∈ stage, c.bad = false) :
    exec i s = .next (s.takeFault e v) := by
  obtain ⟨k, hk⟩ := Option.ne_none_iff_exists'.1 (find?_bad_eq_none.not.2 hstage)
  obtain ⟨hbad, earlier, later, rfl, hearlier⟩ := List.find?_eq_some_iff_append.1 hk
  obtain ⟨rfl, rfl⟩ := hsame k (by simp)
  refine exec_raises hf (before ++ earlier) (later ++ after) k (by simp [hsplit]) ?_ hbad
  exact List.forall_mem_append.2 ⟨hb, fun c hc => by simpa using hearlier c hc⟩

/-! ### Explicit reconstruction (44_reconstruction R238) -/

theorem exec_explicit_parity {s : State} (hs : s.Ready) (hv : s.here.mapValid = true) {k : RecCase} (h : s.here.map.p < k.needs) :
    exec k.instr s = .next (s.takeFault .parityWidth (Word.ofNat k.needs)) := by
  refine exec_raises_stage hs.running [Check.mapState s.here.mapValid k.instr] [Check.parityWidth s.here.map k.needs]
    (k.targets.map (Check.dataTarget s.here.map) ++ [Check.targets (decide (k.targets.Pairwise (· < ·))) k.instr])
    (by simp [checksOf_explicit, State.explicitChecks]) (by simp [hv]) (by simp [Check.parityWidth]) (by simpa using h)

theorem exec_explicit_target {s : State} (hs : s.Ready) (hv : s.here.mapValid = true) {k : RecCase} (h : k.needs ≤ s.here.map.p)
    {before after : List Nat} {t : Nat} (ht : k.targets = before ++ t :: after)
    (hbefore : ∀ u ∈ before, s.here.map.p ≤ u ∧ u < s.here.map.ncols) (hbad : ¬ (s.here.map.p ≤ t ∧ t < s.here.map.ncols)) :
    exec k.instr s = .next (s.takeFault .colidx (Word.ofNat t)) := by
  refine exec_raises_stage hs.running ([Check.mapState s.here.mapValid k.instr, Check.parityWidth s.here.map k.needs] ++
      before.map (Check.dataTarget s.here.map)) [Check.dataTarget s.here.map t]
    (after.map (Check.dataTarget s.here.map) ++ [Check.targets (decide (k.targets.Pairwise (· < ·))) k.instr])
    (by simp [checksOf_explicit, State.explicitChecks, ht]) ?_ (by simp [Check.dataTarget]) (by simpa using hbad)
  simp only [List.forall_mem_append, List.forall_mem_cons, List.forall_mem_map, parityWidth_passed, dataTarget_passed]
  exact ⟨⟨by simp [hv], h, by simp⟩, hbefore⟩

theorem exec_explicit_order {s : State} (hs : s.Ready) (hv : s.here.mapValid = true) {k : RecCase} (h : k.needs ≤ s.here.map.p)
    (hdata : ∀ t ∈ k.targets, s.here.map.p ≤ t ∧ t < s.here.map.ncols) (hbad : ¬ k.targets.Pairwise (· < ·)) :
    exec k.instr s = .next (s.takeFault .targets (encode k.instr)) := by
  refine exec_raises_stage hs.running ([Check.mapState s.here.mapValid k.instr, Check.parityWidth s.here.map k.needs] ++
      k.targets.map (Check.dataTarget s.here.map)) [Check.targets (decide (k.targets.Pairwise (· < ·))) k.instr] []
    (by simp [checksOf_explicit, State.explicitChecks]) ?_ (by simp [Check.targets]) (by simpa using hbad)
  simp only [List.forall_mem_append, List.forall_mem_cons, List.forall_mem_map, parityWidth_passed, dataTarget_passed]
  exact ⟨⟨by simp [hv], h, by simp⟩, hdata⟩

/-! ### `REC` (44_reconstruction R262) -/

/-- The checks on the count and the unused fields. -/
def countStage (i : Instr) (nt t1 t2 : Nat) : List Check :=
  [Check.targets (decide (1 ≤ nt) && decide (nt ≤ 3)) i,
    Check.targets ((decide (1 < nt) || decide (t1 = 0)) && (decide (2 < nt) || decide (t2 = 0))) i]

/-- The checks on the order and on a data target. -/
def orderStage (m : ColMap) (i : Instr) (nt t0 t1 t2 : Nat) : List Check :=
  [Check.targets ((decide (nt < 2) || decide (t0 < t1)) && (decide (nt < 3) || decide (t1 < t2))) i,
    Check.targets (decide ((m.damagedData (damagedList nt t0 t1 t2)).length ≠ 0)) i]

section
variable {nt t0 t1 t2 : Nat}

theorem checksOf_recList (s : State) :
    checksOf (.recList nt t0 t1 t2) s =
      Check.mapState s.here.mapValid (.recList nt t0 t1 t2) :: (countStage (.recList nt t0 t1 t2) nt t1 t2 ++
        ((damagedList nt t0 t1 t2).map (Check.column s.here.map) ++ (orderStage s.here.map (.recList nt t0 t1 t2) nt t0 t1 t2 ++
          [Check.parityLeft s.here.map (damagedList nt t0 t1 t2)]))) := by
  simp [checksOf, State.recListChecks, countStage, orderStage, Check.parityLeft]

theorem countStage_passed {i : Instr} : (∀ c ∈ countStage i nt t1 t2, c.bad = false) ↔
    1 ≤ nt ∧ nt ≤ 3 ∧ (nt < 2 → t1 = 0) ∧ (nt < 3 → t2 = 0) := by
  have hfields : (1 ≤ nt ∧ nt ≤ 3) ∧ (nt ≤ 1 → t1 = 0) ∧ (nt ≤ 2 → t2 = 0) ↔
    1 ≤ nt ∧ nt ≤ 3 ∧ (nt < 2 → t1 = 0) ∧ (nt < 3 → t2 = 0) := by omega
  rw [← hfields]
  simp [countStage]

theorem damagedList_increasing (h1 : 1 ≤ nt) (h3 : nt ≤ 3) :
    (damagedList nt t0 t1 t2).Pairwise (· < ·) ↔ (1 < nt → t0 < t1) ∧ (3 ≤ nt → t1 < t2) := by
  obtain rfl | rfl | rfl : nt = 1 ∨ nt = 2 ∨ nt = 3 := by omega
  · simp [damagedList]
  · simp [damagedList]
  · simp [damagedList]
    omega

theorem orderStage_passed {m : ColMap} {i : Instr} (h1 : 1 ≤ nt) (h3 : nt ≤ 3) :
    (∀ c ∈ orderStage m i nt t0 t1 t2, c.bad = false) ↔
      (damagedList nt t0 t1 t2).Pairwise (· < ·) ∧ m.damagedData (damagedList nt t0 t1 t2) ≠ [] := by
  rw [damagedList_increasing h1 h3]
  simp [orderStage]

theorem exec_recList_count {s : State} (hs : s.Ready) (hv : s.here.mapValid = true)
    (hbad : ¬ (1 ≤ nt ∧ nt ≤ 3 ∧ (nt < 2 → t1 = 0) ∧ (nt < 3 → t2 = 0))) :
    exec (.recList nt t0 t1 t2) s = .next (s.takeFault .targets (encode (.recList nt t0 t1 t2))) :=
  exec_raises_stage hs.running [_] _ _ (checksOf_recList s) (by simp [hv]) (by simp [countStage, Check.targets])
    (countStage_passed.not.2 hbad)

variable (hcount : 1 ≤ nt ∧ nt ≤ 3 ∧ (nt < 2 → t1 = 0) ∧ (nt < 3 → t2 = 0))
include hcount

theorem exec_recList_column {s : State} (hs : s.Ready) (hv : s.here.mapValid = true) {before after : List Nat} {t : Nat}
    (ht : damagedList nt t0 t1 t2 = before ++ t :: after) (hbefore : ∀ u ∈ before, u < s.here.map.ncols)
    (hbad : s.here.map.ncols ≤ t) : exec (.recList nt t0 t1 t2) s = .next (s.takeFault .colidx (Word.ofNat t)) := by
  refine exec_raises_stage hs.running (Check.mapState s.here.mapValid (.recList nt t0 t1 t2) ::
      (countStage (.recList nt t0 t1 t2) nt t1 t2 ++ before.map (Check.column s.here.map))) [Check.column s.here.map t]
    (after.map (Check.column s.here.map) ++ (orderStage s.here.map (.recList nt t0 t1 t2) nt t0 t1 t2 ++
      [Check.parityLeft s.here.map (damagedList nt t0 t1 t2)]))
    (by simp [checksOf_recList, ht]) ?_ (by simp [Check.column]) (by simpa using hbad)
  simp only [List.forall_mem_cons, List.forall_mem_append, List.forall_mem_map, column_bad, decide_eq_false_iff_not, not_le]
  exact ⟨by simp [hv], countStage_passed.2 hcount, hbefore⟩

theorem exec_recList_order {s : State} (hs : s.Ready) (hv : s.here.mapValid = true)
    (hcols : ∀ t ∈ damagedList nt t0 t1 t2, t < s.here.map.ncols)
    (hbad : ¬ ((damagedList nt t0 t1 t2).Pairwise (· < ·) ∧ s.here.map.damagedData (damagedList nt t0 t1 t2) ≠ [])) :
    exec (.recList nt t0 t1 t2) s = .next (s.takeFault .targets (encode (.recList nt t0 t1 t2))) := by
  obtain ⟨h1, h3, -, -⟩ := id hcount
  refine exec_raises_stage hs.running (Check.mapState s.here.mapValid (.recList nt t0 t1 t2) ::
      (countStage (.recList nt t0 t1 t2) nt t1 t2 ++ (damagedList nt t0 t1 t2).map (Check.column s.here.map)))
    (orderStage s.here.map (.recList nt t0 t1 t2) nt t0 t1 t2) [Check.parityLeft s.here.map (damagedList nt t0 t1 t2)]
    (by simp [checksOf_recList]) ?_ (by simp [orderStage, Check.targets])
    ((orderStage_passed h1 h3).not.2 hbad)
  simp only [List.forall_mem_cons, List.forall_mem_append, List.forall_mem_map, column_bad, decide_eq_false_iff_not, not_le]
  exact ⟨by simp [hv], countStage_passed.2 hcount, hcols⟩

end

/-! ### The statement -/

/-- Settles O57: in each clause the checks before the stage it names pass, and that stage does not. -/
theorem computeChecksInOrder : Obligations.ComputeChecksInOrder := by
  intro s hs hv m raises
  refine ⟨exec_parityWidth hs hv rfl, exec_parityWidth hs hv rfl, exec_parityWidth hs hv rfl,
    fun k => ⟨exec_explicit_parity hs hv, fun h before t after => exec_explicit_target hs hv h, exec_explicit_order hs hv⟩,
    fun nt t0 t1 t2 => ⟨exec_recList_count hs hv, fun hcount before t after => exec_recList_column hcount hs hv,
      fun hcount hcols hbad => exec_recList_order hcount hs hv hcols ?order,
      fun ⟨h1, h3, ht1, ht2⟩ hcols hinc hdata hleft => ?parity⟩⟩
  case order =>
    rw [not_and_or, not_not]
    exact hbad
  case parity =>
    obtain ⟨earlier, hsplit, hearlier⟩ := recListChecks_last hv h1 h3 ht1 ht2 hcols hinc hdata
    exact exec_raises hs.running earlier [] (Check.parityLeft m _) hsplit hearlier (decide_eq_true hleft)

end Sys2Proof.Machine
end

section
/-! SUPPORT. The compute commands under another backend (45_dispatch R288): checks, premise and effects read nothing of the cached
backend but the multiply form, and every form computes the same bytes; then the statement. -/

namespace Sys2Proof.Machine

/-- A result with backend `b` cached on the map of its next state; a stop stays as it is. -/
def withBackend (b : Nat) : Result → Result
  | .next t => .next (t.onBackend b)
  | .fault r => .fault r
  | .refused r => .refused r

section
variable {s : State} (hs : s.Ready) (b : Nat)

theorem solve_form (k : RecCase) (form form' : Form) (m : ColMap) (P Q R : Byte) :
    k.solve form m P Q R = k.solve form' m P Q R := by
  cases k <;> simp only [RecCase.solve, mlog_m255, solveWithP_eq, solveQR_eq, solvePQR_eq]

/-- The multiply form and the backend of the map leave no trace in a reconstruction (40_field R129). -/
theorem recover_backend (k : RecCase) (form form' : Form) (m : ColMap) (bk : BitVec 8) (mem : Memory) :
    k.recover form { m with backend := bk } mem = k.recover form' m mem := by
  have hscratch : k.scratch form { m with backend := bk } mem = k.scratch form' m mem := by
    simp only [RecCase.scratch, solve_form k form form']
    rfl
  rw [recover_eq, recover_eq, hscratch]
  rfl

include hs

theorem onBackend_onBackend (b' : Nat) : (s.onBackend b).onBackend b' = s.onBackend b' := by
  rw [State.onBackend, onBackend_here hs]
  exact put_put _ _ _

theorem takeFault_onBackend (e : Cause) (v : Word) : (s.onBackend b).takeFault e v = (s.takeFault e v).onBackend b := by
  simp [State.onBackend, here_put _ _ hs.present]

theorem generate_onBackend (k : Nat) : (s.onBackend b).generate k = (s.generate k).onBackend b := by
  rw [generate_eq, onBackend_here hs, generate_eq]
  rfl

theorem reconstruct_onBackend (k : RecCase) (np : Nat) :
    (s.onBackend b).reconstruct k np = (s.reconstruct k np).onBackend b := by
  conv_rhs => rw [State.onBackend, reconstruct_here k np hs.present]
  rw [State.reconstruct, onBackend_here hs, recover_backend k _ (bkd s.here.map.backend.toNat).form]
  simp [State.reconstruct, State.onBackend, State.put]

/-- No check of a compute command reads the cached backend. -/
theorem checksOf_onBackend {i : Instr} (hi : i.compute = true) : checksOf i (s.onBackend b) = checksOf i s := by
  cases i
  case gen | genP | genPQ | genPQR =>
    rw [checksOf, onBackend_here hs]
    rfl
  case recList =>
    rw [checksOf, State.recListChecks, onBackend_here hs]
    rfl
  case recP | recQ | recR | recPQ | recPR | recQR | recPQR =>
    rw [checksOf, State.explicitChecks, onBackend_here hs]
    rfl
  all_goals cases hi

theorem onBuffers_onBackend (r : Result) : (s.onBackend b).onBuffers (withBackend b r) = withBackend b (s.onBuffers r) := by
  refine (onBuffers_put hs.present (c := { s.here with map := { s.here.map with backend := BitVec.ofNat 8 b } }) rfl s.mem
    (withBackend b r)).trans ?_
  unfold State.onBuffers
  split_ifs <;> rfl

/-- The effect of a compute command is the same but for the cached backend. -/
theorem effectOf_onBackend {i : Instr} (hi : i.compute = true) : effectOf i (s.onBackend b) = withBackend b (effectOf i s) := by
  have hb := ready_onBackend hs b
  obtain hgen | ⟨k, np, hrec⟩ := compute_cases hi s.here.map
  · rw [effectOf_generation hgen, effectOf_generation hgen, generateEffect, generateEffect,
      guarded_generate _ _ hb.present hb.outside, guarded_generate _ _ hs.present hs.outside, onBackend_here hs, genWidth_backend,
      generate_onBackend hs, ← onBuffers_onBackend hs]
    rfl
  · have hrec' : i.recovery (s.onBackend b).here.map = some (k, np) := by
      rw [onBackend_here hs, ← hrec]
      cases i <;> rfl
    rw [effectOf_recovery hrec, effectOf_recovery hrec', recoverEffect, recoverEffect,
      guarded_reconstruct _ _ _ hb.present hb.outside, guarded_reconstruct _ _ _ hs.present hs.outside,
      reconstruct_onBackend hs, ← onBuffers_onBackend hs]
    rfl

/-- A compute command with another backend cached gives what it gives with the present one, but for the cached backend. -/
theorem exec_onBackend {i : Instr} (hi : i.compute = true) : exec i (s.onBackend b) = withBackend b (exec i s) := by
  have hrun := hs.running
  have hrun' := (ready_onBackend hs b).running
  rw [exec_eq_issue, exec_eq_issue, checksOf_onBackend hs b hi, State.issue, State.issue, hrun, hrun']
  cases (checksOf i s).find? Check.bad with
  | some k => exact congrArg Host.Outcome.next (takeFault_onBackend hs b k.cause k.info)
  | none => exact effectOf_onBackend hs b hi

end

/-! ### The statement -/

/-- Settles O60: either backend gives what the other gives, but for the cached backend. -/
theorem crossBackendEquivalence : Obligations.CrossBackendEquivalence := by
  intro i s b b' hi hs _ _
  have hexec := exec_onBackend (ready_onBackend hs b) b' hi
  rw [onBackend_onBackend hs] at hexec
  refine ⟨fun t h => ?_, fun r h => ?_, fun r h => ?_⟩ <;> rw [hexec, h] <;> rfl

end Sys2Proof.Machine
end
